-- ==== Sys2Proof/Word.lean ====
section
/-! DEFINITION. The word types of the machine (spec/00_scope.md R12, R13). -/

namespace Sys2Proof

/-- A register, a sample word or a sample-memory address: "All registers are 64 bits wide" (R12). -/
abbrev Word := BitVec 64

/-- One byte of sample memory (R70). -/
abbrev Byte := BitVec 8

end Sys2Proof
end

