-- ==== Sys2Proof/Syntax.lean ====
section
/-! DEFINITION. The four commands, one constructor per row of spec/opcode_table.json (spec/30_encoding.md R104), and the
names of the registers of the port (spec/10_state.md R32), and the lines of a command script (R113, R114). -/

namespace Sys2Proof

/-- A command. The operands are the unsigned integers of R103: `nReq` and `n` the `CNT` field, `c` the `CH` field. -/
inductive Instr where
  /-- `LOAD` (R191) -/
  | load
  /-- `START` (R192) -/
  | start
  /-- `PROC nReq` (R160) -/
  | proc (nReq : Nat)
  /-- `FILT c, n` (R140) -/
  | filt (c n : Nat)
  deriving DecidableEq, Repr

/-- The registers of the port by name (R32); indices 16 to 31 are reserved and behave alike (R46). -/
inductive Reg where
  | cmd | status | err | cap | numB | numA | numCh | totalFrame | nextFrame
  | srcBase | dstBase | outBase | finBase | foutBase | sel | data
  | reserved
  deriving DecidableEq, Repr

/-- A line of the command script (spec/30_encoding.md R113) or a pseudo-instruction (R114). A sample value is given as its
binary64 word (log 19). -/
inductive Line where
  /-- `WR reg, value` -/
  | wr (idx : BitVec 5) (value : Word)
  /-- `RD reg` -/
  | rd (idx : BitVec 5)
  /-- `LOAD`, `START`, `PROC n`, `FILT c, n` -/
  | command (i : Instr)
  /-- `SUPRD` -/
  | supRd
  /-- `SETB k, x` -/
  | setB (k : Nat) (x : Word)
  /-- `SETA k, x` -/
  | setA (k : Nat) (x : Word)
  /-- `GETB k` -/
  | getB (k : Nat)
  /-- `GETA k` -/
  | getA (k : Nat)
  /-- `GETX c, i` -/
  | getX (c i : Nat)
  /-- `GETY c, i` -/
  | getY (c i : Nat)
  /-- `CLRERR` -/
  | clrErr
  deriving DecidableEq, Repr

end Sys2Proof
end

