-- ==== Sys2Proof/WellFormed.lean ====
section
/-! DEFINITION. Which commands have an encoding: the operand ranges of spec/30_encoding.md R103 and R113; and which script
lines are accepted, the ranges of the pseudo-instructions of R114 being the model's choice (log 25). -/

namespace Sys2Proof

/-- The operands fit their fields: `CH` is 0 to 255, `CNT` is 0 to 2^32 - 1 (R103); "An assembler must refuse operands
out of the ranges given" (R113). -/
def Instr.wellFormed : Instr → Bool
  | .load => true
  | .start => true
  | .proc nReq => decide (nReq < 2 ^ 32)
  | .filt c n => decide (c < 2 ^ 8) && decide (n < 2 ^ 32)

/-- A script line an assembler accepts. For `PROC` and `FILT` the ranges are those of R113. DESIGN CHOICE (log 25): R114 gives
no ranges for `k` of `SETB`, `SETA`, `GETB`, `GETA` or for `c`, `i` of `GETX`, `GETY`; the model accepts those that fit the
field of `SEL` they go to, 16 bits of `IDX` and 8 bits of `CH` (spec/10_state.md R44). -/
def Line.wellFormed : Line → Bool
  | .wr _ _ => true
  | .rd _ => true
  | .command i => i.wellFormed
  | .supRd => true
  | .setB k _ => decide (k < 2 ^ 16)
  | .setA k _ => decide (k < 2 ^ 16)
  | .getB k => decide (k < 2 ^ 16)
  | .getA k => decide (k < 2 ^ 16)
  | .getX c i => decide (c < 2 ^ 8) && decide (i < 2 ^ 16)
  | .getY c i => decide (c < 2 ^ 8) && decide (i < 2 ^ 16)
  | .clrErr => true

end Sys2Proof
end

