-- ==== Sys2Proof/Decode.lean ====
section
/-! DEFINITION. The command decoder and encoder (spec/30_encoding.md R100 to R111), and the decoding of a register index
(spec/10_state.md R32). -/

namespace Sys2Proof

/-- `OPC`, bits 63:56 (R101). -/
def opcField (w : Word) : Nat := (w.extractLsb' 56 8).toNat
/-- `CH`, bits 55:48 (R101). -/
def chField (w : Word) : Nat := (w.extractLsb' 48 8).toNat
/-- `RSV`, bits 47:32 (R101). -/
def rsvField (w : Word) : Nat := (w.extractLsb' 32 16).toNat
/-- `CNT`, bits 31:0 (R101). -/
def cntField (w : Word) : Nat := (w.extractLsb' 0 32).toNat

/-- Why a word is no command (R110). Every one of them raises IllCmd (R105, R222): a defined event, no stop of the machine. -/
inductive DecodeError where
  /-- `RSV != 0` -/
  | reservedNotZero
  /-- `OPC` 0x00 or 0x05 to 0xFF -/
  | noSuchOpcode
  /-- `LOAD`, `START` or `PROC` with `CH != 0` -/
  | channelNotZero
  /-- `LOAD` or `START` with `CNT != 0` -/
  | countNotZero
  deriving DecidableEq, Repr

/-- A command of format Z: `CH` and `CNT` must be 0 (R102). -/
def decodeZ (i : Instr) (w : Word) : Except DecodeError Instr :=
  if chField w ≠ 0 then .error .channelNotZero
  else if cntField w ≠ 0 then .error .countNotZero
  else .ok i

/-- A command of format N: `CH` must be 0 (R102). -/
def decodeN (i : Nat → Instr) (w : Word) : Except DecodeError Instr :=
  if chField w ≠ 0 then .error .channelNotZero else .ok (i (cntField w))

/-- The decoder, total and independent of any state (R105). -/
def decode (w : Word) : Except DecodeError Instr :=
  if rsvField w ≠ 0 then .error .reservedNotZero
  else match opcField w with
    | 0x01 => decodeZ .load w
    | 0x02 => decodeZ .start w
    | 0x03 => decodeN .proc w
    | 0x04 => .ok (.filt (chField w) (cntField w))
    | _ => .error .noSuchOpcode

/-- The decoder on an instruction as spec/opcode_table.json numbers its bits. A command is one 64-bit word and has no
later words (R100), so `nbits` is always 64 and decides nothing; a number of more than 64 bits is no command word. -/
def decodeTableWord (_nbits w : Nat) : Option Instr :=
  if w < 2 ^ 64 then
    match decode (BitVec.ofNat 64 w) with
    | .ok i => some i
    | .error _ => none
  else none

/-- A command word put together from its fields (R101). -/
def packFields (opc ch cnt : Nat) : Word :=
  BitVec.ofNat 8 opc ++ BitVec.ofNat 8 ch ++ (0 : BitVec 16) ++ BitVec.ofNat 32 cnt

/-- The encoder: the word of a well-formed command (R102, R104, R113). -/
def encode : Instr → Word
  | .load => packFields 0x01 0 0
  | .start => packFields 0x02 0 0
  | .proc nReq => packFields 0x03 0 nReq
  | .filt c n => packFields 0x04 c n

/-- A row of the opcode map: "A word w is command m when `w & mask(m) = match(m)`" (R104). -/
structure OpcodeRow where
  mnemonic : String
  mask     : Word
  pattern  : Word
  deriving DecidableEq, Repr

/-- The opcode map of R104, as spec/opcode_table.json copies it. -/
def opcodeMap : List OpcodeRow :=
  [ ⟨"LOAD",  0xFFFFFFFFFFFFFFFF, 0x0100000000000000⟩,
    ⟨"START", 0xFFFFFFFFFFFFFFFF, 0x0200000000000000⟩,
    ⟨"PROC",  0xFFFFFFFF00000000, 0x0300000000000000⟩,
    ⟨"FILT",  0xFF00FFFF00000000, 0x0400000000000000⟩ ]

/-- The word is the command of this row (R104). -/
def OpcodeRow.covers (r : OpcodeRow) (w : Word) : Bool := decide (w &&& r.mask = r.pattern)

/-- The name a command has in the opcode map (R104). -/
def Instr.mnemonic : Instr → String
  | .load => "LOAD"
  | .start => "START"
  | .proc _ => "PROC"
  | .filt _ _ => "FILT"

/-- The register a 5-bit index names (R32). -/
def Reg.ofIndex (idx : BitVec 5) : Reg :=
  match idx.toNat with
  | 0 => .cmd | 1 => .status | 2 => .err | 3 => .cap
  | 4 => .numB | 5 => .numA | 6 => .numCh | 7 => .totalFrame
  | 8 => .nextFrame | 9 => .srcBase | 10 => .dstBase | 11 => .outBase
  | 12 => .finBase | 13 => .foutBase | 14 => .sel | 15 => .data
  | _ => .reserved

/-- The index of a named register (R32); a reserved register stands for the first reserved index. -/
def Reg.index : Reg → BitVec 5
  | .cmd => 0 | .status => 1 | .err => 2 | .cap => 3
  | .numB => 4 | .numA => 5 | .numCh => 6 | .totalFrame => 7
  | .nextFrame => 8 | .srcBase => 9 | .dstBase => 10 | .outBase => 11
  | .finBase => 12 | .foutBase => 13 | .sel => 14 | .data => 15
  | .reserved => 16

/-- The byte offset of a register index from the port's base, "Seen as memory-mapped" (R32). -/
def regOffset (idx : BitVec 5) : Nat := 8 * idx.toNat

/-- The register index at a byte offset; "only whole, aligned 64-bit accesses exist" (R32). -/
def indexOfOffset (off : Nat) : Option (BitVec 5) :=
  if off % 8 = 0 ∧ off / 8 < 32 then some (BitVec.ofNat 5 (off / 8)) else none

end Sys2Proof
end

