-- ==== Sys2Proof/Config.lean ====
section
/-! DEFINITION. What an implementation fixes: the OPEN parameters of spec/00_scope.md R7 to R11, and the one free value
of the spec, which NaN an arithmetic operation returns (spec/40_filter_engine.md R133, spec/93_implementation_defined.md U6). -/

namespace Sys2Proof

/-- A range of sample memory, both ends included, as byte addresses. -/
structure Region where
  first : Nat
  last  : Nat
  deriving DecidableEq, Repr

/-- The parameters "the model takes as arguments" (R7, R8, R9, R11). They are fixed for one machine: no transaction
changes them. `backed` lists where sample memory exists; every set of words of the 2^64-byte space is such a list.
DESIGN CHOICE (log 3, log 4): they are held beside the state, so that a statement about every state is a statement about
every value of the parameters. -/
structure Params where
  maxCoef  : Nat
  maxCh    : Nat
  blockLen : Nat
  backed   : List Region
  deriving DecidableEq, Repr

/-- The spec's default parameters (R7 to R9). That every address is backed is a DESIGN CHOICE (log 4). -/
def Params.default : Params :=
  { maxCoef := 256, maxCh := 2, blockLen := 1024, backed := [⟨0, 2 ^ 64 - 1⟩] }

/-- The legal ranges of R7 to R9. -/
abbrev Params.Legal (p : Params) : Prop :=
  (1 ≤ p.maxCoef ∧ p.maxCoef ≤ 65535) ∧ (1 ≤ p.maxCh ∧ p.maxCh ≤ 256) ∧ (1 ≤ p.blockLen ∧ p.blockLen ≤ 2 ^ 32 - 1)

/-- `HCAP`, "the number of 64-bit entries in each history register file" (R10). -/
abbrev Params.hcap (p : Params) : Nat := p.maxCoef - 1

/-- Free value: the bits from which a multiplication of these two operands makes its NaN, when its result is a NaN.
Nothing is known of it (R133, U6; log 8). -/
opaque Config.mulNaN : Word → Word → Word

/-- Free value: the bits from which an addition of these two operands makes its NaN, when its result is a NaN.
Nothing is known of it (R133, U6; log 8). -/
opaque Config.addNaN : Word → Word → Word

end Sys2Proof
end

