-- ==== Sys2Proof/Machine/State.lean ====
section
/-! DEFINITION. The state of the machine as plain data: every element of spec/10_state.md R20, sample memory, the
parameters, and the model's own input and output lists. -/

namespace Sys2Proof.Machine

/-- Why the machine stops with a fault. -/
inductive Fault where
  /-- Raised by `MemRead` and `MemWrite` (so by `PROC` and `FILT`), and by HOST's own access to sample memory, at an address
  with `Backed(addr)` false. "a model should give that access no step (the command is stuck)" (R79, U3; log 5). Safe. -/
  | unbackedAccess (addr : Word)
  deriving DecidableEq, Repr

/-- Why an instruction has no meaning. -/
inductive Refusal where
  /-- Raised by `exec`'s arms for instructions without a meaning; no arm of this model does. Safe. -/
  | notModelled (mnemonic : String)
  /-- Raised by `PROC` in every state, and by a `FILT` that passed its Reject tests, when the count exceeds `BLOCK_LEN`:
  UNPREDICTABLE, "A model must give such a transaction no meaning (refuse it)" (R15, R140, R161, U1, U2; log 6). Safe. -/
  | countExceedsBlockLen (count : Nat)
  deriving DecidableEq, Repr

/-- The configuration status `CFG` (R27). Value 3 "is never taken". -/
inductive Cfg where
  | unloaded | ok | err
  deriving DecidableEq, Repr

/-- The scheduler state `STATE` (R24). Value 3 "is never taken". -/
inductive Phase where
  | idle | running | done
  deriving DecidableEq, Repr

/-- The three error events (R220); the spec's codes 1, 2, 3 in this order. -/
inductive ErrorEvent where
  | configurationError | illCmd | reject
  deriving DecidableEq, Repr

/-- The trace of events the CORE produces (R49): memory reads with the value, memory writes, the completion event. -/
inductive Event where
  | read (addr value : Word)
  | write (addr value : Word)
  | evtDone
  deriving DecidableEq, Repr

/-- A request to the machine from outside: one atomic step each (R5, R6). -/
inductive Transaction where
  /-- HOST reads register `idx` (R112, R200) -/
  | hostRead (idx : BitVec 5)
  /-- HOST writes `v` to register `idx`; index 0 is a command (R112, R201) -/
  | hostWrite (idx : BitVec 5) (v : Word)
  /-- SUP reads `STATUS` (R207) -/
  | supRead
  /-- the platform asserts reset (R260) -/
  | reset
  /-- HOST writes a byte of sample memory, "by means outside this spec" (R70; log 10) -/
  | hostMemWrite (addr : Word) (b : Byte)
  /-- HOST reads a byte of sample memory (R70, R71; log 10) -/
  | hostMemRead (addr : Word)
  deriving DecidableEq, Repr

/-- A value a port returned (R112, R200, R207); the model's own record (log 12). -/
inductive Reply where
  | hostData (idx : BitVec 5) (value : Word)
  | supData (value : Word)
  | hostMemData (addr : Word) (b : Byte)
  deriving DecidableEq, Repr

/-- Sample memory: addresses strictly rising, no entry equal to what an unlisted address reads as (`Memory.wf`). -/
abbrev Memory := List Host.Cell

/-- The state. -/
structure State where
  /-- the implementation parameters (R7 to R11), never changed by a step (log 3) -/
  params     : Params
  /-- bank `B`, the FIR coefficients (R21) -/
  bankB      : List Word
  /-- bank `A`, reserved (R22) -/
  bankA      : List Word
  /-- `NUM_B`, read as signed (R37) -/
  numB       : Word
  /-- `NUM_A`, read as signed (R37) -/
  numA       : Word
  /-- `CFG` (R27) -/
  cfg        : Cfg
  /-- `XS[c][i]`, the input histories, one list of `HCAP` words per channel (R23) -/
  xs         : List (List Word)
  /-- `YS[c][i]`, reserved (R28) -/
  ys         : List (List Word)
  /-- `NUM_CH` (R38) -/
  numCh      : Word
  /-- `TOTAL_FRAME` (R39) -/
  totalFrame : Word
  /-- `NEXT_FRAME` (R25, R40) -/
  nextFrame  : Word
  /-- `STATE` (R24) -/
  phase      : Phase
  /-- `COMPLETE` (R26) -/
  complete   : Bool
  /-- `ERR.ILLCMD` (R31) -/
  errIllCmd  : Bool
  /-- `ERR.REJECT` (R31) -/
  errReject  : Bool
  /-- `SRC_BASE` (R41) -/
  srcBase    : Word
  /-- `DST_BASE` (R41) -/
  dstBase    : Word
  /-- `OUT_BASE` (R41) -/
  outBase    : Word
  /-- `FIN_BASE` (R41) -/
  finBase    : Word
  /-- `FOUT_BASE` (R41) -/
  foutBase   : Word
  /-- `SEL` (R44) -/
  sel        : Word
  /-- sample memory (R70) -/
  mem        : Memory
  /-- the requests not yet taken, first one first (log 1) -/
  inbox      : List Transaction
  /-- the events produced so far, oldest first (R49; log 12) -/
  trace      : List Event
  /-- the values the ports returned so far, oldest first (log 12) -/
  replies    : List Reply
  deriving DecidableEq, Repr

/-- The reset value of the history files: every entry of every channel `+0.0` (R51). -/
def zeroHistories (p : Params) : List (List Word) := List.replicate p.maxCh (List.replicate p.hcap 0)

/-- The state after reset of a machine with parameters `p`: "every element of rule R20 is zero" (R51). -/
def State.resetOf (p : Params) : State :=
  { params := p
    bankB := List.replicate p.maxCoef 0, bankA := List.replicate p.maxCoef 0
    numB := 0, numA := 0, cfg := .unloaded
    xs := zeroHistories p, ys := zeroHistories p
    numCh := 0, totalFrame := 0, nextFrame := 0
    phase := .idle, complete := false, errIllCmd := false, errReject := false
    srcBase := 0, dstBase := 0, outBase := 0, finBase := 0, foutBase := 0, sel := 0
    mem := [], inbox := [], trace := [], replies := [] }

/-- The machine right after reset, with the spec's default parameters (R51, R7 to R9). No register value is the model's
choice; sample memory, the inbox, the trace and the replies start empty (log 2, log 7, log 12). -/
def State.reset : State := State.resetOf Params.default

end Sys2Proof.Machine
end

