-- ==== Sys2Proof/Machine/Ops.lean ====
section
/-! DEFINITION. The shared operations: sample memory byte by byte and word by word, the CORE's two memory accesses, the
error events and their clearing, the completion event, reset. -/

namespace Sys2Proof.Machine

/-! ## Sample memory (spec/20_memory.md R70 to R75) -/

/-- What an unlisted byte of memory reads as. DESIGN CHOICE (log 7): the spec leaves the initial contents of sample memory
open (U7); every initial memory is some list in `State.mem`. Unsafe for a claim about memory nothing has listed. -/
def Memory.unlisted : Byte := 0

/-- The canonical form: addresses of the 2^64-byte space, strictly rising, none listed with the value an unlisted address
reads as. -/
def Memory.wf : Memory → Bool
  | [] => true
  | [(a, b)] => decide (a < 2 ^ 64) && decide (b ≠ Memory.unlisted)
  | (a, b) :: (a', b') :: rest => decide (a < a') && decide (b ≠ Memory.unlisted) && Memory.wf ((a', b') :: rest)

/-- The byte `M[a]` (R74). -/
def Memory.readByte : Memory → Nat → Byte
  | [], _ => Memory.unlisted
  | (k, b) :: rest, a => if k = a then b else Memory.readByte rest a

/-- `(a, v)` in front of the cells after `a`, in canonical form. -/
def Memory.putCell (a : Nat) (v : Byte) (rest : Memory) : Memory :=
  if v = Memory.unlisted then rest else (a, v) :: rest

/-- `M[a] <- v`, keeping the canonical form (R75). -/
def Memory.writeByte : Memory → Nat → Byte → Memory
  | [], a, v => Memory.putCell a v []
  | (k, b) :: rest, a, v =>
    if a < k then Memory.putCell a v ((k, b) :: rest)
    else if a = k then Memory.putCell a v rest
    else (k, b) :: Memory.writeByte rest a v

/-- The address of byte `i` of the word at `a`: "`addr + i` is taken modulo 2^64" (R74). -/
def byteAddr (a : Word) (i : Nat) : Nat := (a + BitVec.ofNat 64 i).toNat

/-- Byte `i` of a word, `v[8i+7:8i]` (R75). -/
def byteOf (v : Word) (i : Nat) : Byte := v.extractLsb' (8 * i) 8

/-- The 64-bit word at `a`, little-endian (R71, R74). -/
def Memory.readWord (m : Memory) (a : Word) : Word :=
  Memory.readByte m (byteAddr a 7) ++ Memory.readByte m (byteAddr a 6) ++ Memory.readByte m (byteAddr a 5) ++
  Memory.readByte m (byteAddr a 4) ++ Memory.readByte m (byteAddr a 3) ++ Memory.readByte m (byteAddr a 2) ++
  Memory.readByte m (byteAddr a 1) ++ Memory.readByte m (byteAddr a 0)

/-- `M[a+i] <- v[8i+7:8i]` for i in 0..7 (R71, R75). -/
def Memory.writeWord (m : Memory) (a v : Word) : Memory :=
  (List.range 8).foldl (fun m i => Memory.writeByte m (byteAddr a i) (byteOf v i)) m

/-- The memory after the word writes of a list, in its order (R83). -/
def Memory.writeWords (m : Memory) (ws : List (Word × Word)) : Memory :=
  ws.foldl (fun m w => Memory.writeWord m w.1 w.2) m

/-- The byte at `a` is one of the 8 bytes of the word at `w`. -/
def inWord (w : Word) (a : Nat) : Bool := (List.range 8).any fun i => byteAddr w i == a

/-- `Backed(addr)`: the 8-byte-aligned word that holds the address is memory (R11, R79; log 4). -/
def backedAt (p : Params) (a : Word) : Bool :=
  p.backed.any fun r => decide (r.first ≤ a.toNat / 8 * 8) && decide (a.toNat / 8 * 8 + 7 ≤ r.last)

/-! ## The event trace and the ports (R49, R112) -/

/-- One event at the end of the trace (R49). -/
def State.emit (s : State) (e : Event) : State := { s with trace := s.trace ++ [e] }

/-- One value returned on a port (R112; log 12). -/
def State.answer (s : State) (r : Reply) : State := { s with replies := s.replies ++ [r] }

/-! ## The CORE's memory accesses (R74, R75, R79, R83) -/

/-- `MemRead(addr, 8)`; an unbacked address has no step (R74, R79; log 5). -/
def memRead (a : Word) (s : State) : Except Fault (Word × State) :=
  if backedAt s.params a then
    let v := Memory.readWord s.mem a
    .ok (v, s.emit (.read a v))
  else .error (.unbackedAccess a)

/-- `MemWrite(addr, 8, v)`; an unbacked address has no step (R75, R79; log 5). -/
def memWrite (a v : Word) (s : State) : Except Fault State :=
  if backedAt s.params a then
    .ok (State.emit { s with mem := Memory.writeWord s.mem a v } (.write a v))
  else .error (.unbackedAccess a)

/-- The reads of a list of addresses, "one at a time, each complete before the next begins" (R83). -/
def readAll : List Word → State → Except Fault (List Word × State)
  | [], s => .ok ([], s)
  | a :: rest, s =>
    match memRead a s with
    | .error f => .error f
    | .ok (v, s1) =>
      match readAll rest s1 with
      | .error f => .error f
      | .ok (vs, s2) => .ok (v :: vs, s2)

/-- The writes of a list of addresses and words, "one at a time, each complete before the next begins" (R83). -/
def writeAll : List (Word × Word) → State → Except Fault State
  | [], s => .ok s
  | (a, v) :: rest, s =>
    match memWrite a v s with
    | .error f => .error f
    | .ok s1 => writeAll rest s1

/-! ## Error events (spec/60_exceptions.md R220 to R227) -/

/-- `raise`: the whole effect of an error event is to set its flag or field; no state is saved and control goes nowhere
(R220, R226). -/
def State.raise (s : State) : ErrorEvent → State
  | .configurationError => { s with cfg := .err }
  | .illCmd => { s with errIllCmd := true }
  | .reject => { s with errReject := true }

/-- What stands in the place of a return: HOST clears the sticky flags by writing ones (R202, R227). -/
def State.clearErr (s : State) (v : Word) : State :=
  { s with errIllCmd := s.errIllCmd && !v.getLsbD 0, errReject := s.errReject && !v.getLsbD 1 }

/-! ## Stream start, stream end, reset -/

/-- The stream ends: `STATE <- DONE`, `COMPLETE <- 1`, `emit EVT_DONE`, in this order, as the last actions of the command
(R169, R192, R230). -/
def State.finishStream (s : State) : State :=
  State.emit { s with phase := .done, complete := true } .evtDone

/-- What `START` zeroes before it looks at `TOTAL_FRAME` (R192, R262). -/
def State.clearStream (s : State) : State :=
  { s with xs := zeroHistories s.params, ys := zeroHistories s.params, nextFrame := 0, complete := false }

/-- Reset: every element of R20 takes its reset value; "No `EVT_DONE` is emitted. Sample memory is not changed" (R51,
R260). The requests still to come and the two output records are the outside's and stay (log 11). -/
def State.resetCore (s : State) : State :=
  { State.resetOf s.params with mem := s.mem, inbox := s.inbox, trace := s.trace, replies := s.replies }

end Sys2Proof.Machine
end

