-- ==== Sys2Proof/Machine/Flags.lean ====
section
/-! DEFINITION. The words in which HOST and SUP see the flags: `STATUS`, `ERR`, `CAP` (spec/10_state.md R34 to R36). -/

namespace Sys2Proof.Machine

/-- The `STATE` field's number (R24). -/
def Phase.code : Phase → BitVec 2
  | .idle => 0
  | .running => 1
  | .done => 2

/-- The `CFG` field's number (R27). -/
def Cfg.code : Cfg → BitVec 2
  | .unloaded => 0
  | .ok => 1
  | .err => 2

/-- `STATUS`: `CFG` in bits 4:3, `STATE` in 2:1, `COMPLETE` in bit 0, bits 63:5 zero (R34). -/
def statusWord (s : State) : Word :=
  (0 : BitVec 59) ++ s.cfg.code ++ s.phase.code ++ BitVec.ofBool s.complete

/-- `ERR` as read: "{62 zeros, ERR.REJECT, ERR.ILLCMD}" (R35, R200). -/
def errWord (s : State) : Word :=
  (0 : BitVec 62) ++ BitVec.ofBool s.errReject ++ BitVec.ofBool s.errIllCmd

/-- `CAP`: `BLOCK_LEN` in bits 63:32, `MAX_CH` in 31:16, `MAX_COEF` in 15:0 (R36). -/
def capWord (p : Params) : Word :=
  BitVec.ofNat 32 p.blockLen ++ BitVec.ofNat 16 p.maxCh ++ BitVec.ofNat 16 p.maxCoef

/-- The count test of `LOAD`: 0 to `MAX_COEF` as a signed number (R191, R221). -/
def countOk (p : Params) (n : Word) : Bool := decide (0 ≤ n.toInt) && decide (n.toInt ≤ p.maxCoef)

/-- When `START` is rejected (R192, R223). -/
def startRejected (s : State) : Bool :=
  decide (s.phase = .running) || decide (s.cfg ≠ .ok) || decide (s.numCh = 0) || decide (s.params.maxCh < s.numCh.toNat)

/-- When `FILT` on channel `c` is rejected (R140, R223). -/
def filtRejected (s : State) (c : Nat) : Bool :=
  decide (s.phase = .running) || decide (s.cfg ≠ .ok) || decide (s.params.maxCh ≤ c)

end Sys2Proof.Machine
end

