-- ==== Sys2Proof/Machine/Operands.lean ====
section
/-! DEFINITION. Every operand form: the address formulas of the buffers (spec/20_memory.md R76 to R78), the hardwired bits
of registers (spec/10_state.md R41, R44), the `SEL` fields and the `DATA` window (R44, R45), a register read (R200). -/

namespace Sys2Proof.Machine

/-! ## Addresses: `base + 8 * index`, modulo 2^64 (R76, R77, R78) -/

/-- The address of word `i` of a buffer. -/
def wordAddr (base : Word) (i : Nat) : Word := base + BitVec.ofNat 64 (8 * i)

/-- `SrcAddr(f, c)` (R76). -/
def srcAddr (s : State) (f c : Nat) : Word := wordAddr s.srcBase (f * s.numCh.toNat + c)

/-- `DstAddr(f, c)` (R76). -/
def dstAddr (s : State) (f c : Nat) : Word := wordAddr s.dstBase (f * s.numCh.toNat + c)

/-- `OutAddr(g, c)` (R76). -/
def outAddr (s : State) (g c : Nat) : Word := wordAddr s.outBase (g * s.numCh.toNat + c)

/-- `FinAddr(i)` (R77). -/
def finAddr (s : State) (i : Nat) : Word := wordAddr s.finBase i

/-- `FoutAddr(i)` (R77). -/
def foutAddr (s : State) (i : Nat) : Word := wordAddr s.foutBase i

/-- The (frame, channel) pairs of `n` frames of `ch` channels, "frame by frame, within a frame channel 0 first" (R164,
R166, R167). -/
def frameOrder (n ch : Nat) : List (Nat × Nat) :=
  (List.range n).flatMap fun f => (List.range ch).map fun c => (f, c)

/-! ## Hardwired bits (R41, R44) -/

/-- What a write of `v` stores in a base register: `{v[63:3], 0b000}` (R41). -/
def baseStored (v : Word) : Word := v &&& ~~~7

/-- What a write of `v` stores in `SEL` (R44). -/
def selStored (v : Word) : Word := v &&& 0x00000000FFFFFF03

/-! ## `SEL` and `DATA` (R44, R45) -/

/-- `SEL.BANK`, bits 1:0. -/
def selBank (s : State) : Nat := (s.sel.extractLsb' 0 2).toNat
/-- `SEL.CH`, bits 15:8. -/
def selCh (s : State) : Nat := (s.sel.extractLsb' 8 8).toNat
/-- `SEL.IDX`, bits 31:16. -/
def selIdx (s : State) : Nat := (s.sel.extractLsb' 16 16).toNat

/-- Entry `i` of a bank or of one channel's history file. -/
def entry (ws : List Word) (i : Nat) : Word := ws.getD i 0

/-- The history file of channel `c`. -/
def historyOf (files : List (List Word)) (c : Nat) : List Word := files.getD c []

/-- What a read of `DATA` returns: the word `SEL` selects, "and 0 for every other selection" (R45). -/
def dataWindow (s : State) : Word :=
  match selBank s with
  | 0 => if selIdx s < s.params.maxCoef then entry s.bankB (selIdx s) else 0
  | 1 => if selIdx s < s.params.maxCoef then entry s.bankA (selIdx s) else 0
  | 2 => if selCh s < s.params.maxCh ∧ selIdx s < s.params.hcap then entry (historyOf s.xs (selCh s)) (selIdx s) else 0
  | _ => if selCh s < s.params.maxCh ∧ selIdx s < s.params.hcap then entry (historyOf s.ys (selCh s)) (selIdx s) else 0

/-! ## A register read (R200) -/

/-- The value a HOST read of a register returns (R33 to R46, R200). -/
def readReg (s : State) : Reg → Word
  | .cmd => 0
  | .status => statusWord s
  | .err => errWord s
  | .cap => capWord s.params
  | .numB => s.numB
  | .numA => s.numA
  | .numCh => s.numCh
  | .totalFrame => s.totalFrame
  | .nextFrame => s.nextFrame
  | .srcBase => s.srcBase
  | .dstBase => s.dstBase
  | .outBase => s.outBase
  | .finBase => s.finBase
  | .foutBase => s.foutBase
  | .sel => s.sel
  | .data => dataWindow s
  | .reserved => 0

end Sys2Proof.Machine
end

