-- ==== Sys2Proof/Machine/Control.lean ====
section
/-! DEFINITION. `LOAD` and `START` (spec/42_config_control.md R190 to R192). -/

namespace Sys2Proof.Machine

/-- `LOAD`: check the counts and commit the FilterSpec (R191). -/
def execLoad (s : State) : Host.Outcome State Fault Refusal :=
  if s.phase = .running then .next (s.raise .reject)
  else if countOk s.params s.numB && countOk s.params s.numA then .next { s with cfg := .ok }
  else .next (s.raise .configurationError)

/-- `START`: stream start (R192). An empty stream is complete at once. -/
def execStart (s : State) : Host.Outcome State Fault Refusal :=
  if startRejected s then .next (s.raise .reject)
  else if s.totalFrame = 0 then .next s.clearStream.finishStream
  else .next { s.clearStream with phase := .running }

end Sys2Proof.Machine
end

