-- ==== Sys2Proof/Machine/Arith.lean ====
section
/-! DEFINITION. IEEE 754 binary64 multiplication and addition (spec/40_filter_engine.md R133, spec/00_scope.md R13): the
exact result as an integer multiple of a power of two, then one rounding to nearest, ties to even. -/

namespace Sys2Proof.Machine

/-- Bit 63, the sign (R13). -/
def f64Neg (w : Word) : Bool := w.msb

/-- Bits 62:0, the biased exponent over the fraction (R13). -/
def f64Bits (w : Word) : Nat := w.toNat % 2 ^ 63

/-- Bits 62:0 of an infinity: exponent all ones, fraction 0. -/
def f64InfBits : Nat := 0x7FF0000000000000

/-- A NaN: exponent all ones, fraction not 0. -/
def f64IsNaN (w : Word) : Bool := decide (f64InfBits < f64Bits w)

/-- An infinity of either sign. -/
def f64IsInf (w : Word) : Bool := decide (f64Bits w = f64InfBits)

/-- A zero of either sign. -/
def f64IsZero (w : Word) : Bool := decide (f64Bits w = 0)

/-- A finite number: zero, subnormal or normal. -/
def f64IsFinite (w : Word) : Bool := decide (f64Bits w < f64InfBits)

/-- The magnitude of a finite number in units of 2^-1074, the smallest subnormal: the fraction alone when the biased
exponent is 0, else the fraction with the hidden one, shifted. -/
def f64Mag (w : Word) : Nat :=
  let e := f64Bits w / 2 ^ 52
  let f := f64Bits w % 2 ^ 52
  if e = 0 then f else (2 ^ 52 + f) * 2 ^ (e - 1)

/-- The value of a finite number in units of 2^-1074. -/
def f64Value (w : Word) : Int := if f64Neg w then -(f64Mag w : Int) else f64Mag w

/-- `v / d` rounded to the nearest integer, ties to even. -/
def roundHalfEven (v d : Nat) : Nat :=
  let q := v / d
  let r := v % d
  if d < 2 * r ∨ (2 * r = d ∧ q % 2 = 1) then q + 1 else q

/-- Bits 62:0 of the binary64 number nearest to `v` units of 2^-(1074+u), ties to even, the exponent range unbounded
above. The last place kept is `k` binades above the smallest subnormal; a carry out of the fraction runs into the exponent. -/
def roundBits (u v : Nat) : Nat :=
  let k := Nat.log2 v - 52 - u
  k * 2 ^ 52 + roundHalfEven v (2 ^ (k + u))

/-- The word of this sign and these bits 62:0; beyond the largest finite number the infinity of that sign. -/
def f64Pack (neg : Bool) (bits : Nat) : Word :=
  BitVec.ofNat 64 ((if neg then 2 ^ 63 else 0) + min bits f64InfBits)

/-- A NaN made from free bits: exponent all ones, and a fraction that is not 0. Every NaN is made from its own bits. "which
NaN (sign, quiet bit, payload) is not specified" (R133, U6; log 9). -/
def f64NaNOf (free : Word) : Word :=
  let w := free ||| 0x7FF0000000000000
  if f64IsNaN w then w else w ||| 1

/-- `fmul64`: IEEE 754 binary64 multiplication (R133). A NaN result is a free value (log 8). -/
def fmul64 (a b : Word) : Word :=
  let neg := f64Neg a ^^ f64Neg b
  if f64IsNaN a || f64IsNaN b then f64NaNOf (Config.mulNaN a b)
  else if f64IsInf a || f64IsInf b then
    if f64IsZero a || f64IsZero b then f64NaNOf (Config.mulNaN a b) else f64Pack neg f64InfBits
  else f64Pack neg (roundBits 1074 (f64Mag a * f64Mag b))

/-- `fadd64`: IEEE 754 binary64 addition, a sum of zeros of opposite sign and an exact cancellation being `+0.0` (R133). A
NaN result is a free value (log 8). -/
def fadd64 (a b : Word) : Word :=
  if f64IsNaN a || f64IsNaN b then f64NaNOf (Config.addNaN a b)
  else if f64IsInf a then
    if f64IsInf b && (f64Neg a ^^ f64Neg b) then f64NaNOf (Config.addNaN a b) else a
  else if f64IsInf b then b
  else
    let sum := f64Value a + f64Value b
    if sum = 0 then f64Pack (f64Neg a && f64Neg b) 0
    else f64Pack (decide (sum < 0)) (roundBits 0 sum.natAbs)

end Sys2Proof.Machine
end

