-- ==== Sys2Proof/Machine/Engine.lean ====
section
/-! DEFINITION. The Filter Engine and `FILT` (spec/40_filter_engine.md R130 to R141). -/

namespace Sys2Proof.Machine

/-- `H = max(Mb - 1, 0)`, the history entries in use (R10, R131). -/
def historyLen (mb : Nat) : Nat := mb - 1

/-- The tap function joins history and block into one stream (R134): for `-H <= j <= N - 1`, `x[j]` when `j >= 0` and
`XS[c][H + j]` when `j < 0`. -/
def tap (h : Nat) (hist x : List Word) (j : Int) : Word :=
  if 0 ≤ j then entry x j.toNat else entry hist (h + j).toNat

/-- One output sample: `ACC` starts at `+0.0` and the terms are added for k = 0, 1, ..., Mb-1 (R135). -/
def convolveAt (b : List Word) (mb : Nat) (hist x : List Word) (n : Nat) : Word :=
  (List.range mb).foldl
    (fun acc k => fadd64 acc (fmul64 (entry b k) (tap (historyLen mb) hist x ((n : Int) - (k : Int))))) 0

/-- The output block `y[0..N-1]` (R135). -/
def convolve (b : List Word) (mb : Nat) (hist x : List Word) : List Word :=
  (List.range x.length).map (convolveAt b mb hist x)

/-- The history after the call: entry i is `tap(N - H + i)` for i in 0..H-1, "All H new values are formed before any is
written"; "Entries `H` to `HCAP - 1` are not written" (R137). -/
def nextHistory (mb : Nat) (hist x : List Word) : List Word :=
  (List.range (historyLen mb)).map
    (fun i : Nat => tap (historyLen mb) hist x ((x.length : Int) - (historyLen mb : Int) + (i : Int)))
  ++ hist.drop (historyLen mb)

/-- The tap count: `Mb = NUM_B` (R131). Under `CFG = OK` it is 0 to `MAX_COEF` (R130). -/
def tapCount (s : State) : Nat := s.numB.toNat

/-- `EngineCall(c, x, N)`: the output block, and the state with channel `c`'s history updated and nothing else changed
(R130, R138). It reads bank `B`, `NUM_B` and `XS[c]` only; no rule reads bank `A`, `NUM_A` or `YS` (R139). -/
def engineCall (c : Nat) (x : List Word) (s : State) : List Word × State :=
  let hist := historyOf s.xs c
  (convolve s.bankB (tapCount s) hist x, { s with xs := s.xs.set c (nextHistory (tapCount s) hist x) })

/-- The addresses `FILT` reads, ascending (R77, R141). -/
def filtReads (s : State) (n : Nat) : List Word := (List.range n).map (finAddr s)

/-- The words `FILT` writes, ascending (R77, R141). -/
def filtWrites (s : State) (n : Nat) (y : List Word) : List (Word × Word) :=
  (List.range n).map fun i => (foutAddr s i, entry y i)

/-- `FILT` once its tests have passed: N reads, one engine call, N writes (R140, R141). -/
def filtBlock (c n : Nat) (s : State) : Host.Outcome State Fault Refusal :=
  match readAll (filtReads s n) s with
  | .error f => .fault f
  | .ok (x, s1) =>
    let (y, s2) := engineCall c x s1
    match writeAll (filtWrites s n y) s2 with
    | .error f => .fault f
    | .ok s3 => .next s3

/-- `FILT c, N` (R140). "a rejected `FILT` with an oversize count is rejected, not UNPREDICTABLE" (R225). -/
def execFilt (c n : Nat) (s : State) : Host.Outcome State Fault Refusal :=
  if filtRejected s c then .next (s.raise .reject)
  else if s.params.blockLen < n then .refused (.countExceedsBlockLen n)
  else filtBlock c n s

end Sys2Proof.Machine
end

