-- ==== Sys2Proof/Machine/Scheduler.lean ====
section
/-! DEFINITION. The Block Scheduler and `PROC` (spec/41_block_scheduler.md R160 to R174). -/

namespace Sys2Proof.Machine

/-- Step 1: `N = min(N_req, TOTAL_FRAME - NEXT_FRAME)` (R163). -/
def effectiveLen (s : State) (nReq : Nat) : Nat := min nReq (s.totalFrame.toNat - s.nextFrame.toNat)

/-- The addresses step 2 reads: source frames `NEXT_FRAME` to `NEXT_FRAME + N - 1` (R164). -/
def procReads (s : State) (n : Nat) : List Word :=
  (frameOrder n s.numCh.toNat).map fun fc => srcAddr s (s.nextFrame.toNat + fc.1) fc.2

/-- Step 2: channel `c`'s contiguous block out of the words read frame by frame (R164). -/
def deinterleave (ch n c : Nat) (words : List Word) : List Word :=
  (List.range n).map fun f => entry words (f * ch + c)

/-- Step 3: one engine call per channel, "one after the other" (R165). -/
def engineCalls : List (Nat × List Word) → State → List (List Word) × State
  | [], s => ([], s)
  | (c, x) :: rest, s =>
    let (y, s1) := engineCall c x s
    let (ys, s2) := engineCalls rest s1
    (y :: ys, s2)

/-- The sample of frame `f`, channel `c` among the output blocks. -/
def outputSample (ys : List (List Word)) (f c : Nat) : Word := entry (historyOf ys c) f

/-- Step 4, first sink: the N frames at the same offset of the destination (R166). -/
def dstWrites (s : State) (n : Nat) (ys : List (List Word)) : List (Word × Word) :=
  (frameOrder n s.numCh.toNat).map fun fc => (dstAddr s (s.nextFrame.toNat + fc.1) fc.2, outputSample ys fc.1 fc.2)

/-- Steps 4 and 5, second sink: the transport block of `nReq` frames, the N output frames followed by silence (R167). -/
def outWrites (s : State) (nReq n : Nat) (ys : List (List Word)) : List (Word × Word) :=
  (frameOrder nReq s.numCh.toNat).map fun fc =>
    (outAddr s fc.1 fc.2, if fc.1 < n then outputSample ys fc.1 fc.2 else 0)

/-- Steps 6 and 7: advance, and end the stream when it is consumed (R168, R169). -/
def advance (n : Nat) (s : State) : State :=
  let s1 := { s with nextFrame := s.nextFrame + BitVec.ofNat 64 n }
  if s1.totalFrame ≤ s1.nextFrame then s1.finishStream else s1

/-- `PROC` in RUNNING: the seven steps (R160, R162). -/
def procRunning (nReq : Nat) (s : State) : Host.Outcome State Fault Refusal :=
  let ch := s.numCh.toNat
  let n := effectiveLen s nReq
  match readAll (procReads s n) s with
  | .error f => .fault f
  | .ok (words, s1) =>
    let (ys, s2) := engineCalls ((List.range ch).map fun c => (c, deinterleave ch n c words)) s1
    match writeAll (dstWrites s n ys ++ outWrites s nReq n ys) s2 with
    | .error f => .fault f
    | .ok s3 => .next (advance n s3)

/-- `PROC` in IDLE or DONE: `nReq` frames of silence to the transport block and nothing else (R170). -/
def procSilence (nReq : Nat) (s : State) : Host.Outcome State Fault Refusal :=
  match writeAll (outWrites s nReq 0 []) s with
  | .error f => .fault f
  | .ok s1 => .next s1

/-- `PROC N_req` (R160). "`PROC` is never rejected, in any state"; a count above `BLOCK_LEN` is UNPREDICTABLE (R161). -/
def execProc (nReq : Nat) (s : State) : Host.Outcome State Fault Refusal :=
  if s.params.blockLen < nReq then .refused (.countExceedsBlockLen nReq)
  else match s.phase with
    | .running => procRunning nReq s
    | .idle => procSilence nReq s
    | .done => procSilence nReq s

end Sys2Proof.Machine
end

