-- ==== Sys2Proof/Machine/Port.lean ====
section
/-! DEFINITION. The transactions of the ports: register writes, register reads, the supervisor's read, reset, and HOST's
own access to sample memory (spec/42_config_control.md R200 to R207, spec/70_reset_and_hazards.md R260). -/

namespace Sys2Proof.Machine

/-- A write of `CMD`: execute the command, or raise IllCmd (R33, R105, R222). -/
def writeCmd (w : Word) (s : State) : Host.Outcome State Fault Refusal :=
  match decode w with
  | .ok i => exec i s
  | .error _ => .next (s.raise .illCmd)

/-- A write of a frozen register: Reject in RUNNING, else the write (R203). -/
def writeFrozen (write : State → State) (s : State) : State :=
  if s.phase = .running then s.raise .reject else write s

/-- Bank word `i` replaced (R206). -/
def setEntry (ws : List Word) (i : Nat) (v : Word) : List Word := ws.set i v

/-- A write through the window (R206): Reject for the history banks, in RUNNING, or when there is no such word; else the
word is stored and the configuration voided. -/
def writeData (v : Word) (s : State) : State :=
  if 2 ≤ selBank s ∨ s.phase = .running ∨ s.params.maxCoef ≤ selIdx s then s.raise .reject
  else if selBank s = 0 then { s with bankB := setEntry s.bankB (selIdx s) v, cfg := .unloaded }
  else { s with bankA := setEntry s.bankA (selIdx s) v, cfg := .unloaded }

/-- A HOST write of `v` to a register (R201). -/
def writeReg (r : Reg) (v : Word) (s : State) : Host.Outcome State Fault Refusal :=
  match r with
  | .cmd => writeCmd v s
  | .err => .next (s.clearErr v)
  | .numB => .next (writeFrozen (fun s => { s with numB := v, cfg := .unloaded }) s)
  | .numA => .next (writeFrozen (fun s => { s with numA := v, cfg := .unloaded }) s)
  | .numCh => .next (writeFrozen (fun s => { s with numCh := v }) s)
  | .totalFrame => .next (writeFrozen (fun s => { s with totalFrame := v }) s)
  | .srcBase => .next (writeFrozen (fun s => { s with srcBase := baseStored v }) s)
  | .dstBase => .next (writeFrozen (fun s => { s with dstBase := baseStored v }) s)
  | .outBase => .next { s with outBase := baseStored v }
  | .finBase => .next { s with finBase := baseStored v }
  | .foutBase => .next { s with foutBase := baseStored v }
  | .sel => .next { s with sel := selStored v }
  | .data => .next (writeData v s)
  | .status => .next s
  | .cap => .next s
  | .nextFrame => .next s
  | .reserved => .next s

/-- HOST's own write of a byte of sample memory, between commands (R70, R87; log 10). -/
def hostMemWrite (a : Word) (b : Byte) (s : State) : Host.Outcome State Fault Refusal :=
  if backedAt s.params a then .next { s with mem := Memory.writeByte s.mem a.toNat b }
  else .fault (.unbackedAccess a)

/-- HOST's own read of a byte of sample memory (R70, R71; log 10). -/
def hostMemRead (a : Word) (s : State) : Host.Outcome State Fault Refusal :=
  if backedAt s.params a then .next (s.answer (.hostMemData a (Memory.readByte s.mem a.toNat)))
  else .fault (.unbackedAccess a)

/-- One transaction, whole (R5). -/
def transact (t : Transaction) (s : State) : Host.Outcome State Fault Refusal :=
  match t with
  | .hostRead idx => .next (s.answer (.hostData idx (readReg s (Reg.ofIndex idx))))
  | .hostWrite idx v => writeReg (Reg.ofIndex idx) v s
  | .supRead => .next (s.answer (.supData (statusWord s)))
  | .reset => .next s.resetCore
  | .hostMemWrite a b => hostMemWrite a b s
  | .hostMemRead a => hostMemRead a s

/-- The next transaction of the inbox; with none the CORE waits (R246, R261; log 14). -/
def takeTransaction (s : State) : Host.Outcome State Fault Refusal :=
  match s.inbox with
  | [] => .next s
  | t :: rest => transact t { s with inbox := rest }

/-- The request by which HOST issues the command word `w`: a write of `CMD`, index 0 (R33, R100). -/
def commandRequest (w : Nat) : Transaction := .hostWrite 0 (BitVec.ofNat 64 w)

end Sys2Proof.Machine
end

