-- ==== Sys2Proof/Machine/Step.lean ====
section
/-! DEFINITION. One step of the machine: one transaction (spec/00_scope.md R5). -/

namespace Sys2Proof.Machine

/-- One step: the CORE takes the next transaction and runs it to its end (R5). -/
def step (s : State) : Host.Outcome State Fault Refusal := takeTransaction s

/-- The state in which HOST's next transaction is a write of `CMD` with the word `w` (R33, R100). The machine fetches no
instruction (R89): a command reaches it as the next request of the inbox (log 2). -/
def State.withFetchWord (s : State) (_nbits w : Nat) : State := { s with inbox := commandRequest w :: s.inbox }

end Sys2Proof.Machine
end

