-- ==== Sys2Proof/Machine/Script.lean ====
section
/-! DEFINITION. The command script: what each line and each pseudo-instruction stands for (spec/30_encoding.md R113, R114). -/

namespace Sys2Proof.Machine

/-- The value of `SEL` that selects entry `idx` of a bank, for channel `ch` (R44, R114). -/
def selValue (bank ch idx : Nat) : Word := BitVec.ofNat 64 (idx * 2 ^ 16 + ch * 2 ^ 8 + bank)

/-- A write of a named register. -/
def writeRequest (r : Reg) (v : Word) : Transaction := .hostWrite r.index v

/-- A read of a named register. -/
def readRequest (r : Reg) : Transaction := .hostRead r.index

/-- The transactions of a script line, in order (R113, R114). -/
def lineTransactions : Line → List Transaction
  | .wr idx v => [.hostWrite idx v]
  | .rd idx => [.hostRead idx]
  | .command i => [writeRequest .cmd (encode i)]
  | .supRd => [.supRead]
  | .setB k x => [writeRequest .sel (selValue 0 0 k), writeRequest .data x]
  | .setA k x => [writeRequest .sel (selValue 1 0 k), writeRequest .data x]
  | .getB k => [writeRequest .sel (selValue 0 0 k), readRequest .data]
  | .getA k => [writeRequest .sel (selValue 1 0 k), readRequest .data]
  | .getX c i => [writeRequest .sel (selValue 2 c i), readRequest .data]
  | .getY c i => [writeRequest .sel (selValue 3 c i), readRequest .data]
  | .clrErr => [writeRequest .err 3]

/-- The transactions of a script, "executed top to bottom" (R113). -/
def scriptTransactions (lines : List Line) : List Transaction := lines.flatMap lineTransactions

end Sys2Proof.Machine
end

