-- ==== Sys2Proof/Safety.lean ====
section
/-! DEFINITION. What counts as a safe run: the invariants of spec/10_state.md R50, the preconditions under which a command
has a meaning (spec/93_implementation_defined.md U1 to U3), and the words in which statements about whole streams are said. -/

namespace Sys2Proof.Machine

/-! ## The invariants -/

/-- Bits 2:0 of a base register are 0 (R41). -/
def baseAligned (w : Word) : Prop := w &&& 7 = 0

/-- "0 <= NUM <= MAX_COEF", signed (R50 c). -/
def countInRange (p : Params) (n : Word) : Prop := 0 ≤ n.toInt ∧ n.toInt ≤ (p.maxCoef : Int)

/-- The invariants of R50 (a, by the types of the fields; b to e), with the shapes of the banks and files (R20), legal
parameters (R7 to R9), the counts under `CFG = OK` (R27, R130) and the canonical form of memory. -/
structure State.Inv (s : State) : Prop where
  params_legal  : s.params.Legal
  bankB_length  : s.bankB.length = s.params.maxCoef
  bankA_length  : s.bankA.length = s.params.maxCoef
  xs_length     : s.xs.length = s.params.maxCh
  xs_entries    : ∀ h ∈ s.xs, h.length = s.params.hcap
  ys_zero       : s.ys = zeroHistories s.params
  complete_iff  : s.complete = true ↔ s.phase = .done
  counts_ok     : s.cfg = .ok → countInRange s.params s.numB ∧ countInRange s.params s.numA
  running_cfg   : s.phase = .running → s.cfg = .ok
  running_numCh : s.phase = .running → 1 ≤ s.numCh.toNat ∧ s.numCh.toNat ≤ s.params.maxCh
  running_next  : s.phase = .running → s.nextFrame.toNat < s.totalFrame.toNat
  bases         : baseAligned s.srcBase ∧ baseAligned s.dstBase ∧ baseAligned s.outBase ∧
                  baseAligned s.finBase ∧ baseAligned s.foutBase
  sel_bits      : s.sel &&& ~~~0x00000000FFFFFF03 = 0
  mem_wf        : Memory.wf s.mem = true

/-! ## When a command has a meaning -/

/-- Every word of a list of addresses is backed (R79). -/
def AllBacked (p : Params) (as : List Word) : Prop := ∀ a ∈ as, backedAt p a = true

/-- A `FILT` that is neither rejected nor UNPREDICTABLE and whose blocks are backed (R140, R79). -/
structure FiltReady (s : State) (c n : Nat) : Prop where
  not_running : s.phase ≠ .running
  cfg_ok      : s.cfg = .ok
  channel     : c < s.params.maxCh
  count       : n ≤ s.params.blockLen
  inputs      : ∀ i, i < n → backedAt s.params (finAddr s i) = true
  outputs     : ∀ i, i < n → backedAt s.params (foutAddr s i) = true

/-- A `PROC` in RUNNING that is not UNPREDICTABLE and whose frames are backed (R160, R161, R79). -/
structure ProcReady (s : State) (nReq : Nat) : Prop where
  running : s.phase = .running
  count   : nReq ≤ s.params.blockLen
  source  : ∀ f c, f < effectiveLen s nReq → c < s.numCh.toNat →
              backedAt s.params (srcAddr s (s.nextFrame.toNat + f) c) = true
  dest    : ∀ f c, f < effectiveLen s nReq → c < s.numCh.toNat →
              backedAt s.params (dstAddr s (s.nextFrame.toNat + f) c) = true
  out     : ∀ g c, g < nReq → c < s.numCh.toNat → backedAt s.params (outAddr s g c) = true

/-- A `PROC` outside a stream that is not UNPREDICTABLE and whose transport block is backed (R170, R161, R79). -/
structure SilenceReady (s : State) (nReq : Nat) : Prop where
  not_running : s.phase ≠ .running
  count       : nReq ≤ s.params.blockLen
  out         : ∀ g c, g < nReq → c < s.numCh.toNat → backedAt s.params (outAddr s g c) = true

/-! ## Words for statements -/

/-- The words at a list of addresses. -/
def wordsAt (m : Memory) (as : List Word) : List Word := as.map (Memory.readWord m)

/-- The read events of a list of addresses (R74). -/
def readEvents (m : Memory) (as : List Word) : List Event := as.map fun a => .read a (Memory.readWord m a)

/-- The write events of a list of writes (R75). -/
def writeEvents (ws : List (Word × Word)) : List Event := ws.map fun w => .write w.1 w.2

/-- The event is a memory read. -/
def isRead : Event → Bool
  | .read _ _ => true
  | .write _ _ => false
  | .evtDone => false

/-- The event is a memory write. -/
def isWrite : Event → Bool
  | .read _ _ => false
  | .write _ _ => true
  | .evtDone => false

/-- Channel `c`'s `n` input samples of the stream, from frame `f0` on, as memory holds them (R76, R164). -/
def sourceBlock (s : State) (f0 n c : Nat) : List Word :=
  (List.range n).map fun f => Memory.readWord s.mem (srcAddr s (f0 + f) c)

/-- The output block the engine gives for channel `c` in a `PROC` that takes `n` frames (R165). -/
def outputBlock (s : State) (n c : Nat) : List Word :=
  convolve s.bankB (tapCount s) (historyOf s.xs c) (sourceBlock s s.nextFrame.toNat n c)

/-- No byte of the word at `a` is a byte of the word at `b`. -/
def WordsApart (a b : Word) : Prop := ∀ i j, i < 8 → j < 8 → byteAddr a i ≠ byteAddr b j

/-- The same signal filtered block by block: all output samples in order, and the last history (R142). -/
def filterBlocks (b : List Word) (mb : Nat) : List Word → List (List Word) → List Word × List Word
  | hist, [] => ([], hist)
  | hist, x :: rest =>
    let r := filterBlocks b mb (nextHistory mb hist x) rest
    (convolve b mb hist x ++ r.1, r.2)

/-- The transport's invocations, each with the block it hands over: write `OUT_BASE`, then `PROC` (R41, R160). -/
def playBlocks : List (Word × Nat) → State → Host.Outcome State Fault Refusal
  | [], s => .next s
  | (base, nReq) :: rest, s =>
    match exec (.proc nReq) { s with outBase := baseStored base } with
    | .next t => playBlocks rest t
    | .fault f => .fault f
    | .refused r => .refused r

/-- The outcome with its next state changed. -/
def mapNext (f : State → State) : Host.Outcome State Fault Refusal → Host.Outcome State Fault Refusal
  | .next s => .next (f s)
  | .fault r => .fault r
  | .refused r => .refused r

/-- The transaction is HOST's write of the word of this command. -/
def isCommand (t : Transaction) (i : Instr) : Prop := ∃ w, t = .hostWrite 0 w ∧ decode w = .ok i

end Sys2Proof.Machine
end

