-- ==== Sys2Proof/Certificates/Slice0/Obligations.lean ====
section
/-! DEFINITION. The statements for the provers, in the order of OBLIGATIONS.json: encoding, steps and reset, the four
commands, the engine, the registers, whole-machine rules, arithmetic. Rules are those of spec/. -/

open Sys2Proof Sys2Proof.Machine

/-! ## Encoding (spec/30_encoding.md) -/

/-- Decoding the word of a well-formed command gives the command back, whatever its operands (R101 to R105). -/
def Obligations.DecodeOfEncodeIsTheCommand : Prop :=
  ∀ i : Instr, i.wellFormed = true → decode (encode i) = .ok i

/-- A word that decodes is the word of what it decodes to: no command has two words (R102, R105, R110). -/
def Obligations.EncodeOfDecodeIsTheWord : Prop :=
  ∀ (w : Word) (i : Instr), decode w = .ok i → i.wellFormed = true ∧ encode i = w

/-- The decoder of R105 and the mask and match pairs of R104 agree on every word, and the pairs are disjoint. -/
def Obligations.DecoderFollowsTheOpcodeMap : Prop :=
  ∀ w : Word,
    (decode w = .ok .load ↔ w &&& 0xFFFFFFFFFFFFFFFF = 0x0100000000000000) ∧
    (decode w = .ok .start ↔ w &&& 0xFFFFFFFFFFFFFFFF = 0x0200000000000000) ∧
    ((∃ n, decode w = .ok (.proc n)) ↔ w &&& 0xFFFFFFFF00000000 = 0x0300000000000000) ∧
    ((∃ c n, decode w = .ok (.filt c n)) ↔ w &&& 0xFF00FFFF00000000 = 0x0400000000000000) ∧
    (∀ r ∈ opcodeMap, ∀ r' ∈ opcodeMap, r.covers w = true → r'.covers w = true → r = r')

/-- The operands are the unsigned fields `w[55:48]` and `w[31:0]` (R103). -/
def Obligations.OperandsAreUnsignedFields : Prop :=
  ∀ w : Word,
    (∀ n, decode w = .ok (.proc n) → n = w.toNat % 2 ^ 32) ∧
    (∀ c n, decode w = .ok (.filt c n) → c = w.toNat / 2 ^ 48 % 2 ^ 8 ∧ n = w.toNat % 2 ^ 32)

/-- Words of spec/95_test_vectors.md section 6, legal and illegal, decode as that table says. -/
def Obligations.ListedWordsDecodeAsListed : Prop :=
  decode 0x0100000000000000 = .ok .load ∧
  decode 0x0200000000000000 = .ok .start ∧
  decode 0x0300000000000100 = .ok (.proc 256) ∧
  decode 0x03000000FFFFFFFF = .ok (.proc 4294967295) ∧
  decode 0x0401000000000002 = .ok (.filt 1 2) ∧
  decode 0x04FF000000000001 = .ok (.filt 255 1) ∧
  (∀ w ∈ [(0x0000000000000000 : Word), 0x0500000000000000, 0xFF00000000000000, 0x0100000000000001, 0x0201000000000000,
      0x0301000000000000, 0x0300000100000000, 0x0400800000000001, 0x0000000000000003],
    ∀ i, decode w ≠ .ok i)

/-- Every word R110 lists as illegal, written to `CMD` in any state, sets `ERR.ILLCMD` and changes nothing else; no memory
access is made (the memory and the trace are those of before). -/
def Obligations.IllegalWordOnlyRaisesIllCmd : Prop :=
  ∀ (s : State) (w : Word) (rest : List Transaction), s.inbox = .hostWrite 0 w :: rest →
    ((w.toNat / 2 ^ 56 = 0 ∨ 5 ≤ w.toNat / 2 ^ 56) ∨
     w.toNat / 2 ^ 32 % 2 ^ 16 ≠ 0 ∨
     ((w.toNat / 2 ^ 56 = 1 ∨ w.toNat / 2 ^ 56 = 2) ∧ (w.toNat / 2 ^ 48 % 2 ^ 8 ≠ 0 ∨ w.toNat % 2 ^ 32 ≠ 0)) ∨
     (w.toNat / 2 ^ 56 = 3 ∧ w.toNat / 2 ^ 48 % 2 ^ 8 ≠ 0)) →
    step s = .next { s with inbox := rest, errIllCmd := true }

/-! ## Steps and reset -/

/-- When the next request is a write of `CMD` with a word that decodes to `i`, the step is `exec i` on the state without that
request (R5, R33, R105); `withFetchWord` places such a request (the model's own convention, log 2). -/
def Obligations.StepRunsTheDecodedCommand : Prop :=
  (∀ (s : State) (w : Word) (rest : List Transaction) (i : Instr),
    s.inbox = .hostWrite 0 w :: rest → decode w = .ok i → step s = exec i { s with inbox := rest }) ∧
  (∀ (s : State) (n : Nat) (i : Instr), decode (BitVec.ofNat 64 n) = .ok i → step (s.withFetchWord 64 n) = exec i s)

/-- With no request to take, a step changes nothing: the CORE waits (R246, R261). That waiting is a step of its own is the
model's choice (log 14). -/
def Obligations.CoreWaitsWithoutRequests : Prop :=
  ∀ s : State, s.inbox = [] → step s = .next s

/-- After reset every element of R20 is zero, whatever the parameters; `STATUS` and `ERR` read 0; reset leaves sample
memory (R51). -/
def Obligations.ResetLeavesEveryElementZero : Prop :=
  (∀ p : Params, let s := State.resetOf p
    s.bankB.length = p.maxCoef ∧ s.bankA.length = p.maxCoef ∧ (∀ k, entry s.bankB k = 0) ∧ (∀ k, entry s.bankA k = 0) ∧
    s.xs.length = p.maxCh ∧ s.ys.length = p.maxCh ∧
    (∀ c, c < p.maxCh → (historyOf s.xs c).length = p.maxCoef - 1 ∧ (historyOf s.ys c).length = p.maxCoef - 1) ∧
    (∀ c i, entry (historyOf s.xs c) i = 0) ∧ (∀ c i, entry (historyOf s.ys c) i = 0) ∧
    s.numB = 0 ∧ s.numA = 0 ∧ s.cfg = .unloaded ∧ s.numCh = 0 ∧ s.totalFrame = 0 ∧ s.nextFrame = 0 ∧
    s.phase = .idle ∧ s.complete = false ∧ s.errIllCmd = false ∧ s.errReject = false ∧
    s.srcBase = 0 ∧ s.dstBase = 0 ∧ s.outBase = 0 ∧ s.finBase = 0 ∧ s.foutBase = 0 ∧ s.sel = 0 ∧
    statusWord s = 0 ∧ errWord s = 0) ∧
  State.reset = State.resetOf Params.default ∧
  (∀ s : State, s.resetCore.mem = s.mem)

/-- The reset input between transactions, in any state: every element takes its reset value, sample memory stays, no event
is emitted (R260). That the requests still to come and the output records stay is the model's choice (log 11). -/
def Obligations.ResetInputRestoresResetState : Prop :=
  ∀ (s : State) (rest : List Transaction), s.inbox = .reset :: rest →
    step s = .next { State.resetOf s.params with mem := s.mem, inbox := rest, trace := s.trace, replies := s.replies }

/-- The state after reset meets the invariants of R50, for every legal value of the parameters. -/
def Obligations.ResetStateMeetsTheInvariants : Prop :=
  (∀ p : Params, p.Legal → (State.resetOf p).Inv) ∧ State.reset.Inv

/-- Every transaction that has a meaning keeps the invariants of R50 (a to e), the shapes of the banks and histories, and
the canonical form of memory, from every state that meets them; and no transaction changes the parameters. -/
def Obligations.EveryStepKeepsTheInvariants : Prop :=
  ∀ s t : State, s.Inv → step s = .next t → t.Inv ∧ t.params = s.params

/-! ## `LOAD` and `START` (spec/42_config_control.md) -/

/-- `LOAD` in every state: Reject in RUNNING, else `CFG` becomes OK when both counts are in 0 to `MAX_COEF` as signed
numbers and ERR when not, and nothing else changes (R191). -/
def Obligations.LoadChecksTheCountsAndCommits : Prop :=
  ∀ s : State,
    (s.phase = .running → exec .load s = .next { s with errReject := true }) ∧
    (s.phase ≠ .running →
      (0 ≤ s.numB.toInt ∧ s.numB.toInt ≤ s.params.maxCoef) ∧ (0 ≤ s.numA.toInt ∧ s.numA.toInt ≤ s.params.maxCoef) →
      exec .load s = .next { s with cfg := .ok }) ∧
    (s.phase ≠ .running →
      (s.numB.toInt < 0 ∨ (s.params.maxCoef : Int) < s.numB.toInt ∨
       s.numA.toInt < 0 ∨ (s.params.maxCoef : Int) < s.numA.toInt) →
      exec .load s = .next { s with cfg := .err })

/-- "The signed test of rule R191 accepts exactly the words 0 to `MAX_COEF`, the same set an unsigned test would accept"
(spec/95_test_vectors.md V34). -/
def Obligations.LoadAcceptsExactlyZeroToMaxCoef : Prop :=
  ∀ s : State, s.params.Legal → s.phase ≠ .running →
    ((∃ t, exec .load s = .next t ∧ t.cfg = .ok) ↔ s.numB.toNat ≤ s.params.maxCoef ∧ s.numA.toNat ≤ s.params.maxCoef)

/-- `START` in every state: Reject in its four cases; else all histories, `NEXT_FRAME` and `COMPLETE` are zeroed and the
stream runs, or is complete at once when it is empty; nothing else changes (R192, R262). -/
def Obligations.StartBeginsAStream : Prop :=
  ∀ s : State,
    ((s.phase = .running ∨ s.cfg ≠ .ok ∨ s.numCh = 0 ∨ s.params.maxCh < s.numCh.toNat) →
      exec .start s = .next { s with errReject := true }) ∧
    (s.phase ≠ .running → s.cfg = .ok → s.numCh ≠ 0 → s.numCh.toNat ≤ s.params.maxCh →
      (s.totalFrame ≠ 0 →
        exec .start s = .next { s with
          xs := List.replicate s.params.maxCh (List.replicate (s.params.maxCoef - 1) 0)
          ys := List.replicate s.params.maxCh (List.replicate (s.params.maxCoef - 1) 0)
          nextFrame := 0, complete := false, phase := .running }) ∧
      (s.totalFrame = 0 →
        exec .start s = .next { s with
          xs := List.replicate s.params.maxCh (List.replicate (s.params.maxCoef - 1) 0)
          ys := List.replicate s.params.maxCh (List.replicate (s.params.maxCoef - 1) 0)
          nextFrame := 0, complete := true, phase := .done, trace := s.trace ++ [.evtDone] }))

/-! ## `FILT` (spec/40_filter_engine.md) -/

/-- A `FILT` the state does not permit sets `ERR.REJECT` and does nothing else, whatever its count (R140, R223, R225). -/
def Obligations.FiltNotPermittedIsRejected : Prop :=
  ∀ (s : State) (c n : Nat), (s.phase = .running ∨ s.cfg ≠ .ok ∨ s.params.maxCh ≤ c) →
    exec (.filt c n) s = .next { s with errReject := true }

/-- A count above `BLOCK_LEN` has no meaning: for `PROC` in every state, for `FILT` once its Reject tests have passed (R15,
R140, R161). -/
def Obligations.OversizeCountHasNoMeaning : Prop :=
  (∀ (s : State) (n : Nat), s.params.blockLen < n → exec (.proc n) s = .refused (.countExceedsBlockLen n)) ∧
  (∀ (s : State) (c n : Nat), s.phase ≠ .running → s.cfg = .ok → c < s.params.maxCh → s.params.blockLen < n →
    exec (.filt c n) s = .refused (.countExceedsBlockLen n))

/-- `FILT` once permitted: the N reads at ascending addresses, then the N writes at ascending addresses, in the trace; the
history of channel `c` alone updated; the output words in memory; every byte outside them, and every other element of the
state, as before (R140, R141). Bits 8j+7:8j of an input or output word are the byte at its address plus j (R71). -/
def Obligations.FiltFiltersOneBlock : Prop :=
  ∀ (s : State) (c n : Nat), s.Inv → FiltReady s c n →
    let x := (List.range n).map fun i => Memory.readWord s.mem (finAddr s i)
    let y := convolve s.bankB s.numB.toNat (historyOf s.xs c) x
    ∃ m : Memory,
      exec (.filt c n) s = .next { s with
        xs := s.xs.set c (nextHistory s.numB.toNat (historyOf s.xs c) x)
        mem := m
        trace := s.trace ++ ((List.range n).map fun i => Event.read (finAddr s i) (Memory.readWord s.mem (finAddr s i)))
                         ++ ((List.range n).map fun i => Event.write (foutAddr s i) (entry y i)) } ∧
      (∀ i, i < n → Memory.readWord m (foutAddr s i) = entry y i) ∧
      (∀ i j, i < n → j < 8 →
        Memory.readByte s.mem (((finAddr s i).toNat + j) % 2 ^ 64) = BitVec.ofNat 8 ((entry x i).toNat / 2 ^ (8 * j)) ∧
        Memory.readByte m (((foutAddr s i).toNat + j) % 2 ^ 64) = BitVec.ofNat 8 ((entry y i).toNat / 2 ^ (8 * j))) ∧
      (∀ a, (∀ i, i < n → inWord (foutAddr s i) a = false) → Memory.readByte m a = Memory.readByte s.mem a)

/-! ## The engine (spec/40_filter_engine.md) -/

/-- One output sample is the sum of R135: any sequence of accumulator values that starts at `+0.0` and adds
`B[k] * x[n-k]` at step k, the sample taken from the block when `k <= n` and from position `(Mb-1) + (n-k)` of the history
when not (R134), ends after Mb steps in the output sample. -/
def Obligations.OutputSampleIsTheSumOfProducts : Prop :=
  ∀ (b : List Word) (mb : Nat) (hist x : List Word) (n : Nat) (acc : Nat → Word), n < x.length →
    acc 0 = 0 →
    (∀ k, k < mb →
      acc (k + 1) = fadd64 (acc k) (fmul64 (entry b k) (if k ≤ n then entry x (n - k) else entry hist (mb - 1 + n - k)))) →
    entry (convolve b mb hist x) n = acc mb

/-- After a call on a block of any length the history in use holds the last `Mb - 1` samples of (old history, block), in
order, and the entries not in use are as before (R137). -/
def Obligations.HistoryHoldsTheLastInputs : Prop :=
  ∀ (mb : Nat) (hist x : List Word), mb - 1 ≤ hist.length →
    (nextHistory mb hist x).take (mb - 1) = (hist.take (mb - 1) ++ x).drop x.length ∧
    (nextHistory mb hist x).drop (mb - 1) = hist.drop (mb - 1)

/-- Continuity, "the central correctness law": a signal filtered in one call equals the same signal filtered in any partition
into consecutive blocks, empty blocks and blocks shorter than the history included; outputs and history (R142, which the spec
derives from R134, R135 and R137). For output words that are NaNs it rests on the model's choice of log 8. -/
def Obligations.ContinuityOverAnyPartition : Prop :=
  ∀ (b : List Word) (mb : Nat) (hist : List Word) (blocks : List (List Word)), mb - 1 ≤ hist.length →
    filterBlocks b mb hist blocks = (convolve b mb hist blocks.flatten, nextHistory mb hist blocks.flatten)

/-- State isolation: equal coefficients, histories and blocks give equal outputs and histories, whichever the channels; a
`FILT` on one channel never changes another's history; a `PROC` never changes that of a channel from `NUM_CH` on (R144,
R50 f, R165). For output words that are NaNs it rests on the model's choice of log 8. -/
def Obligations.ChannelsAreIsolated : Prop :=
  (∀ (s s' : State) (c c' : Nat) (x : List Word), s.bankB = s'.bankB → s.numB = s'.numB →
    historyOf s.xs c = historyOf s'.xs c' → c < s.xs.length → c' < s'.xs.length →
    (engineCall c x s).1 = (engineCall c' x s').1 ∧
    historyOf (engineCall c x s).2.xs c = historyOf (engineCall c' x s').2.xs c') ∧
  (∀ (s t : State) (c c' n : Nat), exec (.filt c n) s = .next t → c' ≠ c → historyOf t.xs c' = historyOf s.xs c') ∧
  (∀ (s t : State) (c n : Nat), exec (.proc n) s = .next t → s.numCh.toNat ≤ c → historyOf t.xs c = historyOf s.xs c)

/-- The feedback path is not implemented: what `PROC` and `FILT` do does not depend on bank `A`, `NUM_A` or the `YS` files,
and leaves them as they are (R139). -/
def Obligations.FeedbackFieldsAreNeverRead : Prop :=
  ∀ (i : Instr) (s : State) (a : List Word) (na : Word) (y : List (List Word)),
    ((∃ n, i = .proc n) ∨ (∃ c n, i = .filt c n)) →
    exec i { s with bankA := a, numA := na, ys := y } =
      mapNext (fun t => { t with bankA := a, numA := na, ys := y }) (exec i s)

/-- Filters of R145 on finite inputs other than `-0.0`, in any partition: identity gives the input; pure delay from a zero
history gives the input one sample late, `+0.0` first; the moving average of [1, 1, 1, 1] as blocks of 1 then 3, or as one
block of 4, is [0.5, 1.0, 1.0, 1.0]. -/
def Obligations.NamedFiltersGiveTheirOutputs : Prop :=
  (∀ (hist : List Word) (blocks : List (List Word)),
    (∀ w ∈ blocks.flatten, f64IsFinite w = true ∧ w ≠ 0x8000000000000000) →
    (filterBlocks [0x3FF0000000000000] 1 hist blocks).1 = blocks.flatten) ∧
  (∀ (hist : List Word) (blocks : List (List Word)),
    (∀ w ∈ blocks.flatten, f64IsFinite w = true ∧ w ≠ 0x8000000000000000) →
    (filterBlocks [0, 0x3FF0000000000000] 2 (0 :: hist) blocks).1 = (0 :: blocks.flatten).take blocks.flatten.length) ∧
  (∀ hist : List Word,
    (filterBlocks [0x3FE0000000000000, 0x3FE0000000000000] 2 (0 :: hist)
      [[0x3FF0000000000000], [0x3FF0000000000000, 0x3FF0000000000000, 0x3FF0000000000000]]).1 =
      [0x3FE0000000000000, 0x3FF0000000000000, 0x3FF0000000000000, 0x3FF0000000000000] ∧
    (filterBlocks [0x3FE0000000000000, 0x3FE0000000000000] 2 (0 :: hist)
      [[0x3FF0000000000000, 0x3FF0000000000000, 0x3FF0000000000000, 0x3FF0000000000000]]).1 =
      [0x3FE0000000000000, 0x3FF0000000000000, 0x3FF0000000000000, 0x3FF0000000000000])

/-! ## `PROC` (spec/41_block_scheduler.md) -/

/-- The addresses of R76 and R77, as numbers: base plus 8 times the index, modulo 2^64 (R78). -/
def Obligations.AddressesAreBasePlusEightTimesIndex : Prop :=
  ∀ (s : State) (f c i : Nat),
    (srcAddr s f c).toNat = (s.srcBase.toNat + 8 * (f * s.numCh.toNat + c)) % 2 ^ 64 ∧
    (dstAddr s f c).toNat = (s.dstBase.toNat + 8 * (f * s.numCh.toNat + c)) % 2 ^ 64 ∧
    (outAddr s f c).toNat = (s.outBase.toNat + 8 * (f * s.numCh.toNat + c)) % 2 ^ 64 ∧
    (finAddr s i).toNat = (s.finBase.toNat + 8 * i) % 2 ^ 64 ∧
    (foutAddr s i).toNat = (s.foutBase.toNat + 8 * i) % 2 ^ 64

/-- `PROC` in RUNNING, its frames backed: N = min(N_req, TOTAL_FRAME - NEXT_FRAME) source frames read in ascending order;
one engine call per channel below `NUM_CH`, the other histories as before; the destination writes, then the transport
writes, in ascending order, which is all that changes in memory: every byte outside the words written reads as before;
`NEXT_FRAME` N further; and exactly when that reaches `TOTAL_FRAME` the stream ends, `EVT_DONE` last. Nothing else changes
(R163, R164, R165, R168, R169). -/
def Obligations.ProcAdvancesTheStream : Prop :=
  ∀ (s : State) (nReq : Nat), s.Inv → ProcReady s nReq →
    let ch := s.numCh.toNat
    let n := min nReq (s.totalFrame.toNat - s.nextFrame.toNat)
    let ends := s.nextFrame.toNat + n = s.totalFrame.toNat
    let src := fun fc : Nat × Nat => srcAddr s (s.nextFrame.toNat + fc.1) fc.2
    let dst := fun fc : Nat × Nat => dstAddr s (s.nextFrame.toNat + fc.1) fc.2
    let out := fun fc : Nat × Nat => outAddr s fc.1 fc.2
    let writes := ((frameOrder n ch).map fun fc => (dst fc, entry (outputBlock s n fc.2) fc.1))
      ++ ((frameOrder nReq ch).map fun fc => (out fc, if fc.1 < n then entry (outputBlock s n fc.2) fc.1 else 0))
    let m := Memory.writeWords s.mem writes
    ∃ xs : List (List Word),
      exec (.proc nReq) s = .next { s with
        xs := xs
        mem := m
        nextFrame := s.nextFrame + BitVec.ofNat 64 n
        phase := if ends then .done else .running
        complete := decide ends
        trace := s.trace
          ++ ((frameOrder n ch).map fun fc => Event.read (src fc) (Memory.readWord s.mem (src fc)))
          ++ (writes.map fun w => Event.write w.1 w.2)
          ++ (if ends then [Event.evtDone] else []) } ∧
      (s.nextFrame + BitVec.ofNat 64 n).toNat = s.nextFrame.toNat + n ∧
      xs.length = s.xs.length ∧
      (∀ c, c < ch → historyOf xs c =
        nextHistory s.numB.toNat (historyOf s.xs c) (sourceBlock s s.nextFrame.toNat n c)) ∧
      (∀ c, ch ≤ c → historyOf xs c = historyOf s.xs c) ∧
      (∀ a, (∀ f c, f < n → c < ch → inWord (dst (f, c)) a = false) →
        (∀ g c, g < nReq → c < ch → inWord (out (g, c)) a = false) →
        Memory.readByte m a = Memory.readByte s.mem a)

/-- `PROC` in RUNNING: afterwards the transport block holds the N filtered frames, then silence up to `N_req` frames, every
channel of it (R167). -/
def Obligations.ProcFillsTheTransportBlock : Prop :=
  ∀ (s : State) (nReq : Nat), s.Inv → ProcReady s nReq →
    let n := min nReq (s.totalFrame.toNat - s.nextFrame.toNat)
    ∃ t, exec (.proc nReq) s = .next t ∧
      ∀ g c, g < nReq → c < s.numCh.toNat →
        Memory.readWord t.mem (outAddr s g c) = if g < n then entry (outputBlock s n c) g else 0

/-- `PROC` in RUNNING: a destination word that no word of the transport block touches holds the filtered sample of its frame
and channel, and every byte outside the N destination frames and the transport block is as before (R166, R284). -/
def Obligations.ProcWritesTheDestinationFrames : Prop :=
  ∀ (s : State) (nReq : Nat), s.Inv → ProcReady s nReq →
    let n := min nReq (s.totalFrame.toNat - s.nextFrame.toNat)
    ∃ t, exec (.proc nReq) s = .next t ∧
      (∀ f c, f < n → c < s.numCh.toNat →
        (∀ g c', g < nReq → c' < s.numCh.toNat →
          WordsApart (outAddr s g c') (dstAddr s (s.nextFrame.toNat + f) c)) →
        Memory.readWord t.mem (dstAddr s (s.nextFrame.toNat + f) c) = entry (outputBlock s n c) f) ∧
      (∀ a,
        (∀ f c, f < n → c < s.numCh.toNat → inWord (dstAddr s (s.nextFrame.toNat + f) c) a = false) →
        (∀ g c, g < nReq → c < s.numCh.toNat → inWord (outAddr s g c) a = false) →
        Memory.readByte t.mem a = Memory.readByte s.mem a)

/-- `PROC` in IDLE or DONE, any `NUM_CH`: `N_req * C` words of `+0.0` to the transport block, in ascending order; no read,
no other byte of memory, no other element of the state changes, no event is emitted (R170). -/
def Obligations.ProcOutsideAStreamWritesSilence : Prop :=
  ∀ (s : State) (nReq : Nat), s.Inv → SilenceReady s nReq →
    ∃ m : Memory,
      exec (.proc nReq) s = .next { s with
        mem := m
        trace := s.trace ++ ((frameOrder nReq s.numCh.toNat).map fun fc => Event.write (outAddr s fc.1 fc.2) 0) } ∧
      (∀ g c, g < nReq → c < s.numCh.toNat → Memory.readWord m (outAddr s g c) = 0) ∧
      (∀ a, (∀ g c, g < nReq → c < s.numCh.toNat → inWord (outAddr s g c) a = false) →
        Memory.readByte m a = Memory.readByte s.mem a)

/-- `PROC 0` does nothing at all, in every state that meets the invariants (R174, which the spec derives from R160). -/
def Obligations.ProcOfNoFramesDoesNothing : Prop :=
  ∀ s : State, s.Inv → exec (.proc 0) s = .next s

/-- Stream equivalence: from the state an accepted `START` of a non-empty stream leaves, whatever the transport's
invocations (each at most `BLOCK_LEN` frames, into whatever block it hands over, their sum at least `TOTAL_FRAME`), the
stream completes and the destination region holds, for each channel, the block the engine gives for that channel's whole
signal in one call from a zeroed history (R176). The regions are backed and do not wrap onto themselves (R78); source and
destination are the same region or apart, and the transport blocks are apart from both (R84, R284). For output words that are
NaNs it rests on the model's choice of log 8. -/
def Obligations.StreamEqualsOneEngineCall : Prop :=
  ∀ (s : State) (calls : List (Word × Nat)), s.Inv → s.phase = .running → s.nextFrame = 0 →
    s.xs = zeroHistories s.params →
    let ch := s.numCh.toNat
    let total := s.totalFrame.toNat
    let out := fun (base : Word) (g c : Nat) => wordAddr (baseStored base) (g * ch + c)
    8 * (total * ch) ≤ 2 ^ 64 →
    (∀ f c, f < total → c < ch → backedAt s.params (srcAddr s f c) = true ∧ backedAt s.params (dstAddr s f c) = true) →
    (∀ call ∈ calls, call.2 ≤ s.params.blockLen ∧
      ∀ g c, g < call.2 → c < ch → backedAt s.params (out call.1 g c) = true) →
    (s.srcBase = s.dstBase ∨
      ∀ f c f' c', f < total → c < ch → f' < total → c' < ch → WordsApart (dstAddr s f c) (srcAddr s f' c')) →
    (∀ call ∈ calls, ∀ g c f c', g < call.2 → c < ch → f < total → c' < ch →
      WordsApart (out call.1 g c) (srcAddr s f c') ∧ WordsApart (out call.1 g c) (dstAddr s f c')) →
    total ≤ (calls.map Prod.snd).sum →
    ∃ t, playBlocks calls s = .next t ∧ t.phase = .done ∧ t.complete = true ∧
      ∀ f c, f < total → c < ch →
        Memory.readWord t.mem (dstAddr s f c) =
          entry (convolve s.bankB s.numB.toNat (List.replicate (s.params.maxCoef - 1) 0) (sourceBlock s 0 total c)) f

/-- An access to an unbacked address has no step: a `FILT` that is not rejected, a `PROC` in RUNNING and a `PROC` in IDLE or
DONE stop when any word they would read or write is unbacked, with the fault that names one of those words, itself unbacked
(R79; that the model stops with a fault is log 5). -/
def Obligations.UnbackedAccessStops : Prop :=
  (∀ (s : State) (c n : Nat), s.phase ≠ .running → s.cfg = .ok → c < s.params.maxCh → n ≤ s.params.blockLen →
    let accessed := fun a : Word => ∃ i, i < n ∧ (a = finAddr s i ∨ a = foutAddr s i)
    (∃ a, accessed a ∧ backedAt s.params a = false) →
    ∃ a, accessed a ∧ backedAt s.params a = false ∧ exec (.filt c n) s = .fault (.unbackedAccess a)) ∧
  (∀ (s : State) (nReq : Nat), s.phase = .running → nReq ≤ s.params.blockLen →
    let n := min nReq (s.totalFrame.toNat - s.nextFrame.toNat)
    let accessed := fun a : Word =>
      (∃ f c, f < n ∧ c < s.numCh.toNat ∧
        (a = srcAddr s (s.nextFrame.toNat + f) c ∨ a = dstAddr s (s.nextFrame.toNat + f) c)) ∨
      (∃ g c, g < nReq ∧ c < s.numCh.toNat ∧ a = outAddr s g c)
    (∃ a, accessed a ∧ backedAt s.params a = false) →
    ∃ a, accessed a ∧ backedAt s.params a = false ∧ exec (.proc nReq) s = .fault (.unbackedAccess a)) ∧
  (∀ (s : State) (nReq : Nat), s.phase ≠ .running → nReq ≤ s.params.blockLen →
    let accessed := fun a : Word => ∃ g c, g < nReq ∧ c < s.numCh.toNat ∧ a = outAddr s g c
    (∃ a, accessed a ∧ backedAt s.params a = false) →
    ∃ a, accessed a ∧ backedAt s.params a = false ∧ exec (.proc nReq) s = .fault (.unbackedAccess a))

/-! ## Registers (spec/10_state.md, spec/42_config_control.md) -/

/-- A HOST read of any index in any state returns the register and changes no state; only the port's answer is recorded
(R200). -/
def Obligations.RegisterReadHasNoSideEffect : Prop :=
  ∀ (s : State) (idx : BitVec 5) (rest : List Transaction), s.inbox = .hostRead idx :: rest →
    ∃ v, step s = .next { s with inbox := rest, replies := s.replies ++ [.hostData idx v] } ∧
      (idx = 0 → v = 0) ∧ (idx = 1 → v = statusWord s) ∧
      (idx = 2 → v = (0 : BitVec 62) ++ BitVec.ofBool s.errReject ++ BitVec.ofBool s.errIllCmd) ∧
      (idx = 3 → v = capWord s.params) ∧ (idx = 4 → v = s.numB) ∧ (idx = 5 → v = s.numA) ∧ (idx = 6 → v = s.numCh) ∧
      (idx = 7 → v = s.totalFrame) ∧ (idx = 8 → v = s.nextFrame) ∧ (idx = 9 → v = s.srcBase) ∧
      (idx = 10 → v = s.dstBase) ∧ (idx = 11 → v = s.outBase) ∧ (idx = 12 → v = s.finBase) ∧
      (idx = 13 → v = s.foutBase) ∧ (idx = 14 → v = s.sel) ∧ (idx = 15 → v = dataWindow s) ∧ (16 ≤ idx.toNat → v = 0)

/-- `STATUS` is `COMPLETE` + 2 `STATE` + 8 `CFG`, and in a state that meets the invariants it takes only the seven values
R34 lists. -/
def Obligations.StatusTakesSevenValues : Prop :=
  (∀ s : State, (statusWord s).toNat =
    (if s.complete then 1 else 0) + 2 * (match s.phase with | .idle => 0 | .running => 1 | .done => 2) +
    8 * (match s.cfg with | .unloaded => 0 | .ok => 1 | .err => 2)) ∧
  (∀ s : State, s.Inv → statusWord s ∈ [(0x00 : Word), 0x08, 0x10, 0x0A, 0x05, 0x0D, 0x15])

/-- `CAP` shows the parameters in its three fields for every legal value of them, reads `0x0000_0400_0002_0100` with the
defaults, and a write of it is ignored (R36). -/
def Obligations.CapShowsTheParameters : Prop :=
  (∀ p : Params, p.Legal →
    (capWord p).toNat % 2 ^ 16 = p.maxCoef ∧ (capWord p).toNat / 2 ^ 16 % 2 ^ 16 = p.maxCh ∧
    (capWord p).toNat / 2 ^ 32 = p.blockLen) ∧
  capWord Params.default = 0x0000040000020100 ∧
  (∀ (s : State) (v : Word) (rest : List Transaction), s.inbox = .hostWrite 3 v :: rest →
    step s = .next { s with inbox := rest })

/-- A write of `ERR` clears the flags whose bits are 1 and changes nothing else (R202). -/
def Obligations.WriteOfErrClearsByOnes : Prop :=
  ∀ (s : State) (v : Word) (rest : List Transaction), s.inbox = .hostWrite 2 v :: rest →
    step s = .next { s with
      inbox := rest
      errIllCmd := if v.toNat % 2 = 1 then false else s.errIllCmd
      errReject := if v.toNat / 2 % 2 = 1 then false else s.errReject }

/-- A write of a frozen register: Reject and nothing else in RUNNING; else the value is stored, a count write also voids
`CFG`, and a base drops bits 2:0 (R203). -/
def Obligations.FrozenRegisterWrites : Prop :=
  ∀ (s : State) (idx : BitVec 5) (v : Word) (rest : List Transaction), s.inbox = .hostWrite idx v :: rest →
    (s.phase = .running → idx ∈ [(4 : BitVec 5), 5, 6, 7, 9, 10] →
      step s = .next { s with inbox := rest, errReject := true }) ∧
    (s.phase ≠ .running →
      (idx = 4 → step s = .next { s with inbox := rest, numB := v, cfg := .unloaded }) ∧
      (idx = 5 → step s = .next { s with inbox := rest, numA := v, cfg := .unloaded }) ∧
      (idx = 6 → step s = .next { s with inbox := rest, numCh := v }) ∧
      (idx = 7 → step s = .next { s with inbox := rest, totalFrame := v }) ∧
      (idx = 9 → step s = .next { s with inbox := rest, srcBase := (v >>> 3) <<< 3 }) ∧
      (idx = 10 → step s = .next { s with inbox := rest, dstBase := (v >>> 3) <<< 3 }))

/-- A write of `OUT_BASE`, `FIN_BASE`, `FOUT_BASE` or `SEL` is performed in every state and has no other effect (R204). -/
def Obligations.UnfrozenRegisterWrites : Prop :=
  ∀ (s : State) (idx : BitVec 5) (v : Word) (rest : List Transaction), s.inbox = .hostWrite idx v :: rest →
    (idx = 11 → step s = .next { s with inbox := rest, outBase := (v >>> 3) <<< 3 }) ∧
    (idx = 12 → step s = .next { s with inbox := rest, finBase := (v >>> 3) <<< 3 }) ∧
    (idx = 13 → step s = .next { s with inbox := rest, foutBase := (v >>> 3) <<< 3 }) ∧
    (idx = 14 → step s = .next { s with inbox := rest, sel := v &&& 0x00000000FFFFFF03 })

/-- A write to `STATUS`, `CAP`, `NEXT_FRAME` or a reserved index changes no state and sets no flag (R205). -/
def Obligations.ReadOnlyAndReservedWritesAreIgnored : Prop :=
  ∀ (s : State) (idx : BitVec 5) (v : Word) (rest : List Transaction), s.inbox = .hostWrite idx v :: rest →
    (idx = 1 ∨ idx = 3 ∨ idx = 8 ∨ 16 ≤ idx.toNat) → step s = .next { s with inbox := rest }

/-- What `DATA` reads for each selection of `SEL`, and 0 for every other (R44, R45). -/
def Obligations.DataWindowShowsTheSelectedWord : Prop :=
  ∀ (s : State),
    let bank := s.sel.toNat % 4
    let ch := s.sel.toNat / 2 ^ 8 % 2 ^ 8
    let idx := s.sel.toNat / 2 ^ 16 % 2 ^ 16
    (bank = 0 → idx < s.params.maxCoef → dataWindow s = entry s.bankB idx) ∧
    (bank = 1 → idx < s.params.maxCoef → dataWindow s = entry s.bankA idx) ∧
    (bank = 2 → ch < s.params.maxCh → idx < s.params.maxCoef - 1 → dataWindow s = entry (historyOf s.xs ch) idx) ∧
    (bank = 3 → ch < s.params.maxCh → idx < s.params.maxCoef - 1 → dataWindow s = entry (historyOf s.ys ch) idx) ∧
    (bank < 2 → s.params.maxCoef ≤ idx → dataWindow s = 0) ∧
    (2 ≤ bank → (s.params.maxCh ≤ ch ∨ s.params.maxCoef - 1 ≤ idx) → dataWindow s = 0)

/-- A write through the window: Reject and nothing else for a history bank, in RUNNING, or past the bank; else word `IDX` of
the bank takes the value, the others stay, and `CFG` is voided (R206). -/
def Obligations.DataWindowWrites : Prop :=
  ∀ (s : State) (v : Word) (rest : List Transaction), s.inbox = .hostWrite 15 v :: rest →
    let bank := s.sel.toNat % 4
    let idx := s.sel.toNat / 2 ^ 16 % 2 ^ 16
    ((2 ≤ bank ∨ s.phase = .running ∨ s.params.maxCoef ≤ idx) →
      step s = .next { s with inbox := rest, errReject := true }) ∧
    (s.phase ≠ .running → idx < s.params.maxCoef → s.bankB.length = s.params.maxCoef →
      s.bankA.length = s.params.maxCoef →
      (bank = 0 → ∃ b, step s = .next { s with inbox := rest, bankB := b, cfg := .unloaded } ∧
        b.length = s.bankB.length ∧ ∀ k, entry b k = if k = idx then v else entry s.bankB k) ∧
      (bank = 1 → ∃ a, step s = .next { s with inbox := rest, bankA := a, cfg := .unloaded } ∧
        a.length = s.bankA.length ∧ ∀ k, entry a k = if k = idx then v else entry s.bankA k))

/-- The supervisor's read returns `STATUS` and changes no state (R207). -/
def Obligations.SupervisorReadsStatus : Prop :=
  ∀ (s : State) (rest : List Transaction), s.inbox = .supRead :: rest →
    step s = .next { s with inbox := rest, replies := s.replies ++ [.supData (statusWord s)] }

/-- The script lines `SETB k, x` then `GETB k`, and `SETA k, x` then `GETA k`, outside a stream: after their four
transactions word k of the bank is x, the read returned x, and `CFG` is UNLOADED (R114, R206, R45). -/
def Obligations.ScriptSetThenGetReturnsTheWord : Prop :=
  ∀ (s : State) (k : Nat) (x : Word) (rest : List Transaction), s.Inv → s.phase ≠ .running → k < s.params.maxCoef →
    (s.inbox = scriptTransactions [.setB k x, .getB k] ++ rest →
      ∃ t : State, Host.Core.run Sys2Proof.core 4 s = .next t ∧
        entry t.bankB k = x ∧ t.cfg = .unloaded ∧ t.inbox = rest ∧ t.replies = s.replies ++ [.hostData 15 x]) ∧
    (s.inbox = scriptTransactions [.setA k x, .getA k] ++ rest →
      ∃ t : State, Host.Core.run Sys2Proof.core 4 s = .next t ∧
        entry t.bankA k = x ∧ t.cfg = .unloaded ∧ t.inbox = rest ∧ t.replies = s.replies ++ [.hostData 15 x])

/-! ## Whole-machine rules -/

/-- Every error event is precise: a transaction that raises one has made no other state change and no memory access
(R220). -/
def Obligations.ErrorEventsArePrecise : Prop :=
  ∀ s t : State, step s = .next t →
    (s.errIllCmd = false → t.errIllCmd = true → t = { s with inbox := s.inbox.tail, errIllCmd := true }) ∧
    (s.errReject = false → t.errReject = true → t = { s with inbox := s.inbox.tail, errReject := true }) ∧
    (s.cfg ≠ .err → t.cfg = .err → t = { s with inbox := s.inbox.tail, cfg := .err })

/-- The `ERR` bits are never read by the CORE: a command does from any flags what it does from none, and the flags it had
stay (R31, R227). -/
def Obligations.ErrorFlagsAreNeverRead : Prop :=
  ∀ (i : Instr) (s : State) (ill rej : Bool),
    exec i { s with errIllCmd := ill, errReject := rej } =
      mapNext (fun t => { t with errIllCmd := t.errIllCmd || ill, errReject := t.errReject || rej })
        (exec i { s with errIllCmd := false, errReject := false })

/-- `STATE` changes only by reset (to IDLE), by an accepted `START` (to RUNNING, or to DONE when the stream is empty) and by
a `PROC` in RUNNING that reaches `TOTAL_FRAME` (to DONE); and once `COMPLETE` is 1 only reset or an accepted `START`
clears it (R173, R26, R86 c). -/
def Obligations.StateChangesOnlyByTheTable : Prop :=
  ∀ (s t : State) (tr : Transaction) (rest : List Transaction), s.Inv → s.inbox = tr :: rest → step s = .next t →
    (t.phase ≠ s.phase →
      (tr = .reset ∧ t.phase = .idle) ∨
      (isCommand tr .start ∧ s.phase ≠ .running ∧ t.phase = if s.totalFrame = 0 then .done else .running) ∨
      (s.phase = .running ∧ (∃ n, isCommand tr (.proc n)) ∧ t.phase = .done ∧ t.nextFrame = t.totalFrame)) ∧
    (s.complete = true → t.complete = false → tr = .reset ∨ (isCommand tr .start ∧ t.phase = .running))

/-- `EVT_DONE` is emitted exactly once, as the last event, by the step that ends a stream: the one in which RUNNING becomes
DONE or an empty stream is accepted; and by no other step (R230, R169, R192). -/
def Obligations.CompletionEventOnceAtTheEnd : Prop :=
  ∀ (s t : State) (tr : Transaction) (rest : List Transaction), s.Inv → s.inbox = tr :: rest → step s = .next t →
    let ends := (s.phase = .running ∧ t.phase = .done) ∨
      (isCommand tr .start ∧ startRejected s = false ∧ s.totalFrame = 0)
    ∃ ev : List Event, Event.evtDone ∉ ev ∧
      (ends → t.trace = s.trace ++ ev ++ [.evtDone] ∧ t.complete = true) ∧ (¬ ends → t.trace = s.trace ++ ev)

/-- The CORE touches sample memory only while executing a `PROC` or `FILT`: any other transaction, HOST's own store apart,
leaves memory and makes no read or write event (R70, R47 c). -/
def Obligations.OnlyProcAndFiltTouchMemory : Prop :=
  ∀ (s t : State) (tr : Transaction) (rest : List Transaction), s.inbox = tr :: rest → step s = .next t →
    (∀ n, ¬ isCommand tr (.proc n)) → (∀ c n, ¬ isCommand tr (.filt c n)) → (∀ a b, tr ≠ .hostMemWrite a b) →
    t.mem = s.mem ∧ (t.trace = s.trace ∨ t.trace = s.trace ++ [.evtDone])

/-- The history files have no writer but the engine (`PROC`, `FILT`), `START` and reset; HOST cannot write a history word by
any means (R23, R28, R206). -/
def Obligations.HistoriesHaveNoOtherWriter : Prop :=
  ∀ (s t : State) (tr : Transaction) (rest : List Transaction), s.inbox = tr :: rest → step s = .next t →
    tr ≠ .reset → ¬ isCommand tr .start →
    t.ys = s.ys ∧ ((∀ n, ¬ isCommand tr (.proc n)) → (∀ c n, ¬ isCommand tr (.filt c n)) → t.xs = s.xs)

/-- While a stream runs, nothing but reset changes its FilterSpec, its channel count, its length, its source or its
destination (R21, R190, R203, R38). -/
def Obligations.RunningStreamIsFrozen : Prop :=
  ∀ (s t : State), s.phase = .running → step s = .next t → s.inbox.head? ≠ some .reset →
    t.bankB = s.bankB ∧ t.bankA = s.bankA ∧ t.numB = s.numB ∧ t.numA = s.numA ∧ t.cfg = s.cfg ∧
    t.numCh = s.numCh ∧ t.totalFrame = s.totalFrame ∧ t.srcBase = s.srcBase ∧ t.dstBase = s.dstBase

/-- The work bound of R290, as events: a `PROC` in RUNNING makes N * C reads and (N + N_req) * C writes, one outside a stream
N_req * C writes and no read, an accepted `FILT` N reads and N writes. -/
def Obligations.WorkIsBounded : Prop :=
  (∀ (s : State) (nReq : Nat), s.Inv → ProcReady s nReq →
    let n := min nReq (s.totalFrame.toNat - s.nextFrame.toNat)
    ∃ t ev, exec (.proc nReq) s = .next t ∧ t.trace = s.trace ++ ev ∧
      ev.countP isRead = n * s.numCh.toNat ∧
      ev.countP isWrite = (n + nReq) * s.numCh.toNat) ∧
  (∀ (s : State) (nReq : Nat), SilenceReady s nReq →
    ∃ t ev, exec (.proc nReq) s = .next t ∧ t.trace = s.trace ++ ev ∧
      ev.countP isRead = 0 ∧
      ev.countP isWrite = nReq * s.numCh.toNat) ∧
  (∀ (s : State) (c n : Nat), FiltReady s c n →
    ∃ t ev, exec (.filt c n) s = .next t ∧ t.trace = s.trace ++ ev ∧
      ev.countP isRead = n ∧
      ev.countP isWrite = n)

/-! ## Arithmetic (spec/40_filter_engine.md R133) -/

/-- The sum of two finite numbers is the exact sum rounded to nearest, ties to even, subnormals kept; from half a unit
beyond the largest finite number on it is the infinity of its sign. Values are in units of 2^-1074. What R133 leaves to the
standard is the model's reading of it (log 24). -/
def Obligations.AdditionRoundsToNearestEven : Prop :=
  ∀ a b : Word, f64IsFinite a = true → f64IsFinite b = true →
    let e := f64Value a + f64Value b
    let r := fadd64 a b
    (e.natAbs < (2 ^ 54 - 1) * 2 ^ 2044 → f64IsFinite r = true ∧
      ∀ z : Word, f64IsFinite z = true →
        (f64Value r - e).natAbs ≤ (f64Value z - e).natAbs ∧
        ((f64Value z - e).natAbs = (f64Value r - e).natAbs → f64Value z ≠ f64Value r → r.toNat % 2 = 0)) ∧
    ((2 ^ 54 - 1) * 2 ^ 2044 ≤ e.natAbs → r = if e < 0 then 0xFFF0000000000000 else 0x7FF0000000000000)

/-- The product of two finite numbers is the exact product rounded to nearest, ties to even, subnormals kept, its sign the
exclusive or of the signs; from half a unit beyond the largest finite number on it is the infinity of its sign. What R133
leaves to the standard is the model's reading of it (log 24). -/
def Obligations.MultiplicationRoundsToNearestEven : Prop :=
  ∀ a b : Word, f64IsFinite a = true → f64IsFinite b = true →
    let e := f64Value a * f64Value b
    let r := fmul64 a b
    f64Neg r = (f64Neg a ^^ f64Neg b) ∧
    (e.natAbs < (2 ^ 54 - 1) * 2 ^ 2044 * 2 ^ 1074 → f64IsFinite r = true ∧
      ∀ z : Word, f64IsFinite z = true →
        (f64Value r * 2 ^ 1074 - e).natAbs ≤ (f64Value z * 2 ^ 1074 - e).natAbs ∧
        ((f64Value z * 2 ^ 1074 - e).natAbs = (f64Value r * 2 ^ 1074 - e).natAbs → f64Value z ≠ f64Value r →
          r.toNat % 2 = 0)) ∧
    ((2 ^ 54 - 1) * 2 ^ 2044 * 2 ^ 1074 ≤ e.natAbs → f64IsInf r = true)

/-- Infinities, NaNs and zeros: a NaN comes from a NaN operand, from 0 times infinity and from infinities of opposite sign,
and from nothing else; an infinity stays one, with its sign; equal numbers of opposite sign, zeros among them, sum to `+0.0`
and two negative zeros to `-0.0`. What R133 leaves to the standard is the model's reading of it (log 24). -/
def Obligations.SpecialOperandsFollowIeee : Prop :=
  ∀ a b : Word,
    (f64IsNaN (fmul64 a b) = true ↔ f64IsNaN a = true ∨ f64IsNaN b = true ∨
      (f64IsInf a = true ∧ f64IsZero b = true) ∨ (f64IsZero a = true ∧ f64IsInf b = true)) ∧
    (f64IsNaN (fadd64 a b) = true ↔ f64IsNaN a = true ∨ f64IsNaN b = true ∨
      (f64IsInf a = true ∧ f64IsInf b = true ∧ f64Neg a ≠ f64Neg b)) ∧
    (f64IsInf a = true → f64IsNaN b = false → f64IsZero b = false →
      f64IsInf (fmul64 a b) = true ∧ f64Neg (fmul64 a b) = (f64Neg a ^^ f64Neg b) ∧
      f64IsInf (fmul64 b a) = true ∧ f64Neg (fmul64 b a) = (f64Neg a ^^ f64Neg b)) ∧
    (f64IsInf a = true → f64IsFinite b = true → fadd64 a b = a ∧ fadd64 b a = a) ∧
    (f64IsInf a = true → fadd64 a a = a) ∧
    (f64IsFinite a = true → fadd64 a (a ^^^ 0x8000000000000000) = 0) ∧
    fadd64 0x8000000000000000 0x8000000000000000 = 0x8000000000000000

/-! ## Byte order (spec/20_memory.md R71, R74, R75) -/

/-- Sample words are little-endian: a `MemWrite` of v puts `v[8j+7:8j]` at the address plus j, modulo 2^64, for j in 0..7 and
changes no other byte; a `MemRead` returns the word whose bits 8j+7:8j are the byte at the address plus j and changes no
memory; each appends its one event (R71, R74, R75). HOST's narrower accesses see those bytes: that HOST reads and writes one
byte by a transaction is the model's choice (log 10). -/
def Obligations.SampleWordsAreLittleEndian : Prop :=
  (∀ (s : State) (a v : Word), Memory.wf s.mem = true → backedAt s.params a = true →
    let m := Memory.writeWord s.mem a v
    memWrite a v s = .ok { s with mem := m, trace := s.trace ++ [.write a v] } ∧
    (∀ j, j < 8 → Memory.readByte m ((a.toNat + j) % 2 ^ 64) = BitVec.ofNat 8 (v.toNat / 2 ^ (8 * j))) ∧
    (∀ b, (∀ j, j < 8 → b ≠ (a.toNat + j) % 2 ^ 64) → Memory.readByte m b = Memory.readByte s.mem b)) ∧
  (∀ (s : State) (a : Word), backedAt s.params a = true →
    let w := Memory.readWord s.mem a
    memRead a s = .ok (w, { s with trace := s.trace ++ [.read a w] }) ∧
    (∀ j, j < 8 → Memory.readByte s.mem ((a.toNat + j) % 2 ^ 64) = BitVec.ofNat 8 (w.toNat / 2 ^ (8 * j)))) ∧
  (∀ (s : State) (a : Word) (rest : List Transaction), s.inbox = .hostMemRead a :: rest → backedAt s.params a = true →
    step s = .next { s with
      inbox := rest, replies := s.replies ++ [.hostMemData a (Memory.readByte s.mem a.toNat)] }) ∧
  (∀ (s : State) (a : Word) (b : Byte) (rest : List Transaction), s.inbox = .hostMemWrite a b :: rest →
    Memory.wf s.mem = true → backedAt s.params a = true →
    ∃ m : Memory, step s = .next { s with inbox := rest, mem := m } ∧
      ∀ c, Memory.readByte m c = if c = a.toNat then b else Memory.readByte s.mem c)
end

