-- ==== Sys2Proof/Laws/Memory.lean ====
section
/-! SUPPORT. The laws of sample memory: reading after writing, and the canonical form kept. -/

namespace Sys2Proof.Machine

/-! ## The canonical form as a proposition -/

/-- Every listed address of `m` is above `k`. -/
def Memory.Above (k : Nat) (m : Memory) : Prop := ∀ c ∈ m, k < c.1

theorem wf_cons {a : Nat} {b : Byte} {m : Memory} :
    Memory.wf ((a, b) :: m) = true ↔ a < 2 ^ 64 ∧ b ≠ Memory.unlisted ∧ Memory.Above a m ∧ Memory.wf m = true := by
  induction m generalizing a b with
  | nil => simp [Memory.wf, Memory.Above]
  | cons c rest ih =>
    obtain ⟨a', b'⟩ := c
    have hrest := ih (a := a') (b := b')
    constructor
    · intro h
      simp only [Memory.wf, Bool.and_eq_true, decide_eq_true_eq] at h
      obtain ⟨⟨hlt, hb⟩, hw⟩ := h
      obtain ⟨ha', _, hab, _⟩ := hrest.1 hw
      refine ⟨by omega, hb, ?_, hw⟩
      intro c hc
      rcases List.mem_cons.1 hc with rfl | hc
      · exact hlt
      · exact Nat.lt_trans hlt (hab c hc)
    · rintro ⟨_, hb, hab, hw⟩
      simp only [Memory.wf, Bool.and_eq_true, decide_eq_true_eq]
      exact ⟨⟨hab (a', b') (List.mem_cons_self), hb⟩, hw⟩

theorem readByte_of_above {m : Memory} {k a : Nat} (h : Memory.Above k m) (ha : a ≤ k) :
    Memory.readByte m a = Memory.unlisted := by
  induction m with
  | nil => rfl
  | cons c rest ih =>
    obtain ⟨a', b'⟩ := c
    have h1 : k < a' := h (a', b') List.mem_cons_self
    have h2 : Memory.Above k rest := fun c hc => h c (List.mem_cons_of_mem _ hc)
    simp only [Memory.readByte]
    rw [if_neg (by omega), ih h2]

/-! ## One byte -/

theorem putCell_above {k a : Nat} {v : Byte} {m : Memory} (ha : k < a) (h : Memory.Above k m) :
    Memory.Above k (Memory.putCell a v m) := by
  unfold Memory.putCell
  split
  · exact h
  · intro c hc
    rcases List.mem_cons.1 hc with rfl | hc
    · exact ha
    · exact h c hc

theorem writeByte_above {k a : Nat} {v : Byte} {m : Memory} (ha : k < a) (h : Memory.Above k m) :
    Memory.Above k (Memory.writeByte m a v) := by
  induction m with
  | nil => exact putCell_above ha h
  | cons c rest ih =>
    obtain ⟨a', b'⟩ := c
    have h2 : Memory.Above k rest := fun c hc => h c (List.mem_cons_of_mem _ hc)
    simp only [Memory.writeByte]
    split
    · exact putCell_above ha h
    split
    · exact putCell_above ha h2
    · intro c hc
      rcases List.mem_cons.1 hc with rfl | hc
      · exact h _ List.mem_cons_self
      · exact ih h2 c hc

theorem putCell_wf {a : Nat} {v : Byte} {m : Memory} (ha : a < 2 ^ 64) (hab : Memory.Above a m)
    (hm : Memory.wf m = true) : Memory.wf (Memory.putCell a v m) = true := by
  unfold Memory.putCell
  split
  · exact hm
  · exact wf_cons.2 ⟨ha, by assumption, hab, hm⟩

/-- A byte write keeps the canonical form. -/
theorem writeByte_wf {m : Memory} {a : Nat} {v : Byte} (hm : Memory.wf m = true) (ha : a < 2 ^ 64) :
    Memory.wf (Memory.writeByte m a v) = true := by
  induction m with
  | nil => exact putCell_wf ha (fun _ h => nomatch h) rfl
  | cons c rest ih =>
    obtain ⟨a', b'⟩ := c
    obtain ⟨ha', hb', hab, hw⟩ := wf_cons.1 hm
    simp only [Memory.writeByte]
    split
    · refine putCell_wf ha ?_ hm
      intro c hc
      rcases List.mem_cons.1 hc with rfl | hc
      · assumption
      · exact Nat.lt_trans (by assumption) (hab c hc)
    split
    · subst a
      exact putCell_wf ha hab hw
    · exact wf_cons.2 ⟨ha', hb', writeByte_above (by omega) hab, ih hw⟩

theorem readByte_putCell {m : Memory} {a a' : Nat} {v : Byte} (hab : Memory.Above a m) :
    Memory.readByte (Memory.putCell a v m) a' = if a' = a then v else Memory.readByte m a' := by
  unfold Memory.putCell
  split
  · rename_i hv
    split
    · subst hv; subst a'
      exact readByte_of_above hab (Nat.le_refl _)
    · rfl
  · simp only [Memory.readByte]
    by_cases h : a = a'
    · simp [h]
    · rw [if_neg h, if_neg (fun h' => h h'.symm)]

/-- Reading a byte after a byte write. -/
theorem readByte_writeByte {m : Memory} {a : Nat} {v : Byte} (hm : Memory.wf m = true) (a' : Nat) :
    Memory.readByte (Memory.writeByte m a v) a' = if a' = a then v else Memory.readByte m a' := by
  induction m with
  | nil => exact readByte_putCell (fun _ h => nomatch h)
  | cons c rest ih =>
    obtain ⟨k, b⟩ := c
    obtain ⟨_, _, hab, hw⟩ := wf_cons.1 hm
    simp only [Memory.writeByte]
    split
    · refine readByte_putCell ?_
      intro c hc
      rcases List.mem_cons.1 hc with rfl | hc
      · assumption
      · exact Nat.lt_trans (by assumption) (hab c hc)
    split
    · subst a
      rw [readByte_putCell hab]
      simp only [Memory.readByte]
      by_cases h : a' = k
      · simp [h]
      · rw [if_neg h, if_neg h, if_neg (fun h' => h h'.symm)]
    · simp only [Memory.readByte, ih hw]
      by_cases h : k = a'
      · subst h
        rw [if_pos rfl, if_neg (by omega), if_pos rfl]
      · rw [if_neg h, if_neg h]

/-- Memories in canonical form that read alike are equal. -/
theorem memory_ext {m m' : Memory} (hm : Memory.wf m = true) (hm' : Memory.wf m' = true)
    (h : ∀ a, Memory.readByte m a = Memory.readByte m' a) : m = m' := by
  induction m generalizing m' with
  | nil =>
    cases m' with
    | nil => rfl
    | cons c rest =>
      obtain ⟨a, b⟩ := c
      obtain ⟨_, hb, _, _⟩ := wf_cons.1 hm'
      have := h a
      simp only [Memory.readByte] at this
      exact absurd this.symm (by simpa using hb)
  | cons c rest ih =>
    obtain ⟨a, b⟩ := c
    obtain ⟨_, hb, hab, hw⟩ := wf_cons.1 hm
    cases m' with
    | nil =>
      have := h a
      simp only [Memory.readByte] at this
      exact absurd this (by simpa using hb)
    | cons c' rest' =>
      obtain ⟨a', b'⟩ := c'
      obtain ⟨_, hb', hab', hw'⟩ := wf_cons.1 hm'
      have haa : a = a' := by
        rcases Nat.lt_trichotomy a a' with hlt | heq | hgt
        · have := h a
          simp only [Memory.readByte] at this
          rw [if_pos trivial, if_neg (by omega), readByte_of_above hab' (by omega)] at this
          exact absurd this hb
        · exact heq
        · have := h a'
          simp only [Memory.readByte] at this
          rw [if_pos trivial, if_neg (by omega), readByte_of_above hab (by omega)] at this
          exact absurd this.symm hb'
      subst haa
      have hbb : b = b' := by
        have := h a
        simpa [Memory.readByte] using this
      subst hbb
      rw [ih hw hw' ?_]
      intro x
      by_cases hx : a = x
      · subst hx
        rw [readByte_of_above hab (Nat.le_refl _), readByte_of_above hab' (Nat.le_refl _)]
      · have := h x
        simpa [Memory.readByte, hx] using this

/-! ## One word -/

theorem byteAddr_lt (a : Word) (i : Nat) : byteAddr a i < 2 ^ 64 := (a + BitVec.ofNat 64 i).isLt

theorem byteAddr_inj {a : Word} {i j : Nat} (hi : i < 8) (hj : j < 8) (h : byteAddr a i = byteAddr a j) : i = j := by
  unfold byteAddr at h
  simp only [BitVec.toNat_add, BitVec.toNat_ofNat] at h
  omega

theorem inWord_iff {w : Word} {a : Nat} : inWord w a = true ↔ ∃ i, i < 8 ∧ byteAddr w i = a := by
  simp [inWord]

/-- A word write keeps the canonical form. -/
theorem writeWord_wf {m : Memory} (hm : Memory.wf m = true) (a v : Word) : Memory.wf (Memory.writeWord m a v) = true := by
  unfold Memory.writeWord
  generalize List.range 8 = l
  induction l generalizing m with
  | nil => exact hm
  | cons i l ih => exact ih (writeByte_wf hm (byteAddr_lt a i))

theorem readByte_foldl_writeByte {m : Memory} (hm : Memory.wf m = true) (a v : Word) (l : List Nat) (hl : ∀ i ∈ l, i < 8)
    (hnd : l.Nodup) (x : Nat) :
    (∀ i, i ∈ l → byteAddr a i = x →
      Memory.readByte (l.foldl (fun m i => Memory.writeByte m (byteAddr a i) (byteOf v i)) m) x = byteOf v i) ∧
    ((∀ i, i ∈ l → byteAddr a i ≠ x) →
      Memory.readByte (l.foldl (fun m i => Memory.writeByte m (byteAddr a i) (byteOf v i)) m) x = Memory.readByte m x) := by
  induction l generalizing m with
  | nil => simp
  | cons j l ih =>
    have hj : j < 8 := hl j List.mem_cons_self
    have hl' : ∀ i ∈ l, i < 8 := fun i h => hl i (List.mem_cons_of_mem _ h)
    obtain ⟨hjl, hnd'⟩ := List.nodup_cons.1 hnd
    obtain ⟨ih1, ih2⟩ := ih (writeByte_wf hm (byteAddr_lt a j) (v := byteOf v j)) hl' hnd'
    simp only [List.foldl_cons]
    constructor
    · intro i hi hx
      rcases List.mem_cons.1 hi with rfl | hi
      · rw [ih2, readByte_writeByte hm, if_pos hx.symm]
        intro k hk hkx
        have := byteAddr_inj (hl' k hk) hj (hkx.trans hx.symm)
        exact hjl (this ▸ hk)
      · exact ih1 i hi hx
    · intro hno
      rw [ih2 (fun i hi => hno i (List.mem_cons_of_mem _ hi)), readByte_writeByte hm,
        if_neg (fun h => hno j List.mem_cons_self h.symm)]

/-- A byte of the word just written. -/
theorem readByte_writeWord_in {m : Memory} (hm : Memory.wf m = true) (a v : Word) {i : Nat} (hi : i < 8) :
    Memory.readByte (Memory.writeWord m a v) (byteAddr a i) = byteOf v i :=
  (readByte_foldl_writeByte hm a v (List.range 8) (by simp) List.nodup_range _).1 i (by simpa using hi) rfl

/-- Every other byte after a word write. -/
theorem readByte_writeWord_out {m : Memory} (hm : Memory.wf m = true) (a v : Word) {x : Nat} (hx : inWord a x = false) :
    Memory.readByte (Memory.writeWord m a v) x = Memory.readByte m x := by
  refine (readByte_foldl_writeByte hm a v (List.range 8) (by simp) List.nodup_range _).2 ?_
  intro i hi h
  have : inWord a x = true := inWord_iff.2 ⟨i, by simpa using hi, h⟩
  simp [this] at hx

/-- A word is its eight bytes. -/
theorem bytes_of_word (v : Word) :
    byteOf v 7 ++ byteOf v 6 ++ byteOf v 5 ++ byteOf v 4 ++ byteOf v 3 ++ byteOf v 2 ++ byteOf v 1 ++ byteOf v 0 = v := by
  apply BitVec.eq_of_getLsbD_eq
  intro i hi
  simp only [byteOf, BitVec.getLsbD_append, BitVec.getLsbD_extractLsb']
  rcases (by omega : i < 8 ∨ (8 ≤ i ∧ i < 16) ∨ (16 ≤ i ∧ i < 24) ∨ (24 ≤ i ∧ i < 32) ∨ (32 ≤ i ∧ i < 40) ∨
    (40 ≤ i ∧ i < 48) ∨ (48 ≤ i ∧ i < 56) ∨ (56 ≤ i ∧ i < 64)) with h | h | h | h | h | h | h | h <;>
  · simp (disch := omega) only [if_pos, if_neg]
    rw [decide_eq_true (by omega), Bool.true_and]
    congr 1
    omega

/-- The word just written reads back. -/
theorem readWord_writeWord_same {m : Memory} (hm : Memory.wf m = true) (a v : Word) :
    Memory.readWord (Memory.writeWord m a v) a = v := by
  unfold Memory.readWord
  simp (disch := omega) only [readByte_writeWord_in hm]
  exact bytes_of_word v

theorem readWord_congr {m m' : Memory} {a : Word}
    (h : ∀ i, i < 8 → Memory.readByte m (byteAddr a i) = Memory.readByte m' (byteAddr a i)) :
    Memory.readWord m a = Memory.readWord m' a := by
  unfold Memory.readWord
  simp (disch := omega) only [h]

/-- A word apart from the one written reads as before. -/
theorem readWord_writeWord_apart {m : Memory} (hm : Memory.wf m = true) {a b : Word} (v : Word) (h : WordsApart a b) :
    Memory.readWord (Memory.writeWord m a v) b = Memory.readWord m b := by
  refine readWord_congr fun i hi => readByte_writeWord_out hm a v ?_
  rw [Bool.eq_false_iff]
  intro hin
  obtain ⟨j, hj, hji⟩ := inWord_iff.1 hin
  exact h j i hj hi hji

/-! ## Several words -/

@[simp] theorem writeWords_nil (m : Memory) : Memory.writeWords m [] = m := rfl

@[simp] theorem writeWords_cons (m : Memory) (w : Word × Word) (ws : List (Word × Word)) :
    Memory.writeWords m (w :: ws) = Memory.writeWords (Memory.writeWord m w.1 w.2) ws := rfl

theorem writeWords_append (m : Memory) (ws ws' : List (Word × Word)) :
    Memory.writeWords m (ws ++ ws') = Memory.writeWords (Memory.writeWords m ws) ws' := by
  simp [Memory.writeWords]

/-- A list of word writes keeps the canonical form. -/
theorem writeWords_wf {m : Memory} (hm : Memory.wf m = true) (ws : List (Word × Word)) :
    Memory.wf (Memory.writeWords m ws) = true := by
  induction ws generalizing m with
  | nil => exact hm
  | cons w ws ih => exact ih (writeWord_wf hm _ _)

/-- Bytes outside every written word read as before. -/
theorem readByte_writeWords_out {m : Memory} (hm : Memory.wf m = true) (ws : List (Word × Word)) {x : Nat}
    (hx : ∀ w ∈ ws, inWord w.1 x = false) : Memory.readByte (Memory.writeWords m ws) x = Memory.readByte m x := by
  induction ws generalizing m with
  | nil => rfl
  | cons w ws ih =>
    rw [writeWords_cons, ih (writeWord_wf hm _ _) (fun w' h => hx w' (List.mem_cons_of_mem _ h)),
      readByte_writeWord_out hm _ _ (hx w List.mem_cons_self)]

/-- A word apart from every written word reads as before. -/
theorem readWord_writeWords_apart {m : Memory} (hm : Memory.wf m = true) (ws : List (Word × Word)) {b : Word}
    (h : ∀ w ∈ ws, WordsApart w.1 b) : Memory.readWord (Memory.writeWords m ws) b = Memory.readWord m b := by
  induction ws generalizing m with
  | nil => rfl
  | cons w ws ih =>
    rw [writeWords_cons, ih (writeWord_wf hm _ _) (fun w' h' => h w' (List.mem_cons_of_mem _ h')),
      readWord_writeWord_apart hm _ (h w List.mem_cons_self)]

/-- Where the written words are pairwise apart, each reads back. -/
theorem readWord_writeWords_mem {m : Memory} (hm : Memory.wf m = true) (ws : List (Word × Word))
    (hp : ws.Pairwise fun w w' => WordsApart w'.1 w.1) {w : Word × Word} (hw : w ∈ ws) :
    Memory.readWord (Memory.writeWords m ws) w.1 = w.2 := by
  induction ws generalizing m with
  | nil => cases hw
  | cons w' ws ih =>
    obtain ⟨h1, h2⟩ := List.pairwise_cons.1 hp
    rw [writeWords_cons]
    rcases List.mem_cons.1 hw with rfl | hw
    · rw [readWord_writeWords_apart (writeWord_wf hm _ _) ws h1, readWord_writeWord_same hm]
    · exact ih (writeWord_wf hm _ _) h2 hw

/-! ## Byte order (R71, R74, R75), as numbers -/

/-- Byte `i` of a word by division. -/
theorem byteOf_eq_ofNat (v : Word) (i : Nat) : byteOf v i = BitVec.ofNat 8 (v.toNat / 2 ^ (8 * i)) := by
  apply BitVec.eq_of_toNat_eq
  rw [byteOf, BitVec.extractLsb'_toNat, BitVec.toNat_ofNat, Nat.shiftRight_eq_div_pow]

/-- The address of byte `i` of a word as a number modulo 2^64. -/
theorem byteAddr_eq_mod (a : Word) (i : Nat) : byteAddr a i = (a.toNat + i) % 2 ^ 64 := by
  simp only [byteAddr, BitVec.toNat_add, BitVec.toNat_ofNat]
  omega

/-- Byte `i` of the word read is the byte at the address `i` further. -/
theorem byteOf_readWord (m : Memory) (a : Word) {i : Nat} (hi : i < 8) :
    byteOf (Memory.readWord m a) i = Memory.readByte m (byteAddr a i) := by
  apply BitVec.eq_of_getLsbD_eq
  intro k hk
  unfold byteOf Memory.readWord
  rcases (by omega : i = 0 ∨ i = 1 ∨ i = 2 ∨ i = 3 ∨ i = 4 ∨ i = 5 ∨ i = 6 ∨ i = 7) with
    rfl | rfl | rfl | rfl | rfl | rfl | rfl | rfl <;>
  · simp only [BitVec.getLsbD_extractLsb', BitVec.getLsbD_append, hk, decide_true, Bool.true_and]
    simp (disch := omega) only [if_pos, if_neg]
    congr 1
    omega

/-- The memory of the state after reset is in canonical form. -/
theorem reset_mem_wf (p : Params) : Memory.wf (State.resetOf p).mem = true := rfl

end Sys2Proof.Machine
end

