-- ==== Sys2Proof/Laws/State.lean ====
section
/-! SUPPORT. One lemma per field per update, so that no later proof unfolds a record update. -/

namespace Sys2Proof.Machine

/-! ## `State.emit` -/

@[simp] theorem emit_params (s : State) (e : Event) : (s.emit e).params = s.params := rfl
@[simp] theorem emit_bankB (s : State) (e : Event) : (s.emit e).bankB = s.bankB := rfl
@[simp] theorem emit_bankA (s : State) (e : Event) : (s.emit e).bankA = s.bankA := rfl
@[simp] theorem emit_numB (s : State) (e : Event) : (s.emit e).numB = s.numB := rfl
@[simp] theorem emit_numA (s : State) (e : Event) : (s.emit e).numA = s.numA := rfl
@[simp] theorem emit_cfg (s : State) (e : Event) : (s.emit e).cfg = s.cfg := rfl
@[simp] theorem emit_xs (s : State) (e : Event) : (s.emit e).xs = s.xs := rfl
@[simp] theorem emit_ys (s : State) (e : Event) : (s.emit e).ys = s.ys := rfl
@[simp] theorem emit_numCh (s : State) (e : Event) : (s.emit e).numCh = s.numCh := rfl
@[simp] theorem emit_totalFrame (s : State) (e : Event) : (s.emit e).totalFrame = s.totalFrame := rfl
@[simp] theorem emit_nextFrame (s : State) (e : Event) : (s.emit e).nextFrame = s.nextFrame := rfl
@[simp] theorem emit_phase (s : State) (e : Event) : (s.emit e).phase = s.phase := rfl
@[simp] theorem emit_complete (s : State) (e : Event) : (s.emit e).complete = s.complete := rfl
@[simp] theorem emit_errIllCmd (s : State) (e : Event) : (s.emit e).errIllCmd = s.errIllCmd := rfl
@[simp] theorem emit_errReject (s : State) (e : Event) : (s.emit e).errReject = s.errReject := rfl
@[simp] theorem emit_srcBase (s : State) (e : Event) : (s.emit e).srcBase = s.srcBase := rfl
@[simp] theorem emit_dstBase (s : State) (e : Event) : (s.emit e).dstBase = s.dstBase := rfl
@[simp] theorem emit_outBase (s : State) (e : Event) : (s.emit e).outBase = s.outBase := rfl
@[simp] theorem emit_finBase (s : State) (e : Event) : (s.emit e).finBase = s.finBase := rfl
@[simp] theorem emit_foutBase (s : State) (e : Event) : (s.emit e).foutBase = s.foutBase := rfl
@[simp] theorem emit_sel (s : State) (e : Event) : (s.emit e).sel = s.sel := rfl
@[simp] theorem emit_mem (s : State) (e : Event) : (s.emit e).mem = s.mem := rfl
@[simp] theorem emit_inbox (s : State) (e : Event) : (s.emit e).inbox = s.inbox := rfl
@[simp] theorem emit_trace (s : State) (e : Event) : (s.emit e).trace = s.trace ++ [e] := rfl
@[simp] theorem emit_replies (s : State) (e : Event) : (s.emit e).replies = s.replies := rfl

/-! ## `State.answer` -/

@[simp] theorem answer_params (s : State) (r : Reply) : (s.answer r).params = s.params := rfl
@[simp] theorem answer_bankB (s : State) (r : Reply) : (s.answer r).bankB = s.bankB := rfl
@[simp] theorem answer_bankA (s : State) (r : Reply) : (s.answer r).bankA = s.bankA := rfl
@[simp] theorem answer_numB (s : State) (r : Reply) : (s.answer r).numB = s.numB := rfl
@[simp] theorem answer_numA (s : State) (r : Reply) : (s.answer r).numA = s.numA := rfl
@[simp] theorem answer_cfg (s : State) (r : Reply) : (s.answer r).cfg = s.cfg := rfl
@[simp] theorem answer_xs (s : State) (r : Reply) : (s.answer r).xs = s.xs := rfl
@[simp] theorem answer_ys (s : State) (r : Reply) : (s.answer r).ys = s.ys := rfl
@[simp] theorem answer_numCh (s : State) (r : Reply) : (s.answer r).numCh = s.numCh := rfl
@[simp] theorem answer_totalFrame (s : State) (r : Reply) : (s.answer r).totalFrame = s.totalFrame := rfl
@[simp] theorem answer_nextFrame (s : State) (r : Reply) : (s.answer r).nextFrame = s.nextFrame := rfl
@[simp] theorem answer_phase (s : State) (r : Reply) : (s.answer r).phase = s.phase := rfl
@[simp] theorem answer_complete (s : State) (r : Reply) : (s.answer r).complete = s.complete := rfl
@[simp] theorem answer_errIllCmd (s : State) (r : Reply) : (s.answer r).errIllCmd = s.errIllCmd := rfl
@[simp] theorem answer_errReject (s : State) (r : Reply) : (s.answer r).errReject = s.errReject := rfl
@[simp] theorem answer_srcBase (s : State) (r : Reply) : (s.answer r).srcBase = s.srcBase := rfl
@[simp] theorem answer_dstBase (s : State) (r : Reply) : (s.answer r).dstBase = s.dstBase := rfl
@[simp] theorem answer_outBase (s : State) (r : Reply) : (s.answer r).outBase = s.outBase := rfl
@[simp] theorem answer_finBase (s : State) (r : Reply) : (s.answer r).finBase = s.finBase := rfl
@[simp] theorem answer_foutBase (s : State) (r : Reply) : (s.answer r).foutBase = s.foutBase := rfl
@[simp] theorem answer_sel (s : State) (r : Reply) : (s.answer r).sel = s.sel := rfl
@[simp] theorem answer_mem (s : State) (r : Reply) : (s.answer r).mem = s.mem := rfl
@[simp] theorem answer_inbox (s : State) (r : Reply) : (s.answer r).inbox = s.inbox := rfl
@[simp] theorem answer_trace (s : State) (r : Reply) : (s.answer r).trace = s.trace := rfl
@[simp] theorem answer_replies (s : State) (r : Reply) : (s.answer r).replies = s.replies ++ [r] := rfl

/-! ## `State.raise` -/

@[simp] theorem raise_reject_cfg (s : State) : (s.raise .reject).cfg = s.cfg := rfl
@[simp] theorem raise_reject_errIllCmd (s : State) : (s.raise .reject).errIllCmd = s.errIllCmd := rfl
@[simp] theorem raise_reject_errReject (s : State) : (s.raise .reject).errReject = true := rfl
@[simp] theorem raise_illCmd_cfg (s : State) : (s.raise .illCmd).cfg = s.cfg := rfl
@[simp] theorem raise_illCmd_errIllCmd (s : State) : (s.raise .illCmd).errIllCmd = true := rfl
@[simp] theorem raise_illCmd_errReject (s : State) : (s.raise .illCmd).errReject = s.errReject := rfl
@[simp] theorem raise_configurationError_cfg (s : State) : (s.raise .configurationError).cfg = Cfg.err := rfl
@[simp] theorem raise_configurationError_errIllCmd (s : State) : (s.raise .configurationError).errIllCmd = s.errIllCmd := rfl
@[simp] theorem raise_configurationError_errReject (s : State) : (s.raise .configurationError).errReject = s.errReject := rfl
@[simp] theorem raise_params (s : State) (e : ErrorEvent) : (s.raise e).params = s.params := by cases e <;> rfl
@[simp] theorem raise_bankB (s : State) (e : ErrorEvent) : (s.raise e).bankB = s.bankB := by cases e <;> rfl
@[simp] theorem raise_bankA (s : State) (e : ErrorEvent) : (s.raise e).bankA = s.bankA := by cases e <;> rfl
@[simp] theorem raise_numB (s : State) (e : ErrorEvent) : (s.raise e).numB = s.numB := by cases e <;> rfl
@[simp] theorem raise_numA (s : State) (e : ErrorEvent) : (s.raise e).numA = s.numA := by cases e <;> rfl
@[simp] theorem raise_xs (s : State) (e : ErrorEvent) : (s.raise e).xs = s.xs := by cases e <;> rfl
@[simp] theorem raise_ys (s : State) (e : ErrorEvent) : (s.raise e).ys = s.ys := by cases e <;> rfl
@[simp] theorem raise_numCh (s : State) (e : ErrorEvent) : (s.raise e).numCh = s.numCh := by cases e <;> rfl
@[simp] theorem raise_totalFrame (s : State) (e : ErrorEvent) : (s.raise e).totalFrame = s.totalFrame := by cases e <;> rfl
@[simp] theorem raise_nextFrame (s : State) (e : ErrorEvent) : (s.raise e).nextFrame = s.nextFrame := by cases e <;> rfl
@[simp] theorem raise_phase (s : State) (e : ErrorEvent) : (s.raise e).phase = s.phase := by cases e <;> rfl
@[simp] theorem raise_complete (s : State) (e : ErrorEvent) : (s.raise e).complete = s.complete := by cases e <;> rfl
@[simp] theorem raise_srcBase (s : State) (e : ErrorEvent) : (s.raise e).srcBase = s.srcBase := by cases e <;> rfl
@[simp] theorem raise_dstBase (s : State) (e : ErrorEvent) : (s.raise e).dstBase = s.dstBase := by cases e <;> rfl
@[simp] theorem raise_outBase (s : State) (e : ErrorEvent) : (s.raise e).outBase = s.outBase := by cases e <;> rfl
@[simp] theorem raise_finBase (s : State) (e : ErrorEvent) : (s.raise e).finBase = s.finBase := by cases e <;> rfl
@[simp] theorem raise_foutBase (s : State) (e : ErrorEvent) : (s.raise e).foutBase = s.foutBase := by cases e <;> rfl
@[simp] theorem raise_sel (s : State) (e : ErrorEvent) : (s.raise e).sel = s.sel := by cases e <;> rfl
@[simp] theorem raise_mem (s : State) (e : ErrorEvent) : (s.raise e).mem = s.mem := by cases e <;> rfl
@[simp] theorem raise_inbox (s : State) (e : ErrorEvent) : (s.raise e).inbox = s.inbox := by cases e <;> rfl
@[simp] theorem raise_trace (s : State) (e : ErrorEvent) : (s.raise e).trace = s.trace := by cases e <;> rfl
@[simp] theorem raise_replies (s : State) (e : ErrorEvent) : (s.raise e).replies = s.replies := by cases e <;> rfl

/-! ## `State.clearErr` -/

@[simp] theorem clearErr_params (s : State) (v : Word) : (s.clearErr v).params = s.params := rfl
@[simp] theorem clearErr_bankB (s : State) (v : Word) : (s.clearErr v).bankB = s.bankB := rfl
@[simp] theorem clearErr_bankA (s : State) (v : Word) : (s.clearErr v).bankA = s.bankA := rfl
@[simp] theorem clearErr_numB (s : State) (v : Word) : (s.clearErr v).numB = s.numB := rfl
@[simp] theorem clearErr_numA (s : State) (v : Word) : (s.clearErr v).numA = s.numA := rfl
@[simp] theorem clearErr_cfg (s : State) (v : Word) : (s.clearErr v).cfg = s.cfg := rfl
@[simp] theorem clearErr_xs (s : State) (v : Word) : (s.clearErr v).xs = s.xs := rfl
@[simp] theorem clearErr_ys (s : State) (v : Word) : (s.clearErr v).ys = s.ys := rfl
@[simp] theorem clearErr_numCh (s : State) (v : Word) : (s.clearErr v).numCh = s.numCh := rfl
@[simp] theorem clearErr_totalFrame (s : State) (v : Word) : (s.clearErr v).totalFrame = s.totalFrame := rfl
@[simp] theorem clearErr_nextFrame (s : State) (v : Word) : (s.clearErr v).nextFrame = s.nextFrame := rfl
@[simp] theorem clearErr_phase (s : State) (v : Word) : (s.clearErr v).phase = s.phase := rfl
@[simp] theorem clearErr_complete (s : State) (v : Word) : (s.clearErr v).complete = s.complete := rfl
@[simp] theorem clearErr_errIllCmd (s : State) (v : Word) : (s.clearErr v).errIllCmd = (s.errIllCmd && !v.getLsbD 0) := rfl
@[simp] theorem clearErr_errReject (s : State) (v : Word) : (s.clearErr v).errReject = (s.errReject && !v.getLsbD 1) := rfl
@[simp] theorem clearErr_srcBase (s : State) (v : Word) : (s.clearErr v).srcBase = s.srcBase := rfl
@[simp] theorem clearErr_dstBase (s : State) (v : Word) : (s.clearErr v).dstBase = s.dstBase := rfl
@[simp] theorem clearErr_outBase (s : State) (v : Word) : (s.clearErr v).outBase = s.outBase := rfl
@[simp] theorem clearErr_finBase (s : State) (v : Word) : (s.clearErr v).finBase = s.finBase := rfl
@[simp] theorem clearErr_foutBase (s : State) (v : Word) : (s.clearErr v).foutBase = s.foutBase := rfl
@[simp] theorem clearErr_sel (s : State) (v : Word) : (s.clearErr v).sel = s.sel := rfl
@[simp] theorem clearErr_mem (s : State) (v : Word) : (s.clearErr v).mem = s.mem := rfl
@[simp] theorem clearErr_inbox (s : State) (v : Word) : (s.clearErr v).inbox = s.inbox := rfl
@[simp] theorem clearErr_trace (s : State) (v : Word) : (s.clearErr v).trace = s.trace := rfl
@[simp] theorem clearErr_replies (s : State) (v : Word) : (s.clearErr v).replies = s.replies := rfl

/-! ## `State.finishStream` -/

@[simp] theorem finishStream_params (s : State) : (s.finishStream).params = s.params := rfl
@[simp] theorem finishStream_bankB (s : State) : (s.finishStream).bankB = s.bankB := rfl
@[simp] theorem finishStream_bankA (s : State) : (s.finishStream).bankA = s.bankA := rfl
@[simp] theorem finishStream_numB (s : State) : (s.finishStream).numB = s.numB := rfl
@[simp] theorem finishStream_numA (s : State) : (s.finishStream).numA = s.numA := rfl
@[simp] theorem finishStream_cfg (s : State) : (s.finishStream).cfg = s.cfg := rfl
@[simp] theorem finishStream_xs (s : State) : (s.finishStream).xs = s.xs := rfl
@[simp] theorem finishStream_ys (s : State) : (s.finishStream).ys = s.ys := rfl
@[simp] theorem finishStream_numCh (s : State) : (s.finishStream).numCh = s.numCh := rfl
@[simp] theorem finishStream_totalFrame (s : State) : (s.finishStream).totalFrame = s.totalFrame := rfl
@[simp] theorem finishStream_nextFrame (s : State) : (s.finishStream).nextFrame = s.nextFrame := rfl
@[simp] theorem finishStream_phase (s : State) : (s.finishStream).phase = .done := rfl
@[simp] theorem finishStream_complete (s : State) : (s.finishStream).complete = true := rfl
@[simp] theorem finishStream_errIllCmd (s : State) : (s.finishStream).errIllCmd = s.errIllCmd := rfl
@[simp] theorem finishStream_errReject (s : State) : (s.finishStream).errReject = s.errReject := rfl
@[simp] theorem finishStream_srcBase (s : State) : (s.finishStream).srcBase = s.srcBase := rfl
@[simp] theorem finishStream_dstBase (s : State) : (s.finishStream).dstBase = s.dstBase := rfl
@[simp] theorem finishStream_outBase (s : State) : (s.finishStream).outBase = s.outBase := rfl
@[simp] theorem finishStream_finBase (s : State) : (s.finishStream).finBase = s.finBase := rfl
@[simp] theorem finishStream_foutBase (s : State) : (s.finishStream).foutBase = s.foutBase := rfl
@[simp] theorem finishStream_sel (s : State) : (s.finishStream).sel = s.sel := rfl
@[simp] theorem finishStream_mem (s : State) : (s.finishStream).mem = s.mem := rfl
@[simp] theorem finishStream_inbox (s : State) : (s.finishStream).inbox = s.inbox := rfl
@[simp] theorem finishStream_trace (s : State) : (s.finishStream).trace = s.trace ++ [.evtDone] := rfl
@[simp] theorem finishStream_replies (s : State) : (s.finishStream).replies = s.replies := rfl

/-! ## `State.clearStream` -/

@[simp] theorem clearStream_params (s : State) : (s.clearStream).params = s.params := rfl
@[simp] theorem clearStream_bankB (s : State) : (s.clearStream).bankB = s.bankB := rfl
@[simp] theorem clearStream_bankA (s : State) : (s.clearStream).bankA = s.bankA := rfl
@[simp] theorem clearStream_numB (s : State) : (s.clearStream).numB = s.numB := rfl
@[simp] theorem clearStream_numA (s : State) : (s.clearStream).numA = s.numA := rfl
@[simp] theorem clearStream_cfg (s : State) : (s.clearStream).cfg = s.cfg := rfl
@[simp] theorem clearStream_xs (s : State) : (s.clearStream).xs = zeroHistories s.params := rfl
@[simp] theorem clearStream_ys (s : State) : (s.clearStream).ys = zeroHistories s.params := rfl
@[simp] theorem clearStream_numCh (s : State) : (s.clearStream).numCh = s.numCh := rfl
@[simp] theorem clearStream_totalFrame (s : State) : (s.clearStream).totalFrame = s.totalFrame := rfl
@[simp] theorem clearStream_nextFrame (s : State) : (s.clearStream).nextFrame = 0 := rfl
@[simp] theorem clearStream_phase (s : State) : (s.clearStream).phase = s.phase := rfl
@[simp] theorem clearStream_complete (s : State) : (s.clearStream).complete = false := rfl
@[simp] theorem clearStream_errIllCmd (s : State) : (s.clearStream).errIllCmd = s.errIllCmd := rfl
@[simp] theorem clearStream_errReject (s : State) : (s.clearStream).errReject = s.errReject := rfl
@[simp] theorem clearStream_srcBase (s : State) : (s.clearStream).srcBase = s.srcBase := rfl
@[simp] theorem clearStream_dstBase (s : State) : (s.clearStream).dstBase = s.dstBase := rfl
@[simp] theorem clearStream_outBase (s : State) : (s.clearStream).outBase = s.outBase := rfl
@[simp] theorem clearStream_finBase (s : State) : (s.clearStream).finBase = s.finBase := rfl
@[simp] theorem clearStream_foutBase (s : State) : (s.clearStream).foutBase = s.foutBase := rfl
@[simp] theorem clearStream_sel (s : State) : (s.clearStream).sel = s.sel := rfl
@[simp] theorem clearStream_mem (s : State) : (s.clearStream).mem = s.mem := rfl
@[simp] theorem clearStream_inbox (s : State) : (s.clearStream).inbox = s.inbox := rfl
@[simp] theorem clearStream_trace (s : State) : (s.clearStream).trace = s.trace := rfl
@[simp] theorem clearStream_replies (s : State) : (s.clearStream).replies = s.replies := rfl

/-! ## `State.resetCore` -/

@[simp] theorem resetCore_params (s : State) : (s.resetCore).params = s.params := rfl
@[simp] theorem resetCore_bankB (s : State) : (s.resetCore).bankB = List.replicate s.params.maxCoef 0 := rfl
@[simp] theorem resetCore_bankA (s : State) : (s.resetCore).bankA = List.replicate s.params.maxCoef 0 := rfl
@[simp] theorem resetCore_numB (s : State) : (s.resetCore).numB = 0 := rfl
@[simp] theorem resetCore_numA (s : State) : (s.resetCore).numA = 0 := rfl
@[simp] theorem resetCore_cfg (s : State) : (s.resetCore).cfg = .unloaded := rfl
@[simp] theorem resetCore_xs (s : State) : (s.resetCore).xs = zeroHistories s.params := rfl
@[simp] theorem resetCore_ys (s : State) : (s.resetCore).ys = zeroHistories s.params := rfl
@[simp] theorem resetCore_numCh (s : State) : (s.resetCore).numCh = 0 := rfl
@[simp] theorem resetCore_totalFrame (s : State) : (s.resetCore).totalFrame = 0 := rfl
@[simp] theorem resetCore_nextFrame (s : State) : (s.resetCore).nextFrame = 0 := rfl
@[simp] theorem resetCore_phase (s : State) : (s.resetCore).phase = .idle := rfl
@[simp] theorem resetCore_complete (s : State) : (s.resetCore).complete = false := rfl
@[simp] theorem resetCore_errIllCmd (s : State) : (s.resetCore).errIllCmd = false := rfl
@[simp] theorem resetCore_errReject (s : State) : (s.resetCore).errReject = false := rfl
@[simp] theorem resetCore_srcBase (s : State) : (s.resetCore).srcBase = 0 := rfl
@[simp] theorem resetCore_dstBase (s : State) : (s.resetCore).dstBase = 0 := rfl
@[simp] theorem resetCore_outBase (s : State) : (s.resetCore).outBase = 0 := rfl
@[simp] theorem resetCore_finBase (s : State) : (s.resetCore).finBase = 0 := rfl
@[simp] theorem resetCore_foutBase (s : State) : (s.resetCore).foutBase = 0 := rfl
@[simp] theorem resetCore_sel (s : State) : (s.resetCore).sel = 0 := rfl
@[simp] theorem resetCore_mem (s : State) : (s.resetCore).mem = s.mem := rfl
@[simp] theorem resetCore_inbox (s : State) : (s.resetCore).inbox = s.inbox := rfl
@[simp] theorem resetCore_trace (s : State) : (s.resetCore).trace = s.trace := rfl
@[simp] theorem resetCore_replies (s : State) : (s.resetCore).replies = s.replies := rfl

/-! ## `engineCall` -/

@[simp] theorem engineCall_params (s : State) (c : Nat) (x : List Word) : ((engineCall c x s).2).params = s.params := rfl
@[simp] theorem engineCall_bankB (s : State) (c : Nat) (x : List Word) : ((engineCall c x s).2).bankB = s.bankB := rfl
@[simp] theorem engineCall_bankA (s : State) (c : Nat) (x : List Word) : ((engineCall c x s).2).bankA = s.bankA := rfl
@[simp] theorem engineCall_numB (s : State) (c : Nat) (x : List Word) : ((engineCall c x s).2).numB = s.numB := rfl
@[simp] theorem engineCall_numA (s : State) (c : Nat) (x : List Word) : ((engineCall c x s).2).numA = s.numA := rfl
@[simp] theorem engineCall_cfg (s : State) (c : Nat) (x : List Word) : ((engineCall c x s).2).cfg = s.cfg := rfl
@[simp] theorem engineCall_xs (s : State) (c : Nat) (x : List Word) : ((engineCall c x s).2).xs = s.xs.set c (nextHistory (tapCount s) (historyOf s.xs c) x) := rfl
@[simp] theorem engineCall_ys (s : State) (c : Nat) (x : List Word) : ((engineCall c x s).2).ys = s.ys := rfl
@[simp] theorem engineCall_numCh (s : State) (c : Nat) (x : List Word) : ((engineCall c x s).2).numCh = s.numCh := rfl
@[simp] theorem engineCall_totalFrame (s : State) (c : Nat) (x : List Word) : ((engineCall c x s).2).totalFrame = s.totalFrame := rfl
@[simp] theorem engineCall_nextFrame (s : State) (c : Nat) (x : List Word) : ((engineCall c x s).2).nextFrame = s.nextFrame := rfl
@[simp] theorem engineCall_phase (s : State) (c : Nat) (x : List Word) : ((engineCall c x s).2).phase = s.phase := rfl
@[simp] theorem engineCall_complete (s : State) (c : Nat) (x : List Word) : ((engineCall c x s).2).complete = s.complete := rfl
@[simp] theorem engineCall_errIllCmd (s : State) (c : Nat) (x : List Word) : ((engineCall c x s).2).errIllCmd = s.errIllCmd := rfl
@[simp] theorem engineCall_errReject (s : State) (c : Nat) (x : List Word) : ((engineCall c x s).2).errReject = s.errReject := rfl
@[simp] theorem engineCall_srcBase (s : State) (c : Nat) (x : List Word) : ((engineCall c x s).2).srcBase = s.srcBase := rfl
@[simp] theorem engineCall_dstBase (s : State) (c : Nat) (x : List Word) : ((engineCall c x s).2).dstBase = s.dstBase := rfl
@[simp] theorem engineCall_outBase (s : State) (c : Nat) (x : List Word) : ((engineCall c x s).2).outBase = s.outBase := rfl
@[simp] theorem engineCall_finBase (s : State) (c : Nat) (x : List Word) : ((engineCall c x s).2).finBase = s.finBase := rfl
@[simp] theorem engineCall_foutBase (s : State) (c : Nat) (x : List Word) : ((engineCall c x s).2).foutBase = s.foutBase := rfl
@[simp] theorem engineCall_sel (s : State) (c : Nat) (x : List Word) : ((engineCall c x s).2).sel = s.sel := rfl
@[simp] theorem engineCall_mem (s : State) (c : Nat) (x : List Word) : ((engineCall c x s).2).mem = s.mem := rfl
@[simp] theorem engineCall_inbox (s : State) (c : Nat) (x : List Word) : ((engineCall c x s).2).inbox = s.inbox := rfl
@[simp] theorem engineCall_trace (s : State) (c : Nat) (x : List Word) : ((engineCall c x s).2).trace = s.trace := rfl
@[simp] theorem engineCall_replies (s : State) (c : Nat) (x : List Word) : ((engineCall c x s).2).replies = s.replies := rfl

@[simp] theorem engineCall_output (s : State) (c : Nat) (x : List Word) :
    (engineCall c x s).1 = convolve s.bankB (tapCount s) (historyOf s.xs c) x := rfl

/-! ## `advance` -/

@[simp] theorem advance_params (s : State) (n : Nat) : (advance n s).params = s.params := by
  unfold advance; dsimp only; split <;> rfl
@[simp] theorem advance_bankB (s : State) (n : Nat) : (advance n s).bankB = s.bankB := by
  unfold advance; dsimp only; split <;> rfl
@[simp] theorem advance_bankA (s : State) (n : Nat) : (advance n s).bankA = s.bankA := by
  unfold advance; dsimp only; split <;> rfl
@[simp] theorem advance_numB (s : State) (n : Nat) : (advance n s).numB = s.numB := by
  unfold advance; dsimp only; split <;> rfl
@[simp] theorem advance_numA (s : State) (n : Nat) : (advance n s).numA = s.numA := by
  unfold advance; dsimp only; split <;> rfl
@[simp] theorem advance_cfg (s : State) (n : Nat) : (advance n s).cfg = s.cfg := by
  unfold advance; dsimp only; split <;> rfl
@[simp] theorem advance_xs (s : State) (n : Nat) : (advance n s).xs = s.xs := by
  unfold advance; dsimp only; split <;> rfl
@[simp] theorem advance_ys (s : State) (n : Nat) : (advance n s).ys = s.ys := by
  unfold advance; dsimp only; split <;> rfl
@[simp] theorem advance_numCh (s : State) (n : Nat) : (advance n s).numCh = s.numCh := by
  unfold advance; dsimp only; split <;> rfl
@[simp] theorem advance_totalFrame (s : State) (n : Nat) : (advance n s).totalFrame = s.totalFrame := by
  unfold advance; dsimp only; split <;> rfl
@[simp] theorem advance_errIllCmd (s : State) (n : Nat) : (advance n s).errIllCmd = s.errIllCmd := by
  unfold advance; dsimp only; split <;> rfl
@[simp] theorem advance_errReject (s : State) (n : Nat) : (advance n s).errReject = s.errReject := by
  unfold advance; dsimp only; split <;> rfl
@[simp] theorem advance_srcBase (s : State) (n : Nat) : (advance n s).srcBase = s.srcBase := by
  unfold advance; dsimp only; split <;> rfl
@[simp] theorem advance_dstBase (s : State) (n : Nat) : (advance n s).dstBase = s.dstBase := by
  unfold advance; dsimp only; split <;> rfl
@[simp] theorem advance_outBase (s : State) (n : Nat) : (advance n s).outBase = s.outBase := by
  unfold advance; dsimp only; split <;> rfl
@[simp] theorem advance_finBase (s : State) (n : Nat) : (advance n s).finBase = s.finBase := by
  unfold advance; dsimp only; split <;> rfl
@[simp] theorem advance_foutBase (s : State) (n : Nat) : (advance n s).foutBase = s.foutBase := by
  unfold advance; dsimp only; split <;> rfl
@[simp] theorem advance_sel (s : State) (n : Nat) : (advance n s).sel = s.sel := by
  unfold advance; dsimp only; split <;> rfl
@[simp] theorem advance_mem (s : State) (n : Nat) : (advance n s).mem = s.mem := by
  unfold advance; dsimp only; split <;> rfl
@[simp] theorem advance_inbox (s : State) (n : Nat) : (advance n s).inbox = s.inbox := by
  unfold advance; dsimp only; split <;> rfl
@[simp] theorem advance_replies (s : State) (n : Nat) : (advance n s).replies = s.replies := by
  unfold advance; dsimp only; split <;> rfl
@[simp] theorem advance_nextFrame (s : State) (n : Nat) : (advance n s).nextFrame = s.nextFrame + BitVec.ofNat 64 n := by
  unfold advance; dsimp only; split <;> rfl

/-- Two states are equal when they agree field by field. -/
theorem State.ext_fields {s t : State}

    (hparams : s.params = t.params)
    (hbankB : s.bankB = t.bankB)
    (hbankA : s.bankA = t.bankA)
    (hnumB : s.numB = t.numB)
    (hnumA : s.numA = t.numA)
    (hcfg : s.cfg = t.cfg)
    (hxs : s.xs = t.xs)
    (hys : s.ys = t.ys)
    (hnumCh : s.numCh = t.numCh)
    (htotalFrame : s.totalFrame = t.totalFrame)
    (hnextFrame : s.nextFrame = t.nextFrame)
    (hphase : s.phase = t.phase)
    (hcomplete : s.complete = t.complete)
    (herrIllCmd : s.errIllCmd = t.errIllCmd)
    (herrReject : s.errReject = t.errReject)
    (hsrcBase : s.srcBase = t.srcBase)
    (hdstBase : s.dstBase = t.dstBase)
    (houtBase : s.outBase = t.outBase)
    (hfinBase : s.finBase = t.finBase)
    (hfoutBase : s.foutBase = t.foutBase)
    (hsel : s.sel = t.sel)
    (hmem : s.mem = t.mem)
    (hinbox : s.inbox = t.inbox)
    (htrace : s.trace = t.trace)
    (hreplies : s.replies = t.replies)
    : s = t := by
  cases s; cases t; simp_all

end Sys2Proof.Machine
end

