-- ==== Sys2Proof/Laws/Ops.lean ====
section
/-! SUPPORT. What the shared operations do, said once: the CORE's reads and writes of lists of words, the transactions. -/

namespace Sys2Proof.Machine

/-! ## Reads -/

theorem allBacked_cons {p : Params} {a : Word} {as : List Word} :
    AllBacked p (a :: as) ↔ backedAt p a = true ∧ AllBacked p as := by
  simp [AllBacked]

theorem memRead_backed {a : Word} {s : State} (h : backedAt s.params a = true) :
    memRead a s = .ok (Memory.readWord s.mem a, s.emit (.read a (Memory.readWord s.mem a))) := by
  simp [memRead, h]

theorem memRead_unbacked {a : Word} {s : State} (h : backedAt s.params a = false) :
    memRead a s = .error (.unbackedAccess a) := by
  simp [memRead, h]

/-- Reads of backed words: the words memory holds, and the trace longer by the read events. -/
theorem readAll_backed (as : List Word) (s : State) (h : AllBacked s.params as) :
    readAll as s = .ok (wordsAt s.mem as, { s with trace := s.trace ++ readEvents s.mem as }) := by
  induction as generalizing s with
  | nil => simp [readAll, wordsAt, readEvents]
  | cons a as ih =>
    obtain ⟨h1, h2⟩ := allBacked_cons.1 h
    rw [readAll, memRead_backed h1]
    dsimp only
    rw [ih _ (by simpa using h2)]
    simp [wordsAt, readEvents, State.emit]

/-- Reads of which one is of an unbacked word stop there. -/
theorem readAll_unbacked (as : List Word) (s : State) (h : ¬ AllBacked s.params as) :
    ∃ a ∈ as, backedAt s.params a = false ∧ readAll as s = .error (.unbackedAccess a) := by
  induction as generalizing s with
  | nil => exact absurd (fun _ h => nomatch h) h
  | cons a as ih =>
    rw [readAll]
    cases hb : backedAt s.params a with
    | false =>
      rw [memRead_unbacked hb]
      exact ⟨a, List.mem_cons_self, hb, rfl⟩
    | true =>
      rw [memRead_backed hb]
      dsimp only
      obtain ⟨a', ha', hb', he⟩ := ih (s.emit (.read a (Memory.readWord s.mem a)))
        (fun h' => h (allBacked_cons.2 ⟨hb, by simpa using h'⟩))
      rw [he]
      exact ⟨a', List.mem_cons_of_mem _ ha', by simpa using hb', rfl⟩

/-- What reads that end well have done. -/
theorem readAll_ok {as : List Word} {s t : State} {vs : List Word} (h : readAll as s = .ok (vs, t)) :
    AllBacked s.params as ∧ vs = wordsAt s.mem as ∧ t = { s with trace := s.trace ++ readEvents s.mem as } := by
  by_cases hb : AllBacked s.params as
  · rw [readAll_backed as s hb] at h
    cases h
    exact ⟨hb, rfl, rfl⟩
  · obtain ⟨a, _, _, he⟩ := readAll_unbacked as s hb
    rw [he] at h
    cases h

/-! ## Writes -/

theorem memWrite_backed {a v : Word} {s : State} (h : backedAt s.params a = true) :
    memWrite a v s = .ok { s with mem := Memory.writeWord s.mem a v, trace := s.trace ++ [.write a v] } := by
  simp [memWrite, h, State.emit]

theorem memWrite_unbacked {a v : Word} {s : State} (h : backedAt s.params a = false) :
    memWrite a v s = .error (.unbackedAccess a) := by
  simp [memWrite, h]

/-- Writes of backed words: memory with the words written in order, and the trace longer by the write events. -/
theorem writeAll_backed (ws : List (Word × Word)) (s : State) (h : AllBacked s.params (ws.map Prod.fst)) :
    writeAll ws s = .ok { s with mem := Memory.writeWords s.mem ws, trace := s.trace ++ writeEvents ws } := by
  induction ws generalizing s with
  | nil => simp [writeAll, writeEvents]
  | cons w ws ih =>
    obtain ⟨h1, h2⟩ := allBacked_cons.1 h
    rw [writeAll, memWrite_backed h1]
    dsimp only
    rw [ih _ (by simpa using h2)]
    simp [writeEvents]

/-- Writes of which one is to an unbacked word stop there. -/
theorem writeAll_unbacked (ws : List (Word × Word)) (s : State) (h : ¬ AllBacked s.params (ws.map Prod.fst)) :
    ∃ w ∈ ws, backedAt s.params w.1 = false ∧ writeAll ws s = .error (.unbackedAccess w.1) := by
  induction ws generalizing s with
  | nil => exact absurd (fun _ h => nomatch h) h
  | cons w ws ih =>
    rw [writeAll]
    cases hb : backedAt s.params w.1 with
    | false =>
      rw [memWrite_unbacked hb]
      exact ⟨w, List.mem_cons_self, hb, rfl⟩
    | true =>
      rw [memWrite_backed hb]
      dsimp only
      obtain ⟨w', hw', hb', he⟩ := ih
        { s with mem := Memory.writeWord s.mem w.1 w.2, trace := s.trace ++ [.write w.1 w.2] }
        (fun h' => h (allBacked_cons.2 ⟨hb, h'⟩))
      rw [he]
      exact ⟨w', List.mem_cons_of_mem _ hw', hb', rfl⟩

/-- What writes that end well have done. -/
theorem writeAll_ok {ws : List (Word × Word)} {s t : State} (h : writeAll ws s = .ok t) :
    AllBacked s.params (ws.map Prod.fst) ∧
      t = { s with mem := Memory.writeWords s.mem ws, trace := s.trace ++ writeEvents ws } := by
  by_cases hb : AllBacked s.params (ws.map Prod.fst)
  · rw [writeAll_backed ws s hb] at h
    cases h
    exact ⟨hb, rfl⟩
  · obtain ⟨a, _, _, he⟩ := writeAll_unbacked ws s hb
    rw [he] at h
    cases h

/-! ## One step -/

theorem step_nil {s : State} (h : s.inbox = []) : step s = .next s := by
  simp [step, takeTransaction, h]

theorem step_cons {s : State} {t : Transaction} {rest : List Transaction} (h : s.inbox = t :: rest) :
    step s = transact t { s with inbox := rest } := by
  simp [step, takeTransaction, h]

theorem transact_command (s : State) (w : Word) : transact (.hostWrite 0 w) s = writeCmd w s := rfl

theorem writeCmd_ok {w : Word} {i : Instr} (h : decode w = .ok i) (s : State) : writeCmd w s = exec i s := by
  simp [writeCmd, h]

theorem writeCmd_error {w : Word} {e : DecodeError} (h : decode w = .error e) (s : State) :
    writeCmd w s = .next (s.raise .illCmd) := by
  simp [writeCmd, h]

end Sys2Proof.Machine
end

