-- ==== Sys2Proof/Laws/Engine.lean ====
section
/-! SUPPORT. What the engine does, said once: lengths, single samples, and the calls of one `PROC`. -/

namespace Sys2Proof.Machine

@[simp] theorem convolve_length (b : List Word) (mb : Nat) (hist x : List Word) :
    (convolve b mb hist x).length = x.length := by
  simp [convolve]

theorem entry_map_range (f : Nat → Word) {n i : Nat} (h : i < n) : entry ((List.range n).map f) i = f i := by
  simp [entry, List.getD_eq_getElem?_getD, h]

theorem entry_of_ge {ws : List Word} {i : Nat} (h : ws.length ≤ i) : entry ws i = 0 := by
  simp [entry, List.getD_eq_getElem?_getD, h]

theorem entry_append_left {xs ys : List Word} {i : Nat} (h : i < xs.length) : entry (xs ++ ys) i = entry xs i := by
  simp [entry, List.getD_eq_getElem?_getD, List.getElem?_append_left h]

theorem entry_append_right {xs ys : List Word} {i : Nat} (h : xs.length ≤ i) :
    entry (xs ++ ys) i = entry ys (i - xs.length) := by
  simp [entry, List.getD_eq_getElem?_getD, List.getElem?_append_right h]

theorem entry_convolve (b : List Word) (mb : Nat) (hist x : List Word) {n : Nat} (h : n < x.length) :
    entry (convolve b mb hist x) n = convolveAt b mb hist x n := entry_map_range _ h

/-- Lists of one length that agree entry by entry are equal. -/
theorem list_eq_of_entries {xs ys : List Word} (hl : xs.length = ys.length)
    (h : ∀ i, i < xs.length → entry xs i = entry ys i) : xs = ys := by
  refine List.ext_getElem hl fun i h1 h2 => ?_
  have := h i h1
  simpa [entry, List.getD_eq_getElem?_getD, h1, h2] using this

/-- An engine call keeps the length of the history file (R137). -/
theorem nextHistory_length {mb : Nat} {hist x : List Word} (h : historyLen mb ≤ hist.length) :
    (nextHistory mb hist x).length = hist.length := by
  simp [nextHistory]
  omega

/-- Entry i of the history in use after a call (R137). -/
theorem entry_nextHistory (mb : Nat) (hist x : List Word) {i : Nat} (h : i < historyLen mb) :
    entry (nextHistory mb hist x) i =
      tap (historyLen mb) hist x ((x.length : Int) - (historyLen mb : Int) + (i : Int)) := by
  unfold nextHistory
  rw [entry_append_left (by simpa using h), entry_map_range _ h]

/-- "Entries `H` to `HCAP - 1` are not written" (R137). -/
theorem entry_nextHistory_unused {mb : Nat} (hist x : List Word) {i : Nat} (h : historyLen mb ≤ i) :
    entry (nextHistory mb hist x) i = entry hist i := by
  unfold nextHistory
  rw [entry_append_right (by simpa using h)]
  simp [entry, List.getD_eq_getElem?_getD]
  congr 2
  omega

/-! ## `historyOf` -/

theorem historyOf_set_same {files : List (List Word)} {c : Nat} {h : List Word} (hc : c < files.length) :
    historyOf (files.set c h) c = h := by
  simp [historyOf, List.getD_eq_getElem?_getD, hc]

theorem historyOf_set_other {files : List (List Word)} {c c' : Nat} (h : List Word) (hc : c ≠ c') :
    historyOf (files.set c h) c' = historyOf files c' := by
  simp [historyOf, List.getD_eq_getElem?_getD, hc]

theorem historyOf_mem {files : List (List Word)} {c : Nat} (hc : c < files.length) : historyOf files c ∈ files := by
  simp [historyOf, List.getD_eq_getElem?_getD, hc]

theorem historyOf_map_range (f : Nat → List Word) {n c : Nat} (h : c < n) :
    historyOf ((List.range n).map f) c = f c := by
  simp [historyOf, List.getD_eq_getElem?_getD, h]

theorem historyOf_zero {p : Params} {c : Nat} (hc : c < p.maxCh) :
    historyOf (zeroHistories p) c = List.replicate p.hcap 0 := by
  simp [historyOf, zeroHistories, List.getD_eq_getElem?_getD, hc]

/-- Files of one number that agree channel by channel are equal. -/
theorem files_eq_of_histories {fs gs : List (List Word)} (hl : fs.length = gs.length)
    (h : ∀ c, c < fs.length → historyOf fs c = historyOf gs c) : fs = gs := by
  refine List.ext_getElem hl fun c h1 h2 => ?_
  have := h c h1
  simpa [historyOf, List.getD_eq_getElem?_getD, h1, h2] using this

/-! ## The calls of one `PROC` (R165) -/

/-- The histories after engine calls on a list of channels and blocks. -/
def historiesAfter (mb : Nat) : List (Nat × List Word) → List (List Word) → List (List Word)
  | [], files => files
  | (c, x) :: rest, files => historiesAfter mb rest (files.set c (nextHistory mb (historyOf files c) x))

@[simp] theorem historiesAfter_length (mb : Nat) (l : List (Nat × List Word)) (files : List (List Word)) :
    (historiesAfter mb l files).length = files.length := by
  induction l generalizing files with
  | nil => rfl
  | cons cx l ih => simp [historiesAfter, ih]

/-- Engine calls change the histories and nothing else. -/
theorem engineCalls_state (l : List (Nat × List Word)) (s : State) :
    (engineCalls l s).2 = { s with xs := historiesAfter (tapCount s) l s.xs } := by
  induction l generalizing s with
  | nil => rfl
  | cons cx l ih =>
    obtain ⟨c, x⟩ := cx
    simp only [engineCalls, historiesAfter]
    rw [ih]
    rfl

/-- A channel without a call keeps its history. -/
theorem historiesAfter_other (mb : Nat) (l : List (Nat × List Word)) (files : List (List Word)) {c : Nat}
    (h : ∀ cx ∈ l, cx.1 ≠ c) : historyOf (historiesAfter mb l files) c = historyOf files c := by
  induction l generalizing files with
  | nil => rfl
  | cons cx l ih =>
    simp only [historiesAfter]
    rw [ih _ (fun cx' h' => h cx' (List.mem_cons_of_mem _ h')), historyOf_set_other _ (h cx List.mem_cons_self)]

/-- A channel called once has the history of that call. -/
theorem historiesAfter_once (mb : Nat) (l : List (Nat × List Word)) (files : List (List Word)) {c : Nat} {x : List Word}
    (hn : (l.map Prod.fst).Nodup) (hm : (c, x) ∈ l) (hc : c < files.length) :
    historyOf (historiesAfter mb l files) c = nextHistory mb (historyOf files c) x := by
  induction l generalizing files with
  | nil => cases hm
  | cons cx l ih =>
    obtain ⟨h1, h2⟩ := List.nodup_cons.1 hn
    simp only [historiesAfter]
    rcases List.mem_cons.1 hm with rfl | hm
    · rw [historiesAfter_other, historyOf_set_same hc]
      intro cx' h' heq
      exact h1 (List.mem_map.2 ⟨cx', h', heq⟩)
    · have hne : cx.1 ≠ c := fun heq => h1 (heq ▸ List.mem_map_of_mem (f := Prod.fst) hm)
      rw [ih _ h2 hm (by simpa using hc), historyOf_set_other _ hne]

/-- The output blocks of engine calls on distinct channels: each from the channel's own history (R165). -/
theorem engineCalls_outputs (l : List (Nat × List Word)) (s : State) (hn : (l.map Prod.fst).Nodup) :
    (engineCalls l s).1 = l.map fun cx => convolve s.bankB (tapCount s) (historyOf s.xs cx.1) cx.2 := by
  induction l generalizing s with
  | nil => rfl
  | cons cx l ih =>
    obtain ⟨c, x⟩ := cx
    obtain ⟨h1, h2⟩ := List.nodup_cons.1 hn
    simp only [engineCalls, List.map_cons]
    rw [ih _ h2]
    refine congrArg₂ _ rfl (List.map_congr_left fun cx' h' => ?_)
    have hne : c ≠ cx'.1 := fun heq => h1 (List.mem_map.2 ⟨cx', h', heq.symm⟩)
    simp [tapCount, historyOf_set_other _ hne]

/-! ## Frames in order -/

theorem mem_frameOrder {n ch f c : Nat} : (f, c) ∈ frameOrder n ch ↔ f < n ∧ c < ch := by
  simp [frameOrder]

@[simp] theorem frameOrder_length (n ch : Nat) : (frameOrder n ch).length = n * ch := by
  simp [frameOrder, List.length_flatMap]

/-- Word `f * ch + c` of the frames in order is frame `f`, channel `c`. -/
theorem frameOrder_get {n ch f c : Nat} (hf : f < n) (hc : c < ch) : (frameOrder n ch)[f * ch + c]? = some (f, c) := by
  induction n generalizing f with
  | zero => omega
  | succ n ih =>
    have hsucc : frameOrder (n + 1) ch = frameOrder n ch ++ (List.range ch).map fun c => (n, c) := by
      simp [frameOrder, List.range_succ, List.flatMap_append]
    rw [hsucc]
    by_cases h : f < n
    · have hlt : f * ch + c < n * ch := by
        calc f * ch + c < f * ch + ch := by omega
          _ = (f + 1) * ch := by rw [Nat.succ_mul]
          _ ≤ n * ch := Nat.mul_le_mul_right _ h
      rw [List.getElem?_append_left (by simpa using hlt)]
      exact ih h
    · have hfn : f = n := by omega
      subst hfn
      rw [List.getElem?_append_right (by simp)]
      simp [hc]

/-- Deinterleaving words read in frame order (R164). -/
theorem entry_deinterleave {ch n c f : Nat} {words : List Word} (hf : f < n) :
    entry (deinterleave ch n c words) f = entry words (f * ch + c) := entry_map_range _ hf

end Sys2Proof.Machine
end

