-- ==== Sys2Proof/Laws/Addresses.lean ====
section
/-! SUPPORT. The addresses of the buffers: as numbers modulo 2^64, and when two words of one buffer are apart (R76 to R78). -/

namespace Sys2Proof.Machine

/-- A buffer address as a number (R78). -/
theorem wordAddr_toNat (base : Word) (i : Nat) : (wordAddr base i).toNat = (base.toNat + 8 * i) % 2 ^ 64 := by
  simp only [wordAddr, BitVec.toNat_add, BitVec.toNat_ofNat]
  omega

theorem byteAddr_wordAddr (base : Word) (i k : Nat) : byteAddr (wordAddr base i) k = (base.toNat + 8 * i + k) % 2 ^ 64 := by
  simp only [byteAddr, BitVec.toNat_add, wordAddr_toNat, BitVec.toNat_ofNat]
  omega

/-- Two words of one buffer that does not wrap onto itself are apart. -/
theorem wordAddr_apart (base : Word) {i j : Nat} (hi : i < 2 ^ 61) (hj : j < 2 ^ 61) (hne : i ≠ j) :
    WordsApart (wordAddr base i) (wordAddr base j) := by
  intro k l hk hl h
  rw [byteAddr_wordAddr, byteAddr_wordAddr] at h
  have := base.isLt
  omega

/-- Frame and channel are determined by the index of their word. -/
theorem frame_index_inj {ch f c f' c' : Nat} (hc : c < ch) (hc' : c' < ch) (h : f * ch + c = f' * ch + c') :
    f = f' ∧ c = c' := by
  have hf : f = f' := by
    have h1 : (f * ch + c) / ch = f := by
      rw [Nat.mul_comm, Nat.mul_add_div (by omega), Nat.div_eq_of_lt hc, Nat.add_zero]
    have h2 : (f' * ch + c') / ch = f' := by
      rw [Nat.mul_comm, Nat.mul_add_div (by omega), Nat.div_eq_of_lt hc', Nat.add_zero]
    rw [← h1, ← h2, h]
  subst hf
  exact ⟨rfl, by omega⟩

/-- The index of a frame's word is below the words of the frames. -/
theorem frame_index_lt {n ch f c : Nat} (hf : f < n) (hc : c < ch) : f * ch + c < n * ch := by
  calc f * ch + c < f * ch + ch := by omega
    _ = (f + 1) * ch := by rw [Nat.succ_mul]
    _ ≤ n * ch := Nat.mul_le_mul_right _ hf

theorem wordsApart_symm {a b : Word} (h : WordsApart a b) : WordsApart b a :=
  fun i j hi hj he => h j i hj hi he.symm

/-- The frames in order name each frame and channel once. -/
theorem frameOrder_nodup (n ch : Nat) : (frameOrder n ch).Nodup := by
  induction n with
  | zero => simp [frameOrder]
  | succ n ih =>
    have hsucc : frameOrder (n + 1) ch = frameOrder n ch ++ (List.range ch).map fun c => (n, c) := by
      simp [frameOrder, List.range_succ, List.flatMap_append]
    rw [hsucc, List.nodup_append]
    refine ⟨ih, ?_, ?_⟩
    · exact List.Nodup.map (fun a b h => (Prod.mk.inj h).2) List.nodup_range
    · rintro ⟨f, c⟩ h ⟨f', c'⟩ h' heq
      have h1 := (mem_frameOrder.1 h).1
      obtain ⟨_, _, h2⟩ := List.mem_map.1 h'
      have := congrArg Prod.fst heq
      have := congrArg Prod.fst h2
      simp at *
      omega

/-- Writes to the words of one buffer, each frame and channel once, are pairwise apart. -/
theorem frame_writes_apart (base : Word) (f0 n ch : Nat) (v : Nat × Nat → Word) (hlt : (f0 + n) * ch ≤ 2 ^ 61) :
    ((frameOrder n ch).map fun fc => (wordAddr base ((f0 + fc.1) * ch + fc.2), v fc)).Pairwise
      fun w w' => WordsApart w'.1 w.1 := by
  rw [List.pairwise_map]
  refine List.Pairwise.imp_of_mem ?_ (frameOrder_nodup n ch)
  rintro ⟨f, c⟩ ⟨f', c'⟩ h h' hne
  obtain ⟨hf, hc⟩ := mem_frameOrder.1 h
  obtain ⟨hf', hc'⟩ := mem_frameOrder.1 h'
  have h1 : (f0 + f) * ch + c < (f0 + n) * ch := frame_index_lt (by omega) hc
  have h2 : (f0 + f') * ch + c' < (f0 + n) * ch := frame_index_lt (by omega) hc'
  refine wordAddr_apart base (Nat.lt_of_lt_of_le h2 hlt) (Nat.lt_of_lt_of_le h1 hlt) ?_
  intro heq
  obtain ⟨hff, hcc⟩ := frame_index_inj hc' hc heq
  exact hne (by rw [Prod.mk.injEq]; omega)

/-- A word at least 8 bytes below another one, neither wrapping past the top, is apart from it, and the other from it. -/
theorem wordsApart_of_lt {a b : Word} (h : a.toNat + 8 ≤ b.toNat) (hb : b.toNat + 8 ≤ 2 ^ 64) :
    WordsApart a b ∧ WordsApart b a := by
  have key : ∀ i j, i < 8 → j < 8 → byteAddr a i ≠ byteAddr b j := by
    intro i j hi hj
    unfold byteAddr
    simp only [BitVec.toNat_add, BitVec.toNat_ofNat]
    omega
  exact ⟨key, fun i j hi hj h => key j i hj hi h.symm⟩

end Sys2Proof.Machine
end

