-- ==== Sys2Proof/Laws/Arith.lean ====
section
/-! SUPPORT. Laws of the binary64 arithmetic: the classes of words, what packing gives, the two directions of a rounding,
and that every NaN made from free bits is a NaN. -/

namespace Sys2Proof.Machine

/-! ## Classes of words -/

/-- A word is a NaN, an infinity or finite, and only one of them; a zero is finite. -/
theorem f64_classes (w : Word) :
    (f64IsNaN w = true ∧ f64IsInf w = false ∧ f64IsFinite w = false ∧ f64IsZero w = false) ∨
    (f64IsNaN w = false ∧ f64IsInf w = true ∧ f64IsFinite w = false ∧ f64IsZero w = false) ∨
    (f64IsNaN w = false ∧ f64IsInf w = false ∧ f64IsFinite w = true) := by
  have hp : 0 < f64InfBits := by decide
  simp only [f64IsNaN, f64IsInf, f64IsFinite, f64IsZero, decide_eq_true_eq, decide_eq_false_iff_not]
  rcases lt_trichotomy (f64Bits w) f64InfBits with h | h | h <;> omega

theorem not_nan_or_inf_of_finite {w : Word} (h : f64IsFinite w = true) : f64IsNaN w = false ∧ f64IsInf w = false := by
  rcases f64_classes w with ⟨_, _, hf, _⟩ | ⟨_, _, hf, _⟩ | ⟨h1, h2, _⟩
  · simp [hf] at h
  · simp [hf] at h
  · exact ⟨h1, h2⟩

/-- Changing the sign bit changes the sign and nothing else. -/
theorem f64_negate (w : Word) :
    f64Bits (w ^^^ 0x8000000000000000) = f64Bits w ∧ f64Neg (w ^^^ 0x8000000000000000) = !f64Neg w := by
  constructor
  · unfold f64Bits
    rw [BitVec.toNat_xor, Nat.xor_mod_two_pow]
    simp
  · unfold f64Neg
    rw [BitVec.msb_xor, show (0x8000000000000000 : Word).msb = true by decide]
    simp

/-! ## Packing -/

theorem f64Pack_toNat (neg : Bool) (b : Nat) : (f64Pack neg b).toNat = (if neg then 2 ^ 63 else 0) + min b f64InfBits := by
  have h : (if neg then 2 ^ 63 else 0) + min b f64InfBits < 2 ^ 64 := by unfold f64InfBits; split <;> omega
  unfold f64Pack
  rw [BitVec.toNat_ofNat, Nat.mod_eq_of_lt h]

@[simp] theorem f64Bits_f64Pack (neg : Bool) (b : Nat) : f64Bits (f64Pack neg b) = min b f64InfBits := by
  unfold f64Bits
  rw [f64Pack_toNat]
  unfold f64InfBits
  split <;> omega

@[simp] theorem f64Neg_f64Pack (neg : Bool) (b : Nat) : f64Neg (f64Pack neg b) = neg := by
  unfold f64Neg
  rw [BitVec.msb_eq_decide, f64Pack_toNat]
  unfold f64InfBits
  cases neg <;> simp

@[simp] theorem f64IsNaN_f64Pack (neg : Bool) (b : Nat) : f64IsNaN (f64Pack neg b) = false := by
  simp [f64IsNaN]

/-- A finite word is put together again from its sign and its bits. -/
theorem f64Pack_of_finite {w : Word} (h : f64IsFinite w = true) : f64Pack (f64Neg w) (f64Bits w) = w := by
  apply BitVec.eq_of_toNat_eq
  rw [f64Pack_toNat]
  have h1 : f64Bits w < f64InfBits := by simpa [f64IsFinite] using h
  have h2 := w.isLt
  have h3 : f64Neg w = decide (2 ^ 63 ≤ w.toNat) := by unfold f64Neg; rw [BitVec.msb_eq_decide]
  rw [Nat.min_eq_left (by omega), h3]
  unfold f64Bits
  by_cases h : 2 ^ 63 ≤ w.toNat
  · rw [decide_eq_true h, if_pos rfl]; omega
  · rw [decide_eq_false h, if_neg (by simp)]; omega

/-! ## Rounding -/

/-- Rounding goes down when the remainder is below the half, or at it with an even quotient; else up. -/
theorem roundHalfEven_cases (v d : Nat) :
    (roundHalfEven v d = v / d ∧ 2 * (v % d) ≤ d ∧ (2 * (v % d) = d → (v / d) % 2 = 0)) ∨
    (roundHalfEven v d = v / d + 1 ∧ d ≤ 2 * (v % d) ∧ (2 * (v % d) = d → (v / d) % 2 = 1)) := by
  unfold roundHalfEven
  dsimp only
  split
  · right; refine ⟨rfl, by omega, by omega⟩
  · left; refine ⟨rfl, by omega, by omega⟩

/-- The size of what is rounded, in units of the last place kept: below 2^53, and from 2^52 on unless the result is
subnormal. -/
theorem roundBits_binade (u v : Nat) :
    v < 2 ^ 53 * 2 ^ (Nat.log2 v - 52 - u + u) ∧
    (Nat.log2 v - 52 - u ≠ 0 → 2 ^ 52 * 2 ^ (Nat.log2 v - 52 - u + u) ≤ v) := by
  constructor
  · rw [← pow_add]
    by_cases hv : v = 0
    · subst hv; positivity
    · exact (Nat.log2_lt hv).1 (by omega)
  · intro hk
    rw [← pow_add]
    have hv : v ≠ 0 := by rintro rfl; simp at hk
    exact (Nat.le_log2 hv).1 (by omega)

@[simp] theorem roundBits_zero (u : Nat) : roundBits u 0 = 0 := by simp [roundBits, roundHalfEven]

/-! ## NaNs -/

/-- Whatever the free bits, the result is a NaN. -/
theorem f64NaNOf_isNaN (w : Word) : f64IsNaN (f64NaNOf w) = true := by
  unfold f64NaNOf
  dsimp only
  split
  · assumption
  · rename_i h
    generalize hx : w ||| 0x7FF0000000000000 = x at *
    have hge : f64InfBits ≤ f64Bits x := by
      have h63 : f64Bits x = (w.toNat % 2 ^ 63) ||| f64InfBits := by
        unfold f64Bits
        rw [← hx, BitVec.toNat_or, Nat.or_mod_two_pow]; rfl
      rw [h63]; exact Nat.right_le_or
    have heq : f64Bits x = f64InfBits := by simp only [f64IsNaN, decide_eq_true_eq] at h; omega
    have hor : f64Bits (x ||| 1) = f64InfBits ||| 1 := by
      rw [← heq]; unfold f64Bits
      rw [BitVec.toNat_or, Nat.or_mod_two_pow]; rfl
    unfold f64IsNaN
    rw [hor]; decide

end Sys2Proof.Machine
end

