-- ==== Sys2Proof/Laws/Commands.lean ====
section
/-! SUPPORT. What `FILT` and `PROC` answer once every word they access is backed, in one equation each, with the lists of
words they write. -/

namespace Sys2Proof.Machine

/-! ## `FILT` -/

/-- The block `FILT` reads. -/
def filtInput (s : State) (n : Nat) : List Word := (List.range n).map fun i => Memory.readWord s.mem (finAddr s i)

/-- The block `FILT` writes. -/
def filtOutput (s : State) (c n : Nat) : List Word :=
  convolve s.bankB (tapCount s) (historyOf s.xs c) (filtInput s n)

theorem wordsAt_filtReads (s : State) (n : Nat) : wordsAt s.mem (filtReads s n) = filtInput s n := by
  simp [wordsAt, filtReads, filtInput]

/-- `FILT` once its tests have passed and its blocks are backed. -/
theorem filtBlock_backed {s : State} {c n : Nat} (hin : ∀ i, i < n → backedAt s.params (finAddr s i) = true)
    (hout : ∀ i, i < n → backedAt s.params (foutAddr s i) = true) :
    filtBlock c n s = .next { s with
      xs := s.xs.set c (nextHistory (tapCount s) (historyOf s.xs c) (filtInput s n))
      mem := Memory.writeWords s.mem (filtWrites s n (filtOutput s c n))
      trace := s.trace ++ readEvents s.mem (filtReads s n) ++ writeEvents (filtWrites s n (filtOutput s c n)) } := by
  have hR : AllBacked s.params (filtReads s n) := by
    intro a ha
    simp only [filtReads, List.mem_map, List.mem_range] at ha
    obtain ⟨i, hi, rfl⟩ := ha
    exact hin i hi
  have hW : ∀ y (t : State), t.params = s.params → AllBacked t.params ((filtWrites s n y).map Prod.fst) := by
    intro y t ht a ha
    simp only [filtWrites, List.map_map, List.mem_map, List.mem_range] at ha
    obtain ⟨i, hi, rfl⟩ := ha
    rw [ht]
    exact hout i hi
  unfold filtBlock
  rw [readAll_backed _ _ hR]
  simp only [engineCall, wordsAt_filtReads]
  have hw := fun y t ht => writeAll_backed (filtWrites s n y) t (hW y t ht)
  rw [hw] <;> rfl

theorem exec_filt_ready {s : State} {c n : Nat} (h : FiltReady s c n) : exec (.filt c n) s = filtBlock c n s := by
  have hb : ¬ s.params.blockLen < n := Nat.not_lt.2 h.count
  have hr : filtRejected s c = false := by
    obtain ⟨h1, h2, h3, _⟩ := h
    simp [filtRejected, h1, h2, h3]
  simp [exec, execFilt, hr, hb]

/-! ## `PROC` -/

/-- The engine calls of a `PROC` that takes `n` frames: each channel with its block. -/
def procCalls (s : State) (n : Nat) : List (Nat × List Word) :=
  (List.range s.numCh.toNat).map fun c => (c, sourceBlock s s.nextFrame.toNat n c)

/-- The words a `PROC` writes: the destination frames, then the transport block. -/
def procWrites (s : State) (nReq n : Nat) : List (Word × Word) :=
  ((frameOrder n s.numCh.toNat).map fun fc =>
    (dstAddr s (s.nextFrame.toNat + fc.1) fc.2, entry (outputBlock s n fc.2) fc.1)) ++
  ((frameOrder nReq s.numCh.toNat).map fun fc =>
    (outAddr s fc.1 fc.2, if fc.1 < n then entry (outputBlock s n fc.2) fc.1 else 0))

theorem procCalls_channels (s : State) (n : Nat) : (procCalls s n).map Prod.fst = List.range s.numCh.toNat := by
  simp [procCalls, Function.comp_def]

/-- Deinterleaving the words read gives the source blocks (R164). -/
theorem deinterleave_source {s : State} {n c : Nat} (hc : c < s.numCh.toNat) :
    deinterleave s.numCh.toNat n c (wordsAt s.mem (procReads s n)) = sourceBlock s s.nextFrame.toNat n c := by
  unfold deinterleave sourceBlock
  apply List.map_congr_left
  intro f hf
  have hf : f < n := by simpa using hf
  have := frameOrder_get hf hc
  simp [entry, wordsAt, procReads, List.getD_eq_getElem?_getD, this]

/-- The words written, given the output blocks (R166, R167). -/
theorem writes_of_outputs (s : State) (nReq n : Nat) :
    dstWrites s n ((List.range s.numCh.toNat).map (outputBlock s n)) ++
      outWrites s nReq n ((List.range s.numCh.toNat).map (outputBlock s n)) = procWrites s nReq n := by
  have hs : ∀ f c, c < s.numCh.toNat →
      outputSample ((List.range s.numCh.toNat).map (outputBlock s n)) f c = entry (outputBlock s n c) f := by
    intro f c hc
    unfold outputSample
    rw [historyOf_map_range _ hc]
  unfold dstWrites outWrites procWrites
  congr 1 <;>
    (apply List.map_congr_left
     rintro ⟨f, c⟩ h
     simp only [hs f c (mem_frameOrder.1 h).2])

/-- `PROC` in RUNNING once its frames are backed: the six steps before the end test, then `advance`. -/
theorem procRunning_backed {s : State} {nReq : Nat} (h : ProcReady s nReq) :
    procRunning nReq s = .next (advance (effectiveLen s nReq) { s with
      xs := historiesAfter (tapCount s) (procCalls s (effectiveLen s nReq)) s.xs
      mem := Memory.writeWords s.mem (procWrites s nReq (effectiveLen s nReq))
      trace := s.trace ++ readEvents s.mem (procReads s (effectiveLen s nReq)) ++
        writeEvents (procWrites s nReq (effectiveLen s nReq)) }) := by
  generalize hn : effectiveLen s nReq = n
  have hR : AllBacked s.params (procReads s n) := by
    intro a ha
    simp only [procReads, List.mem_map, Prod.exists] at ha
    obtain ⟨f, c, hi, rfl⟩ := ha
    have := mem_frameOrder.1 hi
    exact h.source f c (hn ▸ this.1) this.2
  have hW : ∀ t : State, t.params = s.params → AllBacked t.params ((procWrites s nReq n).map Prod.fst) := by
    intro t ht a ha
    rw [ht]
    simp only [procWrites, List.map_append, List.map_map, List.mem_append, List.mem_map, Prod.exists] at ha
    rcases ha with ⟨f, c, hi, rfl⟩ | ⟨f, c, hi, rfl⟩
    · have := mem_frameOrder.1 hi
      exact h.dest f c (hn ▸ this.1) this.2
    · have := mem_frameOrder.1 hi
      exact h.out f c this.1 this.2
  have hcalls : (List.range s.numCh.toNat).map
      (fun c => (c, deinterleave s.numCh.toNat n c (wordsAt s.mem (procReads s n)))) = procCalls s n := by
    apply List.map_congr_left
    intro c hc
    rw [deinterleave_source (by simpa using hc)]
  have hout : ∀ t : State, t.bankB = s.bankB → t.numB = s.numB → t.xs = s.xs →
      (engineCalls (procCalls s n) t).1 = (List.range s.numCh.toNat).map (outputBlock s n) := by
    intro t h1 h2 h3
    rw [engineCalls_outputs _ _ (by rw [procCalls_channels]; exact List.nodup_range)]
    simp only [procCalls, List.map_map, tapCount, h1, h2, h3]
    rfl
  unfold procRunning
  simp only [hn, readAll_backed _ _ hR, hcalls]
  simp only [hout { s with trace := s.trace ++ readEvents s.mem (procReads s n) } rfl rfl rfl, engineCalls_state,
    writes_of_outputs]
  have hw := fun t ht => writeAll_backed (procWrites s nReq n) t (hW t ht)
  rw [hw] <;> rfl

theorem exec_proc_ready {s : State} {nReq : Nat} (h : ProcReady s nReq) : exec (.proc nReq) s = procRunning nReq s := by
  have hb : ¬ s.params.blockLen < nReq := Nat.not_lt.2 h.count
  simp [exec, execProc, hb, h.running]

/-- Steps 6 and 7, when at most the frames left are taken: the new `NEXT_FRAME`, and the stream's end exactly when it
reaches `TOTAL_FRAME`. -/
theorem advance_within {n : Nat} {s : State} (h : s.nextFrame.toNat + n ≤ s.totalFrame.toNat) :
    (s.nextFrame + BitVec.ofNat 64 n).toNat = s.nextFrame.toNat + n ∧
    advance n s = if s.nextFrame.toNat + n = s.totalFrame.toNat
      then State.finishStream { s with nextFrame := s.nextFrame + BitVec.ofNat 64 n }
      else { s with nextFrame := s.nextFrame + BitVec.ofNat 64 n } := by
  have e : (s.nextFrame + BitVec.ofNat 64 n).toNat = s.nextFrame.toNat + n := by
    have := s.totalFrame.isLt
    simp only [BitVec.toNat_add, BitVec.toNat_ofNat]
    omega
  refine ⟨e, ?_⟩
  have : s.totalFrame ≤ s.nextFrame + BitVec.ofNat 64 n ↔ s.nextFrame.toNat + n = s.totalFrame.toNat := by
    rw [BitVec.le_def, e]
    omega
  simp only [advance, this]

/-- The words a `PROC` outside a stream writes: silence. -/
def silenceWrites (s : State) (nReq : Nat) : List (Word × Word) :=
  (frameOrder nReq s.numCh.toNat).map fun fc => (outAddr s fc.1 fc.2, 0)

/-- `PROC` in IDLE or DONE once the transport block is backed. -/
theorem procSilence_backed {s : State} {nReq : Nat}
    (h : ∀ g c, g < nReq → c < s.numCh.toNat → backedAt s.params (outAddr s g c) = true) :
    procSilence nReq s = .next { s with
      mem := Memory.writeWords s.mem (silenceWrites s nReq)
      trace := s.trace ++ writeEvents (silenceWrites s nReq) } := by
  have hW : AllBacked s.params ((silenceWrites s nReq).map Prod.fst) := by
    intro a ha
    simp only [silenceWrites, List.map_map, List.mem_map, Prod.exists] at ha
    obtain ⟨f, c, hi, rfl⟩ := ha
    have := mem_frameOrder.1 hi
    exact h f c this.1 this.2
  have e : outWrites s nReq 0 [] = silenceWrites s nReq := by simp [outWrites, silenceWrites]
  rw [procSilence, e, writeAll_backed _ _ hW]

theorem exec_proc_silence {s : State} {nReq : Nat} (h : SilenceReady s nReq) :
    exec (.proc nReq) s = procSilence nReq s := by
  have hb : ¬ s.params.blockLen < nReq := Nat.not_lt.2 h.count
  have hr := h.not_running
  simp only [exec, execProc, hb, if_false]
  split <;> simp_all

end Sys2Proof.Machine
end

