-- ==== Sys2Proof/Laws/Decode.lean ====
section
/-! SUPPORT. The fields of a packed command word, and the decoder said by fields. -/

namespace Sys2Proof

theorem packFields_toNat {opc ch cnt : Nat} (ho : opc < 2 ^ 8) (hc : ch < 2 ^ 8) (hn : cnt < 2 ^ 32) :
    (packFields opc ch cnt).toNat = opc * 2 ^ 56 + ch * 2 ^ 48 + cnt := by
  simp only [packFields, BitVec.toNat_append, BitVec.toNat_ofNat, Nat.mod_eq_of_lt ho, Nat.mod_eq_of_lt hc,
    Nat.mod_eq_of_lt hn]
  have e1 : opc <<< 8 ||| ch = opc * 2 ^ 8 + ch := by
    rw [Nat.shiftLeft_eq, Nat.mul_comm, Nat.two_pow_add_eq_or_of_lt hc]
  rw [e1]
  have e2 : (opc * 2 ^ 8 + ch) <<< 16 ||| BitVec.toNat (0 : BitVec 16) = (opc * 2 ^ 8 + ch) * 2 ^ 16 := by
    rw [show BitVec.toNat (0 : BitVec 16) = 0 from rfl, Nat.or_zero, Nat.shiftLeft_eq]
  rw [e2]
  rw [Nat.shiftLeft_eq, Nat.mul_comm _ (2 ^ 32), ← Nat.two_pow_add_eq_or_of_lt hn]
  ring

theorem opcField_eq (w : Word) : opcField w = w.toNat / 2 ^ 56 % 2 ^ 8 := by
  simp [opcField, BitVec.extractLsb'_toNat, Nat.shiftRight_eq_div_pow]

theorem chField_eq (w : Word) : chField w = w.toNat / 2 ^ 48 % 2 ^ 8 := by
  simp [chField, BitVec.extractLsb'_toNat, Nat.shiftRight_eq_div_pow]

theorem rsvField_eq (w : Word) : rsvField w = w.toNat / 2 ^ 32 % 2 ^ 16 := by
  simp [rsvField, BitVec.extractLsb'_toNat, Nat.shiftRight_eq_div_pow]

theorem cntField_eq (w : Word) : cntField w = w.toNat % 2 ^ 32 := by
  simp [cntField, BitVec.extractLsb'_toNat, Nat.shiftRight_eq_div_pow]

/-- A word is its four fields (R101). -/
theorem word_of_fields (w : Word) :
    w.toNat = opcField w * 2 ^ 56 + chField w * 2 ^ 48 + rsvField w * 2 ^ 32 + cntField w := by
  have := w.isLt
  rw [opcField_eq, chField_eq, rsvField_eq, cntField_eq]
  omega

theorem opcField_packFields {opc ch cnt : Nat} (ho : opc < 2 ^ 8) (hc : ch < 2 ^ 8) (hn : cnt < 2 ^ 32) :
    opcField (packFields opc ch cnt) = opc := by
  rw [opcField_eq, packFields_toNat ho hc hn]; omega

theorem chField_packFields {opc ch cnt : Nat} (ho : opc < 2 ^ 8) (hc : ch < 2 ^ 8) (hn : cnt < 2 ^ 32) :
    chField (packFields opc ch cnt) = ch := by
  rw [chField_eq, packFields_toNat ho hc hn]; omega

theorem rsvField_packFields {opc ch cnt : Nat} (ho : opc < 2 ^ 8) (hc : ch < 2 ^ 8) (hn : cnt < 2 ^ 32) :
    rsvField (packFields opc ch cnt) = 0 := by
  rw [rsvField_eq, packFields_toNat ho hc hn]; omega

theorem cntField_packFields {opc ch cnt : Nat} (ho : opc < 2 ^ 8) (hc : ch < 2 ^ 8) (hn : cnt < 2 ^ 32) :
    cntField (packFields opc ch cnt) = cnt := by
  rw [cntField_eq, packFields_toNat ho hc hn]; omega

/-- What a decoded command says of the fields (R105). -/
theorem decode_ok_fields {w : Word} {i : Instr} (h : decode w = .ok i) :
    rsvField w = 0 ∧
    ((opcField w = 1 ∧ chField w = 0 ∧ cntField w = 0 ∧ i = .load) ∨
     (opcField w = 2 ∧ chField w = 0 ∧ cntField w = 0 ∧ i = .start) ∨
     (opcField w = 3 ∧ chField w = 0 ∧ i = .proc (cntField w)) ∨
     (opcField w = 4 ∧ i = .filt (chField w) (cntField w))) := by
  unfold decode at h
  split at h
  · cases h
  rename_i hr
  refine ⟨by simpa using hr, ?_⟩
  split at h
  · rename_i ho
    unfold decodeZ at h
    split at h; · cases h
    split at h; · cases h
    cases h
    exact .inl ⟨ho, by simp_all, by simp_all, rfl⟩
  · rename_i ho
    unfold decodeZ at h
    split at h; · cases h
    split at h; · cases h
    cases h
    exact .inr (.inl ⟨ho, by simp_all, by simp_all, rfl⟩)
  · rename_i ho
    unfold decodeN at h
    split at h; · cases h
    cases h
    exact .inr (.inr (.inl ⟨ho, by simp_all, rfl⟩))
  · rename_i ho
    cases h
    exact .inr (.inr (.inr ⟨ho, rfl⟩))
  · cases h

/-! ## The masks of the opcode map (R104) -/

/-- The mask of format N keeps bits 63:32. -/
theorem and_maskN (w : Word) : w &&& 0xFFFFFFFF00000000 = w.extractLsb' 32 32 ++ (0 : BitVec 32) := by
  apply BitVec.eq_of_getLsbD_eq
  intro i hi
  interval_cases i <;>
    simp only [BitVec.getLsbD_and, BitVec.getLsbD_append, BitVec.getLsbD_extractLsb'] <;> simp

/-- The mask of format CN keeps `OPC` and `RSV`. -/
theorem and_maskCN (w : Word) :
    w &&& 0xFF00FFFF00000000 = w.extractLsb' 56 8 ++ (0 : BitVec 8) ++ w.extractLsb' 32 16 ++ (0 : BitVec 32) := by
  apply BitVec.eq_of_getLsbD_eq
  intro i hi
  interval_cases i <;>
    simp only [BitVec.getLsbD_and, BitVec.getLsbD_append, BitVec.getLsbD_extractLsb'] <;> simp

theorem and_maskN_toNat (w : Word) : (w &&& 0xFFFFFFFF00000000).toNat = w.toNat / 2 ^ 32 * 2 ^ 32 := by
  rw [and_maskN, BitVec.toNat_append, show BitVec.toNat (0 : BitVec 32) = 0 from rfl, Nat.or_zero, Nat.shiftLeft_eq, BitVec.extractLsb'_toNat,
    Nat.shiftRight_eq_div_pow]
  have := w.isLt
  omega

theorem and_maskCN_toNat (w : Word) :
    (w &&& 0xFF00FFFF00000000).toNat = opcField w * 2 ^ 56 + rsvField w * 2 ^ 32 := by
  have hr : rsvField w < 2 ^ 16 := (w.extractLsb' 32 16).isLt
  rw [and_maskCN]
  simp only [BitVec.toNat_append, show BitVec.toNat (0 : BitVec 32) = 0 from rfl, show BitVec.toNat (0 : BitVec 8) = 0 from rfl,
    Nat.or_zero, Nat.shiftLeft_eq]
  change (opcField w * 2 ^ 8 * 2 ^ 16 ||| rsvField w) * 2 ^ 32 = _
  rw [Nat.mul_comm _ (2 ^ 16), ← Nat.two_pow_add_eq_or_of_lt hr]
  ring

end Sys2Proof
end

