-- ==== Sys2Proof/Laws/PerInstr.lean ====
section
/-! SUPPORT. Statements for all commands, one lemma per constructor: the word of a command is covered by its own row of the
opcode map and by no other (spec/30_encoding.md R104). -/

namespace Sys2Proof.Laws.OwnRow

/-- The word of a well-formed command is covered by exactly the row of its mnemonic (R104). -/
def Statement (i : Instr) : Prop :=
  i.wellFormed = true → ∀ r ∈ opcodeMap, (r.covers (encode i) = true ↔ r.mnemonic = i.mnemonic)

theorem load : Statement .load := by unfold Statement; decide

theorem start : Statement .start := by unfold Statement; decide

/-- A packed word against the four rows, by its fields. -/
theorem rows_of_fields {opc ch cnt : Nat} {m : String} (ho : opc < 2 ^ 8) (hc : ch < 2 ^ 8) (hn : cnt < 2 ^ 32)
    (hm : (opc = 3 ∧ ch = 0 ∧ m = "PROC") ∨ (opc = 4 ∧ m = "FILT")) :
    ∀ r ∈ opcodeMap, (r.covers (packFields opc ch cnt) = true ↔ r.mnemonic = m) := by
  have ht := packFields_toNat ho hc hn
  have hN := and_maskN_toNat (packFields opc ch cnt)
  have hCN := and_maskCN_toNat (packFields opc ch cnt)
  rw [opcField_packFields ho hc hn, rsvField_packFields ho hc hn] at hCN
  rw [ht] at hN
  have hall : packFields opc ch cnt &&& 0xFFFFFFFFFFFFFFFF = packFields opc ch cnt := BitVec.and_allOnes
  intro r hr
  simp only [opcodeMap, List.mem_cons, List.not_mem_nil, or_false] at hr
  rcases hr with rfl | rfl | rfl | rfl <;> simp only [OpcodeRow.covers, decide_eq_true_eq, ← BitVec.toNat_inj]
  · rw [hall, ht]
    rcases hm with ⟨rfl, rfl, rfl⟩ | ⟨rfl, rfl⟩ <;> simp <;> omega
  · rw [hall, ht]
    rcases hm with ⟨rfl, rfl, rfl⟩ | ⟨rfl, rfl⟩ <;> simp <;> omega
  · rw [hN]
    rcases hm with ⟨rfl, rfl, rfl⟩ | ⟨rfl, rfl⟩ <;> simp <;> omega
  · rw [hCN]
    rcases hm with ⟨rfl, rfl, rfl⟩ | ⟨rfl, rfl⟩ <;> simp

theorem proc (nReq : Nat) : Statement (.proc nReq) := by
  intro h
  exact rows_of_fields (by decide) (by decide) (by simpa [Instr.wellFormed] using h) (.inl ⟨rfl, rfl, rfl⟩)

theorem filt (c n : Nat) : Statement (.filt c n) := by
  intro h
  obtain ⟨hc, hn⟩ : c < 2 ^ 8 ∧ n < 2 ^ 32 := by simpa [Instr.wellFormed] using h
  exact rows_of_fields (by decide) hc hn (.inr ⟨rfl, rfl⟩)

end Sys2Proof.Laws.OwnRow
end

