-- ==== Sys2Proof/Tests/Slice0.lean ====
section
/-! SUPPORT. The model's own tests. Words and expected values are those of spec/95_test_vectors.md (V<n>, section 6) or worked
by hand from the rule named; then one witness for the hypotheses of each obligation. -/

namespace Sys2Proof.Tests

open Sys2Proof Sys2Proof.Machine

/-! ## Well-formedness refuses what has no encoding (R103, R113, R114) -/

theorem test_proc_count_too_wide : (Instr.proc (2 ^ 32)).wellFormed = false := by decide
theorem test_filt_channel_too_wide : (Instr.filt 256 0).wellFormed = false := by decide
theorem test_filt_count_too_wide : (Instr.filt 0 (2 ^ 32)).wellFormed = false := by decide
theorem test_line_command_ill_formed : (Line.command (.proc (2 ^ 32))).wellFormed = false := by decide
theorem test_line_setb_index_too_wide : (Line.setB 65536 0).wellFormed = false := by decide
theorem test_line_seta_index_too_wide : (Line.setA 65536 0).wellFormed = false := by decide
theorem test_line_getb_index_too_wide : (Line.getB 65536).wellFormed = false := by decide
theorem test_line_geta_index_too_wide : (Line.getA 65536).wellFormed = false := by decide
theorem test_line_getx_channel_too_wide : (Line.getX 256 0).wellFormed = false := by decide
theorem test_line_getx_index_too_wide : (Line.getX 0 65536).wellFormed = false := by decide
theorem test_line_gety_channel_too_wide : (Line.getY 256 0).wellFormed = false := by decide
theorem test_line_gety_index_too_wide : (Line.getY 0 65536).wellFormed = false := by decide
theorem test_widest_operands_are_well_formed :
    (Instr.filt 255 (2 ^ 32 - 1)).wellFormed = true ∧ (Line.getY 255 65535).wellFormed = true := by decide

/-! ## Decoding (section 6 of the vectors; bits written out from R101 and R104) -/

theorem test_decode_load : decode 0b0000000100000000000000000000000000000000000000000000000000000000 = .ok .load := by decide
theorem test_decode_start : decode 0b0000001000000000000000000000000000000000000000000000000000000000 = .ok .start := by decide
theorem test_decode_proc : decode 0b0000001100000000000000000000000000000000000000000000000100000000 = .ok (.proc 256) := by decide
theorem test_decode_filt : decode 0b0000010000000001000000000000000000000000000000000000000000000010 = .ok (.filt 1 2) := by decide
theorem test_decode_all_zero : decode 0 = .error .noSuchOpcode := by decide
theorem test_decode_opcode_five : decode 0x0500000000000000 = .error .noSuchOpcode := by decide
theorem test_decode_load_with_count : decode 0x0100000000000001 = .error .countNotZero := by decide
theorem test_decode_start_with_channel : decode 0x0201000000000000 = .error .channelNotZero := by decide
theorem test_decode_proc_with_channel : decode 0x0301000000000000 = .error .channelNotZero := by decide
theorem test_decode_reserved_low_bit : decode 0x0300000100000000 = .error .reservedNotZero := by decide
theorem test_decode_reserved_high_bit : decode 0x0400800000000001 = .error .reservedNotZero := by decide
theorem test_encode_filt : encode (.filt 1 2) = 0x0401000000000002 := by decide
theorem test_encode_proc : encode (.proc 1024) = 0x0300000000000400 := by decide
theorem test_table_word : decodeTableWord 64 0x04FF000000000001 = some (.filt 255 1) := by decide
theorem test_table_word_refused : decodeTableWord 64 3 = none := by decide
theorem test_table_mnemonics : opcodeMap.map OpcodeRow.mnemonic =
    [Instr.load, .start, .proc 0, .filt 0 0].map Instr.mnemonic := by decide
theorem test_register_offsets : indexOfOffset 0x78 = some Reg.data.index ∧ indexOfOffset 0x7C = none ∧
    indexOfOffset 0x100 = none ∧ regOffset Reg.cmd.index = 0 := by decide
theorem test_register_names : ∀ i : Fin 16, (Reg.ofIndex (BitVec.ofNat 5 i.val)).index = BitVec.ofNat 5 i.val := by decide

/-! ## Arithmetic (section 2 and V1 to V16) -/

theorem test_add_rounds_up : fadd64 0x3FB999999999999A 0x3FC999999999999A = 0x3FD3333333333334 := by decide +kernel
theorem test_add_order : fadd64 0x3FD3333333333334 0x3FD3333333333333 = 0x3FE3333333333334 := by decide +kernel
theorem test_add_tie_to_even : fadd64 0x4341C37937E08000 0x3FF0000000000000 = 0x4341C37937E08000 := by decide +kernel
theorem test_add_cancels_to_plus_zero : fadd64 0x4341C37937E08000 0xC341C37937E08000 = 0 := by decide +kernel
theorem test_add_overflows : fadd64 0x7FE1CCF385EBC8A0 0x7FE1CCF385EBC8A0 = 0x7FF0000000000000 := by decide +kernel
theorem test_mul_half_subnormal : fmul64 0x3FE0000000000000 1 = 0 := by decide +kernel
theorem test_mul_subnormal_tie : fmul64 0x3FE0000000000000 3 = 2 := by decide +kernel
theorem test_mul_negative_underflow : fmul64 0x3FE0000000000000 0x8000000000000001 = 0x8000000000000000 := by decide +kernel
theorem test_mul_sign : fmul64 0x3FE0000000000000 0xC008000000000000 = 0xBFF8000000000000 := by decide +kernel
theorem test_zero_times_infinity : f64IsNaN (fmul64 0 0x7FF0000000000000) = true := f64NaNOf_isNaN _

/-! ## A small machine: `MAX_COEF` 4, `MAX_CH` 2, `BLOCK_LEN` 8 -/

/-- Legal parameters small enough to evaluate. -/
def small : Params := { maxCoef := 4, maxCh := 2, blockLen := 8, backed := [⟨0, 2 ^ 64 - 1⟩] }

/-- The same with memory at 0x1000 to 0x1FFF only. -/
def holed : Params := { small with backed := [⟨0x1000, 0x1FFF⟩] }

/-- After reset. -/
def idle : State := State.resetOf small

/-- `[1.0, 1.0, 1.0, 1.0]` at 0x4000. -/
def fourOnes : Memory :=
  Memory.writeWords [] [(0x4000, 0x3FF0000000000000), (0x4008, 0x3FF0000000000000), (0x4010, 0x3FF0000000000000),
    (0x4018, 0x3FF0000000000000)]

/-- The setup E([0.5, 0.5], 2) of section 3, with the input of V4. -/
def loaded : State :=
  { idle with
    bankB := [0x3FE0000000000000, 0x3FE0000000000000, 0, 0], numB := 2, cfg := .ok
    finBase := 0x4000, foutBase := 0x5000, mem := fourOnes }

/-- The source of V26: [1, -1, 3, -3, 5, -5] at 0x1000. -/
def stereoSource : Memory :=
  Memory.writeWords [] [(0x1000, 0x3FF0000000000000), (0x1008, 0xBFF0000000000000), (0x1010, 0x4008000000000000),
    (0x1018, 0xC008000000000000), (0x1020, 0x4014000000000000), (0x1028, 0xC014000000000000)]

/-- The setup of V26 before `START`. -/
def ready : State :=
  { loaded with
    numCh := 2, totalFrame := 3, srcBase := 0x1000, dstBase := 0x2000, outBase := 0x3000, mem := stereoSource }

/-- The stream of V26 running. -/
def running : State := { ready with phase := .running }

/-- That stream ended. -/
def done : State := { ready with phase := .done, complete := true, nextFrame := 3 }

/-- A machine with an empty stream set up (V25). -/
def emptyStream : State := { ready with totalFrame := 0 }

/-- The next state meets a test. -/
def nextIs (o : Host.Outcome State Fault Refusal) (p : State → Bool) : Bool :=
  match o with
  | .next t => p t
  | .fault _ => false
  | .refused _ => false

/-- The machine stops with this fault. -/
def faultsAt (o : Host.Outcome State Fault Refusal) (f : Fault) : Bool :=
  match o with
  | .next _ => false
  | .fault r => r == f
  | .refused _ => false

/-- The machine refuses the instruction for this reason. -/
def refusesWith (o : Host.Outcome State Fault Refusal) (r : Refusal) : Bool :=
  match o with
  | .next _ => false
  | .fault _ => false
  | .refused q => q == r

/-- The words of memory at these addresses. -/
def memWords (s : State) (as : List Word) : List Word := as.map (Memory.readWord s.mem)

/-! ### `LOAD` (V31, V33) -/

theorem test_load_accepts_the_maximum :
    nextIs (exec .load { idle with numB := 4, numA := 4 }) (fun t => statusWord t == 0x08) = true := by decide
theorem test_load_refuses_minus_one :
    nextIs (exec .load { idle with numA := 0xFFFFFFFFFFFFFFFF })
      (fun t => statusWord t == 0x10 && errWord t == 0 && t.numA == 0xFFFFFFFFFFFFFFFF) = true := by decide

/-! ### `START` (V25, V36) -/

theorem test_start_of_an_empty_stream :
    nextIs (exec .start emptyStream)
      (fun t => statusWord t == 0x0D && t.nextFrame == 0 && t.trace == [Event.evtDone]) = true := by decide
theorem test_start_without_load :
    nextIs (exec .start { ready with cfg := .unloaded })
      (fun t => statusWord t == 0x00 && errWord t == 2 && t.trace == []) = true := by decide

/-! ### `PROC` (V26, V23) -/

theorem test_proc_stereo :
    nextIs (exec (.proc 3) running) (fun t =>
      statusWord t == 0x0D && t.nextFrame == 3 && entry (historyOf t.xs 0) 0 == 0x4014000000000000 &&
      entry (historyOf t.xs 1) 0 == 0xC014000000000000 && t.trace.length == 19 &&
      t.trace.getLast? == some Event.evtDone &&
      memWords t [0x2000, 0x2008, 0x2010, 0x2018, 0x2020, 0x2028] ==
        [0x3FE0000000000000, 0xBFE0000000000000, 0x4000000000000000, 0xC000000000000000, 0x4010000000000000,
         0xC010000000000000] &&
      memWords t [0x3000, 0x3028] == [0x3FE0000000000000, 0xC010000000000000]) = true := by decide +kernel
theorem test_proc_silence_in_idle :
    nextIs (exec (.proc 2) { idle with numCh := 1 }) (fun t =>
      statusWord t == 0x00 && errWord t == 0 && t.trace == [Event.write 0 0, Event.write 8 0]) = true := by decide

/-! ### `FILT` (V4, V45) -/

theorem test_filt_moving_average :
    nextIs (exec (.filt 0 4) loaded) (fun t =>
      memWords t [0x5000, 0x5008, 0x5010, 0x5018] ==
        [0x3FE0000000000000, 0x3FF0000000000000, 0x3FF0000000000000, 0x3FF0000000000000] &&
      historyOf t.xs 0 == [0x3FF0000000000000, 0, 0] && historyOf t.xs 1 == [0, 0, 0] &&
      t.trace.head? == some (Event.read 0x4000 0x3FF0000000000000)) = true := by decide +kernel
theorem test_filt_rejected_with_oversize_count :
    nextIs (exec (.filt 2 0xFFFFFFFF) loaded) (fun t => errWord t == 2 && t.trace == []) = true := by decide

/-- V9, its block [3, 4]: a block shorter than the history. -/
theorem test_short_block_merges_history :
    let b : List Word := [0x3FF0000000000000, 0x4000000000000000, 0x4008000000000000, 0x4010000000000000]
    let hist : List Word := [0, 0x3FF0000000000000, 0x4000000000000000]
    let x : List Word := [0x4008000000000000, 0x4010000000000000]
    convolve b 4 hist x = [0x4024000000000000, 0x4034000000000000] ∧
    nextHistory 4 hist x = [0x4000000000000000, 0x4008000000000000, 0x4010000000000000] := by decide +kernel

/-- R71 on the word 0x0102030405060708: its lowest byte lies lowest. -/
theorem test_words_are_little_endian :
    let m := Memory.writeWord [] 0x1000 0x0102030405060708
    [0x0FFF, 0x1000, 0x1001, 0x1007, 0x1008].map (Memory.readByte m) = [0x00, 0x08, 0x07, 0x01, 0x00] := by decide
theorem test_host_sees_the_low_byte_first :
    nextIs (step { loaded with mem := [(0x1000, 0xAB), (0x1007, 0x01)], inbox := [.hostMemRead 0x1007] })
      (fun t => t.replies == [Reply.hostMemData 0x1007 0x01] &&
        Memory.readWord t.mem 0x1000 == 0x01000000000000AB) = true := by decide

/-! ### Stops and the ports -/

theorem test_oversize_proc_is_refused :
    refusesWith (exec (.proc 9) running) (.countExceedsBlockLen 9) = true := by decide
theorem test_unbacked_filt_faults :
    faultsAt (exec (.filt 0 1) { loaded with params := holed }) (.unbackedAccess 0x4000) = true := by decide
theorem test_base_and_sel_bits :
    nextIs (step { idle with inbox := [.hostWrite 9 0x1007] }) (fun t => t.srcBase == 0x1000) = true ∧
    nextIs (step { idle with inbox := [.hostWrite 14 0xFFFFFFFFFFFFFFFF] }) (fun t => t.sel == 0xFFFFFF03) = true := by
  decide
theorem test_err_clears_by_ones :
    nextIs (step { idle with errIllCmd := true, errReject := true, inbox := [.hostWrite 2 1] })
      (fun t => errWord t == 2) = true := by decide
theorem test_cap_reads_the_defaults :
    nextIs (step { State.reset with inbox := [.hostRead 3] })
      (fun t => t.replies == [Reply.hostData 3 0x0000040000020100]) = true := by decide +kernel
theorem test_first_command_after_reset :
    nextIs (step (State.reset.withFetchWord 64 0x0200000000000000)) (fun t => errWord t == 2) = true := by decide +kernel

/-! ## Invariant states for the witnesses -/

theorem inv_idle : idle.Inv :=
  ⟨by decide, by decide, by decide, by decide, by decide, by decide, by decide, by unfold countInRange; decide, by decide,
   by decide, by decide, by unfold baseAligned; decide, by decide, by decide⟩

theorem inv_loaded : loaded.Inv :=
  ⟨by decide, by decide, by decide, by decide, by decide, by decide, by decide, by unfold countInRange; decide, by decide,
   by decide, by decide, by unfold baseAligned; decide, by decide, by decide +kernel⟩

theorem inv_running : running.Inv :=
  ⟨by decide, by decide, by decide, by decide, by decide, by decide, by decide, by unfold countInRange; decide, by decide,
   by decide, by decide, by unfold baseAligned; decide, by decide, by decide +kernel⟩

theorem inv_done : done.Inv :=
  ⟨by decide, by decide, by decide, by decide, by decide, by decide, by decide, by unfold countInRange; decide, by decide,
   by decide, by decide, by unfold baseAligned; decide, by decide, by decide +kernel⟩

/-- The inbox is not part of the invariants. -/
theorem inv_with_inbox {s : State} (h : s.Inv) (l : List Transaction) : State.Inv { s with inbox := l } :=
  ⟨h.params_legal, h.bankB_length, h.bankA_length, h.xs_length, h.xs_entries, h.ys_zero, h.complete_iff, h.counts_ok,
   h.running_cfg, h.running_numCh, h.running_next, h.bases, h.sel_bits, h.mem_wf⟩

/-- A next state that meets a test is a next state. -/
theorem next_of_nextIs {o : Host.Outcome State Fault Refusal} {p : State → Bool} (h : nextIs o p = true) :
    ∃ t, o = .next t ∧ p t = true := by
  cases o with
  | next t => exact ⟨t, rfl, h⟩
  | fault r => exact absurd h (by simp [nextIs])
  | refused r => exact absurd h (by simp [nextIs])

/-- Words of two buffers 0x1000 bytes apart, near each base. -/
theorem buffers_apart {a b : Word} {i j : Nat} (h : a.toNat + 0x1000 ≤ b.toNat) (hb : b.toNat ≤ 0x10000) (hi : i < 64)
    (hj : j < 64) : WordsApart (wordAddr a i) (wordAddr b j) ∧ WordsApart (wordAddr b j) (wordAddr a i) := by
  refine wordsApart_of_lt ?_ ?_
  · rw [wordAddr_toNat, wordAddr_toNat]; omega
  · rw [wordAddr_toNat]; omega

/-- Every address of the small machine is backed. -/
theorem small_backed (a : Word) : backedAt small a = true := by
  have := a.isLt
  simp only [backedAt, small, List.any_cons, List.any_nil, Bool.or_false, Bool.and_eq_true, decide_eq_true_eq]
  omega

theorem filt_ready : FiltReady loaded 1 8 :=
  ⟨by decide, by decide, by decide, by decide, fun _ _ => small_backed _, fun _ _ => small_backed _⟩

theorem proc_ready_to_the_end : ProcReady running 8 :=
  ⟨by decide, by decide, fun _ _ _ _ => small_backed _, fun _ _ _ _ => small_backed _, fun _ _ _ _ => small_backed _⟩

theorem proc_ready_within : ProcReady running 2 :=
  ⟨by decide, by decide, fun _ _ _ _ => small_backed _, fun _ _ _ _ => small_backed _, fun _ _ _ _ => small_backed _⟩

theorem silence_ready_idle : SilenceReady { idle with numCh := 1 } 8 :=
  ⟨by decide, by decide, fun _ _ _ _ => small_backed _⟩

theorem silence_ready_done : SilenceReady done 1 := ⟨by decide, by decide, fun _ _ _ _ => small_backed _⟩

/-! ## Witnesses: encoding, steps, reset -/

theorem witness_DecodeOfEncodeIsTheCommand :
    Instr.wellFormed .load = true ∧ Instr.wellFormed .start = true ∧ Instr.wellFormed (.proc (2 ^ 32 - 1)) = true ∧
    Instr.wellFormed (.filt 255 (2 ^ 32 - 1)) = true := by decide

theorem witness_EncodeOfDecodeIsTheWord :
    decode 0x0100000000000000 = .ok .load ∧ decode 0x0200000000000000 = .ok .start ∧
    decode 0x03000000FFFFFFFF = .ok (.proc 4294967295) ∧ decode 0x04FF0000FFFFFFFF = .ok (.filt 255 4294967295) := by decide

theorem witness_DecoderFollowsTheOpcodeMap :
    (opcodeMap.zip [(0x0100000000000000 : Word), 0x0200000000000000, 0x03000000FFFFFFFF, 0x04FF0000FFFFFFFF]).all
      (fun rw => rw.1.covers rw.2) = true := by decide

theorem witness_OperandsAreUnsignedFields :
    decode 0x03000000FFFFFFFF = .ok (.proc 4294967295) ∧ decode 0x04FF0000FFFFFFFF = .ok (.filt 255 4294967295) := by decide

theorem witness_IllegalWordOnlyRaisesIllCmd :
    ∀ w ∈ [(0x0000000000000000 : Word), 0x0500000000000000, 0xFF00000000000000, 0x0300000100000000, 0x0400800000000001,
        0x0101000000000000, 0x0200000000000001, 0x0301000000000000],
      ∃ (s : State) (rest : List Transaction), s.inbox = .hostWrite 0 w :: rest ∧
        ((w.toNat / 2 ^ 56 = 0 ∨ 5 ≤ w.toNat / 2 ^ 56) ∨
         w.toNat / 2 ^ 32 % 2 ^ 16 ≠ 0 ∨
         ((w.toNat / 2 ^ 56 = 1 ∨ w.toNat / 2 ^ 56 = 2) ∧ (w.toNat / 2 ^ 48 % 2 ^ 8 ≠ 0 ∨ w.toNat % 2 ^ 32 ≠ 0)) ∨
         (w.toNat / 2 ^ 56 = 3 ∧ w.toNat / 2 ^ 48 % 2 ^ 8 ≠ 0)) := by
  intro w hw
  refine ⟨{ idle with inbox := [.hostWrite 0 w] }, [], rfl, ?_⟩
  simp only [List.mem_cons, List.not_mem_nil, or_false] at hw
  rcases hw with rfl | rfl | rfl | rfl | rfl | rfl | rfl | rfl <;> decide

theorem witness_StepRunsTheDecodedCommand :
    (∃ s : State, s.inbox = [.hostWrite 0 0x0300000000000008]) ∧ decode 0x0300000000000008 = .ok (.proc 8) ∧
    decode (BitVec.ofNat 64 0x0400000000000001) = .ok (.filt 0 1) :=
  ⟨⟨{ idle with inbox := [.hostWrite 0 0x0300000000000008] }, rfl⟩, by decide, by decide⟩

theorem witness_CoreWaitsWithoutRequests : idle.inbox = [] := rfl

theorem witness_ResetLeavesEveryElementZero : 1 < small.maxCh ∧ 255 < 256 := by decide

theorem witness_ResetInputRestoresResetState : ∃ s : State, s.inbox = [.reset] := ⟨{ running with inbox := [.reset] }, rfl⟩

theorem witness_ResetStateMeetsTheInvariants :
    Params.Legal { maxCoef := 1, maxCh := 1, blockLen := 1, backed := [] } ∧
    Params.Legal { maxCoef := 65535, maxCh := 256, blockLen := 2 ^ 32 - 1, backed := [] } := by decide

theorem witness_EveryStepKeepsTheInvariants :
    ∃ s t : State, s.Inv ∧ s.phase = .running ∧ step s = .next t ∧ t.phase = .done := by
  obtain ⟨t, h1, h2⟩ := next_of_nextIs (o := step { running with inbox := [.hostWrite 0 0x0300000000000003] })
    (p := fun t => t.phase == .done) (by decide +kernel)
  exact ⟨_, t, inv_with_inbox inv_running _, rfl, h1, by simpa using h2⟩

/-! ## Witnesses: `LOAD`, `START`, `FILT` -/

theorem witness_LoadChecksTheCountsAndCommits :
    running.phase = .running ∧
    (let s : State := { idle with numB := 0, numA := 4 }
     s.phase ≠ .running ∧
      (0 ≤ s.numB.toInt ∧ s.numB.toInt ≤ s.params.maxCoef) ∧ (0 ≤ s.numA.toInt ∧ s.numA.toInt ≤ s.params.maxCoef)) ∧
    (let s : State := { idle with numB := 5 }
     s.phase ≠ .running ∧ (s.params.maxCoef : Int) < s.numB.toInt) ∧
    (let s : State := { idle with numB := 0xFFFFFFFFFFFFFFFF }
     s.phase ≠ .running ∧ s.numB.toInt < 0) ∧
    (let s : State := { idle with numA := 5 }
     s.phase ≠ .running ∧ (s.params.maxCoef : Int) < s.numA.toInt) ∧
    (let s : State := { idle with numA := 0x8000000000000000 }
     s.phase ≠ .running ∧ s.numA.toInt < 0) := by decide

theorem witness_LoadAcceptsExactlyZeroToMaxCoef : idle.params.Legal ∧ idle.phase ≠ .running := by decide

theorem witness_StartBeginsAStream :
    running.phase = .running ∧ idle.cfg ≠ .ok ∧ loaded.numCh = 0 ∧
    (let s : State := { ready with numCh := 3 }
     s.params.maxCh < s.numCh.toNat) ∧
    (ready.phase ≠ .running ∧ ready.cfg = .ok ∧ ready.numCh ≠ 0 ∧ ready.numCh.toNat ≤ ready.params.maxCh ∧
      ready.totalFrame ≠ 0) ∧
    (emptyStream.phase ≠ .running ∧ emptyStream.cfg = .ok ∧ emptyStream.numCh ≠ 0 ∧
      emptyStream.numCh.toNat ≤ emptyStream.params.maxCh ∧ emptyStream.totalFrame = 0) := by decide

theorem witness_FiltNotPermittedIsRejected :
    running.phase = .running ∧ idle.cfg ≠ .ok ∧ loaded.params.maxCh ≤ 2 := by decide

theorem witness_OversizeCountHasNoMeaning :
    loaded.params.blockLen < 9 ∧ loaded.phase ≠ .running ∧ loaded.cfg = .ok ∧ 1 < loaded.params.maxCh := by decide

theorem witness_FiltFiltersOneBlock :
    loaded.Inv ∧ FiltReady loaded 1 8 ∧ (7 < 8 ∧ inWord (foutAddr loaded 7) 0x5040 = false) ∧ FiltReady loaded 0 0 :=
  ⟨inv_loaded, filt_ready, by decide,
    ⟨by decide, by decide, by decide, by decide, fun _ _ => small_backed _, fun _ _ => small_backed _⟩⟩

/-! ## Witnesses: the engine -/

theorem witness_OutputSampleIsTheSumOfProducts :
    let b : List Word := [0x3FE0000000000000, 0x3FE0000000000000]
    let acc : Nat → Word := fun k => if k = 0 then 0 else if k = 1 then 0x3FE0000000000000 else 0x3FF0000000000000
    0 < [(0x3FF0000000000000 : Word)].length ∧ acc 0 = 0 ∧
    (∀ k, k < 2 → acc (k + 1) = fadd64 (acc k) (fmul64 (entry b k)
      (if k ≤ 0 then entry [0x3FF0000000000000] (0 - k) else entry [0x3FF0000000000000] (2 - 1 + 0 - k)))) := by
  decide +kernel

theorem witness_HistoryHoldsTheLastInputs : 4 - 1 ≤ [(0 : Word), 0, 0].length := by decide

theorem witness_ContinuityOverAnyPartition : 4 - 1 ≤ [(0 : Word), 0, 0].length ∧ 0 - 1 ≤ ([] : List Word).length := by
  decide

theorem witness_ChannelsAreIsolated :
    (historyOf loaded.xs 0 = historyOf loaded.xs 1 ∧ 0 < loaded.xs.length ∧ 1 < loaded.xs.length) ∧
    (∃ t, exec (.filt 0 1) loaded = .next t) ∧
    (∃ t, exec (.proc 1) { running with numCh := 1 } = .next t ∧ (1 : Word).toNat ≤ 1) := by
  refine ⟨by decide, ?_, ?_⟩
  · obtain ⟨t, h, _⟩ := next_of_nextIs (o := exec (.filt 0 1) loaded) (p := fun _ => true) (by decide +kernel)
    exact ⟨t, h⟩
  · obtain ⟨t, h, _⟩ := next_of_nextIs (o := exec (.proc 1) { running with numCh := 1 }) (p := fun _ => true)
      (by decide +kernel)
    exact ⟨t, h, by decide⟩

theorem witness_FeedbackFieldsAreNeverRead :
    (∃ n, Instr.proc 0 = .proc n) ∧ (∃ c n, Instr.filt 0 0 = .filt c n) := ⟨⟨0, rfl⟩, ⟨0, 0, rfl⟩⟩

theorem witness_NamedFiltersGiveTheirOutputs :
    ∀ w ∈ [[(0x3FF0000000000000 : Word)], [], [1, 0x7FEFFFFFFFFFFFFF, 0xC008000000000000]].flatten,
      f64IsFinite w = true ∧ w ≠ 0x8000000000000000 := by
  intro w hw
  simp only [List.flatten_cons, List.flatten_nil, List.cons_append, List.nil_append, List.mem_cons, List.not_mem_nil,
    or_false] at hw
  rcases hw with rfl | rfl | rfl | rfl <;> decide

/-! ## Witnesses: `PROC` -/

theorem witness_ProcAdvancesTheStream : running.Inv ∧ ProcReady running 8 ∧ ProcReady running 2 ∧
    running.nextFrame.toNat + min 8 (running.totalFrame.toNat - running.nextFrame.toNat) = running.totalFrame.toNat ∧
    running.nextFrame.toNat + min 2 (running.totalFrame.toNat - running.nextFrame.toNat) ≠ running.totalFrame.toNat ∧
    1 < running.numCh.toNat ∧ running.numCh.toNat ≤ 2 ∧
    (∀ a ∈ [0x1FFF, 0x2030], (∀ f, f < 3 → ∀ c, c < 2 → inWord (dstAddr running (0 + f) c) a = false) ∧
      (∀ g, g < 8 → ∀ c, c < 2 → inWord (outAddr running g c) a = false)) :=
  ⟨inv_running, proc_ready_to_the_end, proc_ready_within, by decide, by decide, by decide, by decide, by decide⟩

theorem witness_ProcFillsTheTransportBlock : running.Inv ∧ ProcReady running 8 ∧ 7 < 8 ∧ 1 < running.numCh.toNat :=
  ⟨inv_running, proc_ready_to_the_end, by decide, by decide⟩

theorem witness_ProcWritesTheDestinationFrames : running.Inv ∧ ProcReady running 8 ∧
    2 < min 8 (running.totalFrame.toNat - running.nextFrame.toNat) ∧ 1 < running.numCh.toNat ∧
    (∀ g c', g < 8 → c' < running.numCh.toNat →
      WordsApart (outAddr running g c') (dstAddr running (running.nextFrame.toNat + 2) 1)) ∧
    (∀ f, f < 3 → ∀ c, c < 2 → inWord (dstAddr running (0 + f) c) 0x2030 = false) ∧
    (∀ g, g < 8 → ∀ c, c < 2 → inWord (outAddr running g c) 0x2030 = false) := by
  refine ⟨inv_running, proc_ready_to_the_end, by decide, by decide, ?_, by decide, by decide⟩
  intro g c' hg hc
  have hch : running.numCh.toNat = 2 := by decide
  rw [hch] at hc
  unfold outAddr dstAddr
  rw [hch]
  exact (buffers_apart (by decide) (by decide) (by decide) (by omega)).2

theorem witness_ProcOutsideAStreamWritesSilence :
    State.Inv { idle with numCh := 1 } ∧ SilenceReady { idle with numCh := 1 } 8 ∧ done.Inv ∧ SilenceReady done 1 :=
  ⟨⟨by decide, by decide, by decide, by decide, by decide, by decide, by decide, by unfold countInRange; decide, by decide,
    by decide, by decide, by unfold baseAligned; decide, by decide, by decide⟩, silence_ready_idle, inv_done,
   silence_ready_done⟩

theorem witness_ProcOfNoFramesDoesNothing : idle.Inv ∧ running.Inv ∧ done.Inv := ⟨inv_idle, inv_running, inv_done⟩

theorem witness_StreamEqualsOneEngineCall :
    let s := running
    let calls : List (Word × Nat) := [(0x3007, 2), (0x4000, 8), (0x3000, 0)]
    let ch := s.numCh.toNat
    let total := s.totalFrame.toNat
    let out := fun (base : Word) (g c : Nat) => wordAddr (baseStored base) (g * ch + c)
    s.Inv ∧ s.phase = .running ∧ s.nextFrame = 0 ∧ s.xs = zeroHistories s.params ∧
    8 * (total * ch) ≤ 2 ^ 64 ∧
    (∀ f c, f < total → c < ch → backedAt s.params (srcAddr s f c) = true ∧ backedAt s.params (dstAddr s f c) = true) ∧
    (∀ call ∈ calls, call.2 ≤ s.params.blockLen ∧
      ∀ g c, g < call.2 → c < ch → backedAt s.params (out call.1 g c) = true) ∧
    (∀ f c f' c', f < total → c < ch → f' < total → c' < ch → WordsApart (dstAddr s f c) (srcAddr s f' c')) ∧
    (∀ call ∈ calls, ∀ g c f c', g < call.2 → c < ch → f < total → c' < ch →
      WordsApart (out call.1 g c) (srcAddr s f c') ∧ WordsApart (out call.1 g c) (dstAddr s f c')) ∧
    total ≤ (calls.map Prod.snd).sum := by
  have hch : running.numCh.toNat = 2 := by decide
  have htot : running.totalFrame.toNat = 3 := by decide
  have hback : ∀ a, backedAt running.params a = true := small_backed
  dsimp only
  rw [hch, htot]
  refine ⟨inv_running, rfl, rfl, by decide, by decide, fun f c _ _ => ⟨hback _, hback _⟩, ?_, ?_, ?_, by decide⟩
  · intro call hcall
    exact ⟨by revert call; decide, fun _ _ _ _ => hback _⟩
  · intro f c f' c' hf hc hf' hc'
    unfold srcAddr dstAddr
    rw [hch]
    exact (buffers_apart (by decide) (by decide) (by omega) (by omega)).2
  · intro call hcall g c f c' hg hc hf hc'
    unfold srcAddr dstAddr
    rw [hch]
    have hb : call.2 ≤ 8 ∧ 0x3000 ≤ (baseStored call.1).toNat ∧ (baseStored call.1).toNat ≤ 0x10000 := by
      clear hg
      revert call; decide
    have h1 : running.srcBase.toNat = 0x1000 := by decide
    have h2 : running.dstBase.toNat = 0x2000 := by decide
    exact ⟨(buffers_apart (by omega) hb.2.2 (by omega) (by omega)).2, (buffers_apart (by omega) hb.2.2 (by omega) (by omega)).2⟩

/-- The other case of the regions: source and destination are the same. -/
theorem witness_StreamEqualsOneEngineCall_in_place :
    ∃ s : State, s.srcBase = s.dstBase ∧ s.phase = .running ∧ s.nextFrame = 0 ∧ s.xs = zeroHistories s.params ∧ s.Inv :=
  ⟨{ running with dstBase := 0x1000 }, by decide, rfl, rfl, by decide,
   ⟨by decide, by decide, by decide, by decide, by decide, by decide, by decide, by unfold countInRange; decide, by decide,
    by decide, by decide, by unfold baseAligned; decide, by decide, by decide +kernel⟩⟩

theorem witness_UnbackedAccessStops :
    (let s : State := { loaded with params := holed }
     s.phase ≠ .running ∧ s.cfg = .ok ∧ 1 < s.params.maxCh ∧ 8 ≤ s.params.blockLen ∧
       backedAt s.params (finAddr s 7) = false) ∧
    (let s : State := { loaded with params := holed, finBase := 0x1000, foutBase := 0x1FF8 }
     s.phase ≠ .running ∧ s.cfg = .ok ∧ backedAt s.params (finAddr s 1) = true ∧
       backedAt s.params (foutAddr s 0) = true ∧ backedAt s.params (foutAddr s 1) = false) ∧
    (let s : State := { running with params := holed, srcBase := 0x1FD8, dstBase := 0x1000, outBase := 0x1000 }
     s.phase = .running ∧ 8 ≤ s.params.blockLen ∧ 2 < min 8 (s.totalFrame.toNat - s.nextFrame.toNat) ∧
       1 < s.numCh.toNat ∧ backedAt s.params (srcAddr s (s.nextFrame.toNat + 2) 0) = true ∧
       backedAt s.params (srcAddr s (s.nextFrame.toNat + 2) 1) = false) ∧
    (let s : State := { running with params := holed, dstBase := 0x1FD8, outBase := 0x1000 }
     s.phase = .running ∧ backedAt s.params (dstAddr s (s.nextFrame.toNat + 2) 0) = true ∧
       backedAt s.params (dstAddr s (s.nextFrame.toNat + 2) 1) = false) ∧
    (let s : State := { running with params := holed, dstBase := 0x1000, outBase := 0x1F88 }
     s.phase = .running ∧ backedAt s.params (outAddr s 7 0) = true ∧ backedAt s.params (outAddr s 7 1) = false) ∧
    (let s : State := { ready with params := holed, outBase := 0x1F88 }
     s.phase ≠ .running ∧ 8 ≤ s.params.blockLen ∧ 1 < s.numCh.toNat ∧ backedAt s.params (outAddr s 7 0) = true ∧
       backedAt s.params (outAddr s 7 1) = false) := by decide

/-! ## Witnesses: registers -/

theorem witness_RegisterReadHasNoSideEffect :
    (∀ idx : BitVec 5, ∃ s : State, s.inbox = [.hostRead idx]) ∧ 16 ≤ (31 : BitVec 5).toNat :=
  ⟨fun idx => ⟨{ idle with inbox := [.hostRead idx] }, rfl⟩, by decide⟩

theorem witness_StatusTakesSevenValues : idle.Inv ∧ running.Inv ∧ done.Inv := ⟨inv_idle, inv_running, inv_done⟩

theorem witness_CapShowsTheParameters :
    Params.Legal { maxCoef := 65535, maxCh := 256, blockLen := 2 ^ 32 - 1, backed := [] } ∧
    (∃ s : State, s.inbox = [.hostWrite 3 0]) := ⟨by decide, ⟨{ idle with inbox := [.hostWrite 3 0] }, rfl⟩⟩

theorem witness_WriteOfErrClearsByOnes : ∃ s : State, s.inbox = [.hostWrite 2 0xFFFFFFFFFFFFFFFE] :=
  ⟨{ idle with inbox := [.hostWrite 2 0xFFFFFFFFFFFFFFFE] }, rfl⟩

theorem witness_FrozenRegisterWrites : ∀ idx ∈ [(4 : BitVec 5), 5, 6, 7, 9, 10],
    (∃ s : State, s.inbox = [.hostWrite idx 7] ∧ s.phase = .running) ∧
    (∃ s : State, s.inbox = [.hostWrite idx 7] ∧ s.phase ≠ .running) :=
  fun idx _ => ⟨⟨{ running with inbox := [.hostWrite idx 7] }, rfl, rfl⟩,
    ⟨{ done with inbox := [.hostWrite idx 7] }, rfl, fun h => by cases h⟩⟩

theorem witness_UnfrozenRegisterWrites : ∀ idx ∈ [(11 : BitVec 5), 12, 13, 14], ∃ s : State, s.inbox = [.hostWrite idx 7] :=
  fun idx _ => ⟨{ running with inbox := [.hostWrite idx 7] }, rfl⟩

theorem witness_ReadOnlyAndReservedWritesAreIgnored : ∀ idx ∈ [(1 : BitVec 5), 3, 8, 16, 31],
    (∃ s : State, s.inbox = [.hostWrite idx 7]) ∧ (idx = 1 ∨ idx = 3 ∨ idx = 8 ∨ 16 ≤ idx.toNat) :=
  fun idx h => ⟨⟨{ running with inbox := [.hostWrite idx 7] }, rfl⟩, by revert idx; decide⟩

theorem witness_DataWindowShowsTheSelectedWord :
    (∀ v ∈ [(0x00030000 : Word), 0x00030001], v.toNat % 4 < 2 ∧ v.toNat / 2 ^ 16 % 2 ^ 16 < small.maxCoef) ∧
    (∀ v ∈ [(0x00020102 : Word), 0x00020103],
      2 ≤ v.toNat % 4 ∧ v.toNat / 2 ^ 8 % 2 ^ 8 < small.maxCh ∧ v.toNat / 2 ^ 16 % 2 ^ 16 < small.maxCoef - 1) ∧
    (∀ v ∈ [(0x00040000 : Word), 0x00040001], v.toNat % 4 < 2 ∧ small.maxCoef ≤ v.toNat / 2 ^ 16 % 2 ^ 16) ∧
    (∀ v ∈ [(0x00000202 : Word), 0x00030003], 2 ≤ v.toNat % 4 ∧
      (small.maxCh ≤ v.toNat / 2 ^ 8 % 2 ^ 8 ∨ small.maxCoef - 1 ≤ v.toNat / 2 ^ 16 % 2 ^ 16)) := by
  simp only [List.forall_mem_cons, List.not_mem_nil, false_implies, implies_true, and_true]
  decide

theorem witness_DataWindowWrites :
    (let s : State := { idle with sel := 0x00000002, inbox := [.hostWrite 15 7] }
     s.inbox = [.hostWrite 15 7] ∧ 2 ≤ s.sel.toNat % 4) ∧
    (let s : State := { running with inbox := [.hostWrite 15 7] }
     s.inbox = [.hostWrite 15 7] ∧ s.phase = .running) ∧
    (let s : State := { idle with sel := 0x00040001, inbox := [.hostWrite 15 7] }
     s.inbox = [.hostWrite 15 7] ∧ s.params.maxCoef ≤ s.sel.toNat / 2 ^ 16 % 2 ^ 16) ∧
    (∀ v ∈ [(0x00030000 : Word), 0x00030001],
      let s : State := { idle with sel := v, inbox := [.hostWrite 15 7] }
      s.inbox = [.hostWrite 15 7] ∧ s.phase ≠ .running ∧ s.sel.toNat / 2 ^ 16 % 2 ^ 16 < s.params.maxCoef ∧
      s.bankB.length = s.params.maxCoef ∧ s.bankA.length = s.params.maxCoef) := by
  simp only [List.forall_mem_cons, List.not_mem_nil, false_implies, implies_true, and_true]
  decide

theorem witness_SupervisorReadsStatus : ∃ s : State, s.inbox = [.supRead] := ⟨{ running with inbox := [.supRead] }, rfl⟩

theorem witness_ScriptSetThenGetReturnsTheWord :
    (∃ s : State, s.Inv ∧ s.phase ≠ .running ∧ 3 < s.params.maxCoef ∧
      s.inbox = scriptTransactions [.setB 3 5, .getB 3] ++ []) ∧
    (∃ s : State, s.Inv ∧ s.phase ≠ .running ∧ 3 < s.params.maxCoef ∧
      s.inbox = scriptTransactions [.setA 3 5, .getA 3] ++ []) :=
  ⟨⟨{ idle with inbox := scriptTransactions [.setB 3 5, .getB 3] }, inv_with_inbox inv_idle _, by decide, by decide, rfl⟩,
   ⟨{ idle with inbox := scriptTransactions [.setA 3 5, .getA 3] }, inv_with_inbox inv_idle _, by decide, by decide, rfl⟩⟩

/-! ## Witnesses: whole-machine rules -/

theorem witness_ErrorEventsArePrecise :
    (∃ s t : State, step s = .next t ∧ s.errIllCmd = false ∧ t.errIllCmd = true) ∧
    (∃ s t : State, step s = .next t ∧ s.errReject = false ∧ t.errReject = true) ∧
    (∃ s t : State, step s = .next t ∧ s.cfg ≠ .err ∧ t.cfg = .err) := by
  refine ⟨?_, ?_, ?_⟩
  · obtain ⟨t, h1, h2⟩ := next_of_nextIs (o := step { idle with inbox := [.hostWrite 0 0] }) (p := fun t => t.errIllCmd)
      (by decide)
    exact ⟨_, t, h1, rfl, h2⟩
  · obtain ⟨t, h1, h2⟩ := next_of_nextIs (o := step { idle with inbox := [.hostWrite 0 0x0200000000000000] })
      (p := fun t => t.errReject) (by decide)
    exact ⟨_, t, h1, rfl, h2⟩
  · obtain ⟨t, h1, h2⟩ := next_of_nextIs (o := step { idle with numB := 5, inbox := [.hostWrite 0 0x0100000000000000] })
      (p := fun t => t.cfg == .err) (by decide)
    exact ⟨_, t, h1, by decide, by simpa using h2⟩

theorem witness_StateChangesOnlyByTheTable :
    (∃ s t : State, s.Inv ∧ s.inbox = [.reset] ∧ step s = .next t ∧ t.phase ≠ s.phase) ∧
    (∃ s t : State, s.Inv ∧ s.inbox = [.hostWrite 0 0x0200000000000000] ∧ step s = .next t ∧ t.phase ≠ s.phase ∧
      s.complete = true ∧ t.complete = false) ∧
    (∃ s t : State, s.Inv ∧ s.inbox = [.hostWrite 0 0x0300000000000008] ∧ step s = .next t ∧ t.phase ≠ s.phase) := by
  refine ⟨?_, ?_, ?_⟩
  · obtain ⟨t, h1, h2⟩ := next_of_nextIs (o := step { running with inbox := [.reset] }) (p := fun t => t.phase == .idle)
      (by decide)
    exact ⟨_, t, inv_with_inbox inv_running _, rfl, h1, by simp only [beq_iff_eq] at h2; rw [h2]; decide⟩
  · obtain ⟨t, h1, h2⟩ := next_of_nextIs (o := step { done with inbox := [.hostWrite 0 0x0200000000000000] })
      (p := fun t => t.phase == .running && !t.complete) (by decide)
    simp only [Bool.and_eq_true, beq_iff_eq, Bool.not_eq_true'] at h2
    exact ⟨_, t, inv_with_inbox inv_done _, rfl, h1, by rw [h2.1]; decide, rfl, h2.2⟩
  · obtain ⟨t, h1, h2⟩ := next_of_nextIs (o := step { running with inbox := [.hostWrite 0 0x0300000000000008] })
      (p := fun t => t.phase == .done) (by decide +kernel)
    exact ⟨_, t, inv_with_inbox inv_running _, rfl, h1, by simp only [beq_iff_eq] at h2; rw [h2]; decide⟩

theorem witness_CompletionEventOnceAtTheEnd :
    (∃ s t : State, s.Inv ∧ s.inbox = [.hostWrite 0 0x0300000000000003] ∧ step s = .next t ∧ s.phase = .running ∧
      t.phase = .done) ∧
    (∃ s t : State, s.Inv ∧ s.inbox = [.hostWrite 0 0x0300000000000002] ∧ step s = .next t ∧ s.phase = .running ∧
      t.phase = .running) ∧
    (startRejected emptyStream = false ∧ emptyStream.totalFrame = 0 ∧
      isCommand (.hostWrite 0 0x0200000000000000) .start) := by
  refine ⟨?_, ?_, by decide, by decide, ⟨_, rfl, by decide⟩⟩
  · obtain ⟨t, h1, h2⟩ := next_of_nextIs (o := step { running with inbox := [.hostWrite 0 0x0300000000000003] })
      (p := fun t => t.phase == .done) (by decide +kernel)
    exact ⟨_, t, inv_with_inbox inv_running _, rfl, h1, rfl, by simpa using h2⟩
  · obtain ⟨t, h1, h2⟩ := next_of_nextIs (o := step { running with inbox := [.hostWrite 0 0x0300000000000002] })
      (p := fun t => t.phase == .running) (by decide +kernel)
    exact ⟨_, t, inv_with_inbox inv_running _, rfl, h1, rfl, by simpa using h2⟩

theorem witness_OnlyProcAndFiltTouchMemory :
    ∃ (s t : State) (tr : Transaction), s.inbox = [tr] ∧ step s = .next t ∧ (∀ n, ¬ isCommand tr (.proc n)) ∧
      (∀ c n, ¬ isCommand tr (.filt c n)) ∧ (∀ a b, tr ≠ .hostMemWrite a b) := by
  refine ⟨{ running with inbox := [.supRead] }, _, .supRead, rfl, rfl, ?_, ?_, ?_⟩
  · rintro n ⟨w, h, _⟩; cases h
  · rintro c n ⟨w, h, _⟩; cases h
  · intro a b h; cases h

theorem witness_HistoriesHaveNoOtherWriter :
    ∃ (s t : State) (tr : Transaction), s.inbox = [tr] ∧ step s = .next t ∧ tr ≠ .reset ∧ ¬ isCommand tr .start ∧
      (∀ n, ¬ isCommand tr (.proc n)) ∧ (∀ c n, ¬ isCommand tr (.filt c n)) := by
  refine ⟨{ running with inbox := [.hostWrite 15 7] }, _, .hostWrite 15 7, rfl, rfl, by decide, ?_, ?_, ?_⟩
  · rintro ⟨w, h, _⟩; cases h
  · rintro n ⟨w, h, _⟩; cases h
  · rintro c n ⟨w, h, _⟩; cases h

theorem witness_RunningStreamIsFrozen :
    ∃ s t : State, s.phase = .running ∧ step s = .next t ∧ s.inbox.head? ≠ some .reset := by
  exact ⟨{ running with inbox := [.hostWrite 4 7] }, _, rfl, rfl, by decide⟩

theorem witness_WorkIsBounded :
    running.Inv ∧ ProcReady running 8 ∧ SilenceReady done 1 ∧ FiltReady loaded 1 8 :=
  ⟨inv_running, proc_ready_to_the_end, silence_ready_done, filt_ready⟩

/-! ## Witnesses: arithmetic -/

theorem witness_AdditionRoundsToNearestEven :
    f64IsFinite 0x7FEFFFFFFFFFFFFF = true ∧ f64IsFinite 0x7C90000000000000 = true ∧
    f64IsFinite 0x7C8FFFFFFFFFFFFF = true ∧
    (f64Value 0x7FEFFFFFFFFFFFFF + f64Value 0x7C8FFFFFFFFFFFFF).natAbs < (2 ^ 54 - 1) * 2 ^ 2044 ∧
    (f64Value 0x7FEFFFFFFFFFFFFF + f64Value 0x7C90000000000000).natAbs = (2 ^ 54 - 1) * 2 ^ 2044 := by decide +kernel

theorem witness_MultiplicationRoundsToNearestEven :
    f64IsFinite 0x5FEFFFFFFC000000 = true ∧ f64IsFinite 0x5FF0000002000000 = true ∧
    f64IsFinite 0x5FF0000001FFFFFF = true ∧
    (f64Value 0x5FEFFFFFFC000000 * f64Value 0x5FF0000001FFFFFF).natAbs < (2 ^ 54 - 1) * 2 ^ 2044 * 2 ^ 1074 ∧
    (f64Value 0x5FEFFFFFFC000000 * f64Value 0x5FF0000002000000).natAbs = (2 ^ 54 - 1) * 2 ^ 2044 * 2 ^ 1074 := by
  decide +kernel

theorem witness_SpecialOperandsFollowIeee :
    f64IsInf 0xFFF0000000000000 = true ∧ f64IsNaN 1 = false ∧ f64IsZero 1 = false ∧ f64IsFinite 0x7FEFFFFFFFFFFFFF = true := by
  decide

/-! ## Witness: byte order -/

theorem witness_SampleWordsAreLittleEndian :
    Memory.wf loaded.mem = true ∧ backedAt loaded.params 0x4000 = true ∧
    backedAt loaded.params 0xFFFFFFFFFFFFFFF8 = true ∧
    (∀ j, j < 8 → 0x4008 ≠ (0x4000 + j) % 2 ^ 64) ∧
    (∃ s : State, s.inbox = [.hostMemRead 0x4007] ∧ backedAt s.params 0x4007 = true) ∧
    (∃ s : State, s.inbox = [.hostMemWrite 0xFFFFFFFFFFFFFFFF 7] ∧ Memory.wf s.mem = true ∧
      backedAt s.params 0xFFFFFFFFFFFFFFFF = true) :=
  ⟨inv_loaded.mem_wf, small_backed _, small_backed _, by decide,
   ⟨{ loaded with inbox := [.hostMemRead 0x4007] }, rfl, small_backed _⟩,
   ⟨{ loaded with inbox := [.hostMemWrite 0xFFFFFFFFFFFFFFFF 7] }, rfl, inv_loaded.mem_wf, small_backed _⟩⟩

end Sys2Proof.Tests
end

section
/-! PROOFS. Dispatch of a step by the command word, and the oversize counts (spec/00_scope.md R5, R15, R33). -/

namespace Sys2Proof.Machine

/-! ## Dispatch -/

theorem exec_proc (n : Nat) (s : State) : exec (.proc n) s = execProc n s := rfl

theorem exec_filt (c n : Nat) (s : State) : exec (.filt c n) s = execFilt c n s := rfl

/-- A write of `CMD` with a legal word runs its command (R5, R105). -/
theorem step_command {s : State} {w : Word} {rest : List Transaction} {i : Instr}
    (hin : s.inbox = .hostWrite 0 w :: rest) (hdec : decode w = .ok i) :
    step s = exec i { s with inbox := rest } := by
  rw [step_cons hin, transact_command, writeCmd_ok hdec]

theorem withFetchWord_inbox (s : State) (nbits n : Nat) :
    (s.withFetchWord nbits n).inbox = .hostWrite 0 (BitVec.ofNat 64 n) :: s.inbox := rfl

/-- Taking the placed request away gives the state it was placed in. -/
theorem withFetchWord_restore (s : State) (nbits n : Nat) :
    { s.withFetchWord nbits n with inbox := s.inbox } = s := rfl

/-- Settles O7: the step takes the request, and a write of `CMD` executes the decoded command. -/
theorem stepRunsTheDecodedCommand : Obligations.StepRunsTheDecodedCommand := by
  refine ⟨fun s w rest i hin hdec => step_command hin hdec, fun s n i hdec => ?_⟩
  rw [step_command (withFetchWord_inbox s 64 n) hdec, withFetchWord_restore]

/-! ## Oversize counts -/

/-- `FILT` passes its Reject tests exactly outside RUNNING, with a committed configuration and an existing channel (R140). -/
theorem filtRejected_eq_false_iff {s : State} {c : Nat} :
    filtRejected s c = false ↔ s.phase ≠ .running ∧ s.cfg = .ok ∧ c < s.params.maxCh := by
  simp [filtRejected, and_assoc]

theorem execProc_oversize {s : State} {n : Nat} (hn : s.params.blockLen < n) :
    execProc n s = .refused (.countExceedsBlockLen n) :=
  if_pos hn

theorem execFilt_oversize {s : State} {c n : Nat} (hr : filtRejected s c = false) (hn : s.params.blockLen < n) :
    execFilt c n s = .refused (.countExceedsBlockLen n) := by
  simp [execFilt, hr, hn]

/-- Settles O17: `PROC` tests its count first, `FILT` right after its Reject tests. -/
theorem oversizeCountHasNoMeaning : Obligations.OversizeCountHasNoMeaning := by
  constructor
  · intro s n hn
    rw [exec_proc, execProc_oversize hn]
  · intro s c n hphase hcfg hc hn
    rw [exec_filt, execFilt_oversize (filtRejected_eq_false_iff.2 ⟨hphase, hcfg, hc⟩) hn]

end Sys2Proof.Machine
end

section
/-! PROOFS. What a step can do, said once: each command and each transaction of the ports by cases of its next state. -/

namespace Sys2Proof.Machine

/-! ## Commands -/

theorem countOk_eq_true_iff {p : Params} {n : Word} : countOk p n = true ↔ countInRange p n := by
  simp [countOk, countInRange]

/-- `START` passes its tests exactly outside RUNNING, with a committed configuration and a legal channel count (R192). -/
theorem startRejected_eq_false_iff {s : State} :
    startRejected s = false ↔
      s.phase ≠ .running ∧ s.cfg = .ok ∧ s.numCh ≠ 0 ∧ s.numCh.toNat ≤ s.params.maxCh := by
  simp [startRejected, and_assoc]

/-- The next states of `LOAD` (R191). -/
theorem execLoad_next {s t : State} (h : execLoad s = .next t) :
    t = s.raise .reject ∨
    (s.phase ≠ .running ∧ t = s.raise .configurationError) ∨
    (s.phase ≠ .running ∧ countInRange s.params s.numB ∧ countInRange s.params s.numA ∧ t = { s with cfg := .ok }) := by
  unfold execLoad at h
  split at h
  · cases h
    exact .inl rfl
  · rename_i hphase
    split at h
    · rename_i hcounts
      obtain ⟨hB, hA⟩ := (Bool.and_eq_true _ _).mp hcounts
      cases h
      exact .inr (.inr ⟨hphase, countOk_eq_true_iff.1 hB, countOk_eq_true_iff.1 hA, rfl⟩)
    · cases h
      exact .inr (.inl ⟨hphase, rfl⟩)

/-- The next states of `START` (R192). -/
theorem execStart_next {s t : State} (h : execStart s = .next t) :
    t = s.raise .reject ∨
    (startRejected s = false ∧ s.totalFrame = 0 ∧ t = s.clearStream.finishStream) ∨
    (startRejected s = false ∧ s.totalFrame ≠ 0 ∧ t = { s.clearStream with phase := .running }) := by
  unfold execStart at h
  split at h
  · cases h
    exact .inl rfl
  · rename_i hrej
    have hrej : startRejected s = false := Bool.eq_false_iff.2 hrej
    split at h
    · cases h
      exact .inr (.inl ⟨hrej, ‹_›, rfl⟩)
    · cases h
      exact .inr (.inr ⟨hrej, ‹_›, rfl⟩)

/-- A `FILT` block that is completed has accessed backed words only (R79). -/
theorem filtBlock_next_backed {s t : State} {c n : Nat} (h : filtBlock c n s = .next t) :
    (∀ i, i < n → backedAt s.params (finAddr s i) = true) ∧ (∀ i, i < n → backedAt s.params (foutAddr s i) = true) := by
  unfold filtBlock at h
  split at h
  · cases h
  · rename_i hR
    obtain ⟨hreads, -, rfl⟩ := readAll_ok hR
    dsimp only at h
    split at h
    · cases h
    · rename_i hW
      obtain ⟨hwrites, -⟩ := writeAll_ok hW
      exact ⟨fun i hi => hreads _ (List.mem_map_of_mem (List.mem_range.2 hi)),
        fun i hi => hwrites _ (List.mem_map_of_mem (f := Prod.fst) (List.mem_map_of_mem (List.mem_range.2 hi)))⟩

/-- The next states of `FILT` (R140): Reject, or a block of backed words filtered. -/
theorem execFilt_next {s t : State} {c n : Nat} (h : execFilt c n s = .next t) :
    t = s.raise .reject ∨
    (FiltReady s c n ∧ t = { s with
      xs := s.xs.set c (nextHistory (tapCount s) (historyOf s.xs c) (filtInput s n))
      mem := Memory.writeWords s.mem (filtWrites s n (filtOutput s c n))
      trace := s.trace ++ readEvents s.mem (filtReads s n) ++ writeEvents (filtWrites s n (filtOutput s c n)) }) := by
  unfold execFilt at h
  split at h
  · cases h
    exact .inl rfl
  · rename_i hrej
    obtain ⟨hphase, hcfg, hc⟩ := filtRejected_eq_false_iff.1 (Bool.eq_false_iff.2 hrej)
    split at h
    · cases h
    · rename_i hn
      obtain ⟨hin, hout⟩ := filtBlock_next_backed h
      rw [filtBlock_backed hin hout] at h
      cases h
      exact .inr ⟨⟨hphase, hcfg, hc, Nat.not_lt.1 hn, hin, hout⟩, rfl⟩

/-- A `PROC` in RUNNING that is completed has accessed backed words only (R79). -/
theorem procRunning_next_ready {s t : State} {nReq : Nat} (hphase : s.phase = .running)
    (hn : nReq ≤ s.params.blockLen) (h : procRunning nReq s = .next t) : ProcReady s nReq := by
  unfold procRunning at h
  dsimp only at h
  split at h
  · cases h
  · rename_i hR
    obtain ⟨hreads, -, rfl⟩ := readAll_ok hR
    split at h
    · cases h
    · rename_i hW
      obtain ⟨hwrites, -⟩ := writeAll_ok hW
      rw [engineCalls_state, List.map_append] at hwrites
      exact
        { running := hphase
          count := hn
          source := fun f c hf hc => hreads _ (List.mem_map_of_mem (mem_frameOrder.2 ⟨hf, hc⟩))
          dest := fun f c hf hc => hwrites _ (List.mem_append_left _
            (List.mem_map_of_mem (f := Prod.fst) (List.mem_map_of_mem (mem_frameOrder.2 ⟨hf, hc⟩))))
          out := fun g c hg hc => hwrites _ (List.mem_append_right _
            (List.mem_map_of_mem (f := Prod.fst) (List.mem_map_of_mem (mem_frameOrder.2 ⟨hg, hc⟩)))) }

/-- A `PROC` outside a stream changes sample memory and the trace, by its word writes (R170). -/
theorem procSilence_next {s t : State} {nReq : Nat} (h : procSilence nReq s = .next t) :
    ∃ ws, t = { s with mem := Memory.writeWords s.mem ws, trace := s.trace ++ writeEvents ws } := by
  unfold procSilence at h
  split at h
  · cases h
  · rename_i hW
    cases h
    exact ⟨_, (writeAll_ok hW).2⟩

/-- The next states of `PROC` (R160). -/
theorem execProc_next {s t : State} {nReq : Nat} (h : execProc nReq s = .next t) :
    (ProcReady s nReq ∧ t = advance (effectiveLen s nReq) { s with
      xs := historiesAfter (tapCount s) (procCalls s (effectiveLen s nReq)) s.xs
      mem := Memory.writeWords s.mem (procWrites s nReq (effectiveLen s nReq))
      trace := s.trace ++ readEvents s.mem (procReads s (effectiveLen s nReq)) ++
        writeEvents (procWrites s nReq (effectiveLen s nReq)) }) ∨
    (s.phase ≠ .running ∧
      ∃ ws, t = { s with mem := Memory.writeWords s.mem ws, trace := s.trace ++ writeEvents ws }) := by
  unfold execProc at h
  split at h
  · cases h
  · rename_i hn
    split at h
    · rename_i hphase
      have hready := procRunning_next_ready hphase (Nat.not_lt.1 hn) h
      rw [procRunning_backed hready] at h
      cases h
      exact .inl ⟨hready, rfl⟩
    · rename_i hphase
      exact .inr ⟨by simp [hphase], procSilence_next h⟩
    · rename_i hphase
      exact .inr ⟨by simp [hphase], procSilence_next h⟩

/-! ## The ports -/

/-- Only index 0 is `CMD` (R32). -/
theorem ofIndex_eq_cmd {idx : BitVec 5} (h : Reg.ofIndex idx = .cmd) : idx = 0 := by
  revert idx
  decide

/-- A write of a frozen register: Reject in RUNNING, else the write (R203). -/
theorem writeFrozen_cases (write : State → State) (s : State) :
    writeFrozen write s = s.raise .reject ∨ (s.phase ≠ .running ∧ writeFrozen write s = write s) := by
  unfold writeFrozen
  split
  · exact .inl rfl
  · exact .inr ⟨‹_›, rfl⟩

/-- What a transaction that is neither a legal command nor reset can do to the state (R200 to R207, R222, R70): nothing,
one of the two sticky flags set or cleared, a reply, a byte of memory, or one register or bank word written. -/
inductive PortEffect (s : State) : State → Prop
  | ignored : PortEffect s s
  | illCmd : PortEffect s (s.raise .illCmd)
  | rejected : PortEffect s (s.raise .reject)
  | cleared (v : Word) : PortEffect s (s.clearErr v)
  | answered (r : Reply) : PortEffect s (s.answer r)
  | memByte (a : Word) (b : Byte) : PortEffect s { s with mem := Memory.writeByte s.mem a.toNat b }
  | outBase (v : Word) : PortEffect s { s with outBase := baseStored v }
  | finBase (v : Word) : PortEffect s { s with finBase := baseStored v }
  | foutBase (v : Word) : PortEffect s { s with foutBase := baseStored v }
  | sel (v : Word) : PortEffect s { s with sel := selStored v }
  | numB (v : Word) (h : s.phase ≠ .running) : PortEffect s { s with numB := v, cfg := .unloaded }
  | numA (v : Word) (h : s.phase ≠ .running) : PortEffect s { s with numA := v, cfg := .unloaded }
  | numCh (v : Word) (h : s.phase ≠ .running) : PortEffect s { s with numCh := v }
  | totalFrame (v : Word) (h : s.phase ≠ .running) : PortEffect s { s with totalFrame := v }
  | srcBase (v : Word) (h : s.phase ≠ .running) : PortEffect s { s with srcBase := baseStored v }
  | dstBase (v : Word) (h : s.phase ≠ .running) : PortEffect s { s with dstBase := baseStored v }
  | bankB (i : Nat) (v : Word) (h : s.phase ≠ .running) :
      PortEffect s { s with bankB := setEntry s.bankB i v, cfg := .unloaded }
  | bankA (i : Nat) (v : Word) (h : s.phase ≠ .running) :
      PortEffect s { s with bankA := setEntry s.bankA i v, cfg := .unloaded }

theorem portEffect_writeFrozen {write : State → State} {s : State}
    (h : s.phase ≠ .running → PortEffect s (write s)) : PortEffect s (writeFrozen write s) := by
  obtain heq | ⟨hphase, heq⟩ := writeFrozen_cases write s
  · rw [heq]
    exact .rejected
  · rw [heq]
    exact h hphase

theorem portEffect_writeData (v : Word) (s : State) : PortEffect s (writeData v s) := by
  unfold writeData
  split
  · exact .rejected
  · rename_i hno
    have hphase : s.phase ≠ .running := fun hr => hno (.inr (.inl hr))
    split
    · exact .bankB _ v hphase
    · exact .bankA _ v hphase

/-- A write of a register other than `CMD` always has a next state, and it is an effect of the port (R201). -/
theorem writeReg_portEffect {r : Reg} (hr : r ≠ .cmd) (v : Word) (s : State) :
    ∃ t, writeReg r v s = .next t ∧ PortEffect s t := by
  cases r with
  | cmd => exact absurd rfl hr
  | status | cap | nextFrame | reserved => exact ⟨_, rfl, .ignored⟩
  | err => exact ⟨_, rfl, .cleared v⟩
  | numB => exact ⟨_, rfl, portEffect_writeFrozen (.numB v)⟩
  | numA => exact ⟨_, rfl, portEffect_writeFrozen (.numA v)⟩
  | numCh => exact ⟨_, rfl, portEffect_writeFrozen (.numCh v)⟩
  | totalFrame => exact ⟨_, rfl, portEffect_writeFrozen (.totalFrame v)⟩
  | srcBase => exact ⟨_, rfl, portEffect_writeFrozen (.srcBase v)⟩
  | dstBase => exact ⟨_, rfl, portEffect_writeFrozen (.dstBase v)⟩
  | outBase => exact ⟨_, rfl, .outBase v⟩
  | finBase => exact ⟨_, rfl, .finBase v⟩
  | foutBase => exact ⟨_, rfl, .foutBase v⟩
  | sel => exact ⟨_, rfl, .sel v⟩
  | data => exact ⟨_, rfl, portEffect_writeData v s⟩

/-- The next states of a HOST write of a register: a legal command executed, or an effect of the port (R33, R201). -/
theorem hostWrite_next {idx : BitVec 5} {v : Word} {s t : State} (h : writeReg (Reg.ofIndex idx) v s = .next t) :
    (∃ i, isCommand (.hostWrite idx v) i ∧ exec i s = .next t) ∨ PortEffect s t := by
  by_cases hcmd : Reg.ofIndex idx = .cmd
  · obtain rfl := ofIndex_eq_cmd hcmd
    change writeCmd v s = .next t at h
    cases hdec : decode v with
    | ok i =>
      rw [writeCmd_ok hdec] at h
      exact .inl ⟨i, ⟨v, rfl, hdec⟩, h⟩
    | error e =>
      rw [writeCmd_error hdec] at h
      cases h
      exact .inr .illCmd
  · obtain ⟨t', heq, heffect⟩ := writeReg_portEffect hcmd v s
    rw [heq] at h
    cases h
    exact .inr heffect

/-- The next states of a transaction. -/
theorem transact_next {tr : Transaction} {s t : State} (h : transact tr s = .next t) :
    (tr = .reset ∧ t = s.resetCore) ∨ (∃ i, isCommand tr i ∧ exec i s = .next t) ∨ PortEffect s t := by
  cases tr with
  | hostRead idx =>
    cases h
    exact .inr (.inr (.answered _))
  | hostWrite idx v => exact .inr (hostWrite_next h)
  | supRead =>
    cases h
    exact .inr (.inr (.answered _))
  | reset =>
    cases h
    exact .inl ⟨rfl, rfl⟩
  | hostMemWrite a b =>
    change hostMemWrite a b s = .next t at h
    unfold hostMemWrite at h
    split at h
    · cases h
      exact .inr (.inr (.memByte a b))
    · cases h
  | hostMemRead a =>
    change hostMemRead a s = .next t at h
    unfold hostMemRead at h
    split at h
    · cases h
      exact .inr (.inr (.answered _))
    · cases h

end Sys2Proof.Machine
end

section
/-! PROOFS. The invariants of spec/10_state.md R50: they hold after reset and every step keeps them. -/

namespace Sys2Proof.Machine

/-! ## Reset -/

theorem baseAligned_zero : baseAligned 0 := BitVec.zero_and

/-- The state after reset meets the invariants (R50, R51). -/
theorem resetOf_inv {p : Params} (hp : p.Legal) : (State.resetOf p).Inv where
  params_legal := hp
  bankB_length := List.length_replicate
  bankA_length := List.length_replicate
  xs_length := List.length_replicate
  xs_entries := fun h hh => by rw [List.eq_of_mem_replicate hh, List.length_replicate]; rfl
  ys_zero := rfl
  complete_iff := by simp [State.resetOf]
  counts_ok := fun h => nomatch h
  running_cfg := fun h => nomatch h
  running_numCh := fun h => nomatch h
  running_next := fun h => nomatch h
  bases := ⟨baseAligned_zero, baseAligned_zero, baseAligned_zero, baseAligned_zero, baseAligned_zero⟩
  sel_bits := BitVec.zero_and
  mem_wf := reset_mem_wf p

theorem default_legal : Params.default.Legal := by decide

/-- Settles O11: the base case of the invariants, for every legal parameter value. -/
theorem resetStateMeetsTheInvariants : Obligations.ResetStateMeetsTheInvariants :=
  ⟨fun _ hp => resetOf_inv hp, resetOf_inv default_legal⟩

/-- Reset keeps the invariants: only sample memory is not what it is in the reset state. -/
theorem State.Inv.resetCore {s : State} (h : s.Inv) : s.resetCore.Inv :=
  { resetOf_inv h.params_legal with mem_wf := h.mem_wf }

/-! ## The ports -/

/-- The hardwired bits of a base register stay 0 (R41). -/
theorem baseAligned_baseStored (v : Word) : baseAligned (baseStored v) := by
  simp [baseAligned, baseStored, BitVec.and_assoc]

/-- The hardwired bits of `SEL` stay 0 (R44). -/
theorem selStored_hardwired (v : Word) : selStored v &&& ~~~0x00000000FFFFFF03 = 0 := by
  simp [selStored, BitVec.and_assoc]

/-- The requests to come are not part of the invariants. -/
theorem State.Inv.with_inbox {s : State} (h : s.Inv) (l : List Transaction) : State.Inv { s with inbox := l } :=
  { h with }

/-- The invariants are kept when memory and the trace change, memory staying in canonical form. -/
theorem State.Inv.with_memory {s : State} (h : s.Inv) {m : Memory} (hm : Memory.wf m = true) (tr : List Event) :
    State.Inv { s with mem := m, trace := tr } :=
  { h with mem_wf := hm }

theorem State.Inv.raise_reject {s : State} (h : s.Inv) : (s.raise .reject).Inv := { h with }

/-- Outside a stream the configuration may be voided with any new counts and banks of the right length (R203, R206). -/
theorem State.Inv.void_cfg {s : State} (h : s.Inv) (hphase : s.phase ≠ .running) {b a : List Word} {nb na : Word}
    (hb : b.length = s.params.maxCoef) (ha : a.length = s.params.maxCoef) :
    State.Inv { s with bankB := b, bankA := a, numB := nb, numA := na, cfg := .unloaded } :=
  { h with
    bankB_length := hb
    bankA_length := ha
    counts_ok := fun hok => nomatch hok
    running_cfg := fun hr => absurd hr hphase }

/-- Every effect of the ports keeps the invariants. -/
theorem PortEffect.keeps_inv {s t : State} (h : PortEffect s t) (hs : s.Inv) : t.Inv := by
  obtain ⟨hsrc, hdst, hout, hfin, hfout⟩ := hs.bases
  cases h with
  | ignored => exact hs
  | illCmd => exact { hs with }
  | rejected => exact hs.raise_reject
  | cleared v => exact { hs with }
  | answered r => exact { hs with }
  | memByte a b => exact hs.with_memory (writeByte_wf hs.mem_wf a.isLt) s.trace
  | outBase v => exact { hs with bases := ⟨hsrc, hdst, baseAligned_baseStored v, hfin, hfout⟩ }
  | finBase v => exact { hs with bases := ⟨hsrc, hdst, hout, baseAligned_baseStored v, hfout⟩ }
  | foutBase v => exact { hs with bases := ⟨hsrc, hdst, hout, hfin, baseAligned_baseStored v⟩ }
  | sel v => exact { hs with sel_bits := selStored_hardwired v }
  | numB v hphase => exact hs.void_cfg hphase hs.bankB_length hs.bankA_length
  | numA v hphase => exact hs.void_cfg hphase hs.bankB_length hs.bankA_length
  | numCh v hphase => exact { hs with running_numCh := fun hr => absurd hr hphase }
  | totalFrame v hphase => exact { hs with running_next := fun hr => absurd hr hphase }
  | srcBase v hphase => exact { hs with bases := ⟨baseAligned_baseStored v, hdst, hout, hfin, hfout⟩ }
  | dstBase v hphase => exact { hs with bases := ⟨hsrc, baseAligned_baseStored v, hout, hfin, hfout⟩ }
  | bankB i v hphase => exact hs.void_cfg hphase (List.length_set.trans hs.bankB_length) hs.bankA_length
  | bankA i v hphase => exact hs.void_cfg hphase hs.bankB_length (List.length_set.trans hs.bankA_length)

theorem PortEffect.params_eq {s t : State} (h : PortEffect s t) : t.params = s.params := by
  cases h <;> rfl

/-! ## `LOAD` and `START` -/

theorem execLoad_keeps_inv {s t : State} (hs : s.Inv) (h : execLoad s = .next t) : t.Inv := by
  obtain rfl | ⟨hphase, rfl⟩ | ⟨hphase, hB, hA, rfl⟩ := execLoad_next h
  · exact hs.raise_reject
  · exact { hs with counts_ok := fun hok => (nomatch hok), running_cfg := fun hr => absurd hr hphase }
  · exact { hs with counts_ok := fun _ => ⟨hB, hA⟩, running_cfg := fun _ => rfl }

theorem zeroHistories_length (p : Params) : (zeroHistories p).length = p.maxCh := List.length_replicate

theorem zeroHistories_entries {p : Params} : ∀ h ∈ zeroHistories p, h.length = p.hcap := by
  intro h hh
  rw [List.eq_of_mem_replicate hh, List.length_replicate]

theorem execStart_keeps_inv {s t : State} (hs : s.Inv) (h : execStart s = .next t) : t.Inv := by
  obtain rfl | ⟨_, _, rfl⟩ | ⟨hrej, htotal, rfl⟩ := execStart_next h
  · exact hs.raise_reject
  · exact
      { hs with
        xs_length := zeroHistories_length _
        xs_entries := zeroHistories_entries
        ys_zero := rfl
        complete_iff := by simp
        running_cfg := fun hr => nomatch hr
        running_numCh := fun hr => nomatch hr
        running_next := fun hr => nomatch hr }
  · obtain ⟨_, hcfg, hzero, hmax⟩ := startRejected_eq_false_iff.1 hrej
    have hnumCh : s.numCh.toNat ≠ 0 := fun h0 => hzero (BitVec.eq_of_toNat_eq h0)
    have hframes : s.totalFrame.toNat ≠ 0 := fun h0 => htotal (BitVec.eq_of_toNat_eq h0)
    exact
      { hs with
        xs_length := zeroHistories_length _
        xs_entries := zeroHistories_entries
        ys_zero := rfl
        complete_iff := by simp
        running_cfg := fun _ => hcfg
        running_numCh := fun _ => ⟨Nat.one_le_iff_ne_zero.2 hnumCh, hmax⟩
        running_next := fun _ => Nat.pos_of_ne_zero hframes }

/-! ## The engine -/

/-- The signed range of a count as an unsigned bound (R37). -/
theorem toNat_le_of_countInRange {p : Params} {n : Word} (h : countInRange p n) : n.toNat ≤ p.maxCoef := by
  obtain ⟨h0, hmax⟩ := h
  have hn := n.isLt
  rw [BitVec.toInt_eq_toNat_cond] at h0 hmax
  split at h0 <;> omega

/-- Under `CFG = OK` the history in use fits the history file (R10, R130). -/
theorem State.Inv.historyLen_le_hcap {s : State} (hs : s.Inv) (hcfg : s.cfg = .ok) :
    historyLen (tapCount s) ≤ s.params.hcap :=
  Nat.sub_le_sub_right (toNat_le_of_countInRange (hs.counts_ok hcfg).1) 1

/-- An engine call keeps the length of every history file (R137). -/
theorem set_nextHistory_entries {mb L : Nat} {files : List (List Word)} (c : Nat) (x : List Word) (hmb : historyLen mb ≤ L)
    (hf : ∀ h ∈ files, h.length = L) :
    ∀ h ∈ files.set c (nextHistory mb (historyOf files c) x), h.length = L := by
  by_cases hc : c < files.length
  · have hlen : (historyOf files c).length = L := hf _ (historyOf_mem hc)
    intro h hh
    obtain hold | rfl := List.mem_or_eq_of_mem_set hh
    · exact hf h hold
    · rw [nextHistory_length (hmb.trans_eq hlen.symm), hlen]
  · rwa [List.set_eq_of_length_le (Nat.not_lt.1 hc)]

/-- The engine calls of a `PROC` keep the length of every history file (R165, R137). -/
theorem historiesAfter_entries {mb L : Nat} (l : List (Nat × List Word)) {files : List (List Word)}
    (hmb : historyLen mb ≤ L) (hf : ∀ h ∈ files, h.length = L) : ∀ h ∈ historiesAfter mb l files, h.length = L := by
  induction l generalizing files with
  | nil => exact hf
  | cons cx l ih => exact ih (set_nextHistory_entries cx.1 cx.2 hmb hf)

/-- The invariants are kept when the histories change, their number and their lengths staying. -/
theorem State.Inv.with_histories {s : State} (h : s.Inv) {xs : List (List Word)} (hl : xs.length = s.xs.length)
    (he : ∀ hist ∈ xs, hist.length = s.params.hcap) : State.Inv { s with xs := xs } :=
  { h with xs_length := hl.trans h.xs_length, xs_entries := he }

theorem execFilt_keeps_inv {s t : State} {c n : Nat} (hs : s.Inv) (h : execFilt c n s = .next t) : t.Inv := by
  obtain rfl | ⟨hready, rfl⟩ := execFilt_next h
  · exact hs.raise_reject
  · exact (hs.with_histories List.length_set
      (set_nextHistory_entries c _ (hs.historyLen_le_hcap hready.cfg_ok) hs.xs_entries)).with_memory
      (writeWords_wf hs.mem_wf _) _

/-! ## `PROC` -/

/-- A `PROC` takes at most the frames left (R163). -/
theorem nextFrame_add_effectiveLen_le {s : State} (h : s.nextFrame.toNat ≤ s.totalFrame.toNat) (nReq : Nat) :
    s.nextFrame.toNat + effectiveLen s nReq ≤ s.totalFrame.toNat := by
  unfold effectiveLen
  omega

/-- Steps 6 and 7 of `PROC` keep the invariants when at most the frames left are taken (R168, R169). -/
theorem State.Inv.advance {s : State} (hs : s.Inv) {n : Nat} (h : s.nextFrame.toNat + n ≤ s.totalFrame.toNat) :
    (advance n s).Inv := by
  obtain ⟨hnext, heq⟩ := advance_within h
  rw [heq]
  split
  · exact
      { hs with
        complete_iff := by simp
        running_cfg := fun hr => nomatch hr
        running_numCh := fun hr => nomatch hr
        running_next := fun hr => nomatch hr }
  · rename_i hne
    exact { hs with running_next := fun _ => hnext.trans_lt (lt_of_le_of_ne h hne) }

theorem execProc_keeps_inv {s t : State} {nReq : Nat} (hs : s.Inv) (h : execProc nReq s = .next t) : t.Inv := by
  obtain ⟨hready, rfl⟩ | ⟨_, ws, rfl⟩ := execProc_next h
  · have hxs := historiesAfter_entries (procCalls s (effectiveLen s nReq))
      (hs.historyLen_le_hcap (hs.running_cfg hready.running)) hs.xs_entries
    have hmid := (hs.with_histories (historiesAfter_length _ _ _) hxs).with_memory
      (writeWords_wf hs.mem_wf (procWrites s nReq (effectiveLen s nReq)))
    exact (hmid _).advance (nextFrame_add_effectiveLen_le (hs.running_next hready.running).le nReq)
  · exact hs.with_memory (writeWords_wf hs.mem_wf ws) _

/-! ## Every step -/

theorem exec_keeps_inv {i : Instr} {s t : State} (hs : s.Inv) (h : exec i s = .next t) : t.Inv := by
  cases i with
  | load => exact execLoad_keeps_inv hs h
  | start => exact execStart_keeps_inv hs h
  | proc nReq => exact execProc_keeps_inv hs h
  | filt c n => exact execFilt_keeps_inv hs h

theorem exec_params_eq {i : Instr} {s t : State} (h : exec i s = .next t) : t.params = s.params := by
  cases i with
  | load => obtain rfl | ⟨_, rfl⟩ | ⟨_, _, _, rfl⟩ := execLoad_next h <;> rfl
  | start => obtain rfl | ⟨_, _, rfl⟩ | ⟨_, _, rfl⟩ := execStart_next h <;> rfl
  | proc nReq =>
    obtain ⟨_, rfl⟩ | ⟨_, ws, rfl⟩ := execProc_next h
    · exact advance_params _ _
    · rfl
  | filt c n => obtain rfl | ⟨_, rfl⟩ := execFilt_next h <;> rfl

theorem transact_keeps_inv {tr : Transaction} {s t : State} (hs : s.Inv) (h : transact tr s = .next t) : t.Inv := by
  obtain ⟨_, rfl⟩ | ⟨i, _, hexec⟩ | heffect := transact_next h
  · exact hs.resetCore
  · exact exec_keeps_inv hs hexec
  · exact heffect.keeps_inv hs

theorem transact_params_eq {tr : Transaction} {s t : State} (h : transact tr s = .next t) : t.params = s.params := by
  obtain ⟨_, rfl⟩ | ⟨i, _, hexec⟩ | heffect := transact_next h
  · rfl
  · exact exec_params_eq hexec
  · exact heffect.params_eq

/-- Settles O12: a step waits or takes one transaction, and every transaction keeps the invariants. -/
theorem everyStepKeepsTheInvariants : Obligations.EveryStepKeepsTheInvariants := by
  intro s t hs h
  cases hin : s.inbox with
  | nil =>
    rw [step_nil hin] at h
    cases h
    exact ⟨hs, rfl⟩
  | cons tr rest =>
    rw [step_cons hin] at h
    exact ⟨transact_keeps_inv (hs.with_inbox rest) h, (transact_params_eq h :)⟩

end Sys2Proof.Machine
end

section
/-! PROOFS. The sticky flags `ERR` are not read by any command: each operation of a command commutes with setting them
(spec/10_state.md R31, spec/60_exceptions.md R227). -/

namespace Sys2Proof.Machine

/-- The state with the two sticky flags set as well where `ill` and `rej` say so. -/
def State.orFlags (ill rej : Bool) (s : State) : State :=
  { s with errIllCmd := s.errIllCmd || ill, errReject := s.errReject || rej }

section OrFlags

variable (ill rej : Bool)

theorem memRead_orFlags (a : Word) (s : State) :
    memRead a (s.orFlags ill rej) = (memRead a s).map (Prod.map id (State.orFlags ill rej)) := by
  unfold memRead
  change (if backedAt s.params a then _ else _) = _
  split <;> rfl

theorem memWrite_orFlags (a v : Word) (s : State) :
    memWrite a v (s.orFlags ill rej) = (memWrite a v s).map (State.orFlags ill rej) := by
  unfold memWrite
  change (if backedAt s.params a then _ else _) = _
  split <;> rfl

theorem readAll_orFlags (as : List Word) (s : State) :
    readAll as (s.orFlags ill rej) = (readAll as s).map (Prod.map id (State.orFlags ill rej)) := by
  induction as generalizing s with
  | nil => rfl
  | cons a as ih =>
    rw [readAll, readAll, memRead_orFlags]
    cases memRead a s with
    | error f => rfl
    | ok r =>
      obtain ⟨v, s1⟩ := r
      dsimp only [Except.map, Prod.map]
      rw [ih]
      cases readAll as s1 <;> rfl

theorem writeAll_orFlags (ws : List (Word × Word)) (s : State) :
    writeAll ws (s.orFlags ill rej) = (writeAll ws s).map (State.orFlags ill rej) := by
  induction ws generalizing s with
  | nil => rfl
  | cons w ws ih =>
    rw [writeAll, writeAll, memWrite_orFlags]
    cases memWrite w.1 w.2 s with
    | error f => rfl
    | ok s1 => exact ih s1

theorem engineCall_orFlags (c : Nat) (x : List Word) (s : State) :
    engineCall c x (s.orFlags ill rej) = Prod.map id (State.orFlags ill rej) (engineCall c x s) := rfl

theorem engineCalls_orFlags (l : List (Nat × List Word)) (s : State) :
    engineCalls l (s.orFlags ill rej) = Prod.map id (State.orFlags ill rej) (engineCalls l s) := by
  induction l generalizing s with
  | nil => rfl
  | cons cx l ih =>
    simp only [engineCalls, engineCall_orFlags, Prod.map_fst, Prod.map_snd, ih]
    rfl

theorem advance_orFlags (n : Nat) (s : State) :
    advance n (s.orFlags ill rej) = (advance n s).orFlags ill rej := by
  unfold advance
  change (if s.totalFrame ≤ s.nextFrame + BitVec.ofNat 64 n then _ else _) = _
  dsimp only
  split <;> rfl

theorem execLoad_orFlags (s : State) :
    execLoad (s.orFlags ill rej) = mapNext (State.orFlags ill rej) (execLoad s) := by
  unfold execLoad
  change (if s.phase = .running then _ else if countOk s.params s.numB && countOk s.params s.numA then _ else _) = _
  split
  · rfl
  · split <;> rfl

theorem execStart_orFlags (s : State) :
    execStart (s.orFlags ill rej) = mapNext (State.orFlags ill rej) (execStart s) := by
  unfold execStart
  change (if startRejected s then _ else if s.totalFrame = 0 then _ else _) = _
  split
  · rfl
  · split <;> rfl

theorem filtBlock_orFlags (c n : Nat) (s : State) :
    filtBlock c n (s.orFlags ill rej) = mapNext (State.orFlags ill rej) (filtBlock c n s) := by
  have hreads : filtReads (s.orFlags ill rej) n = filtReads s n := rfl
  have hwrites : ∀ y, filtWrites (s.orFlags ill rej) n y = filtWrites s n y := fun _ => rfl
  simp only [filtBlock, hreads, hwrites, readAll_orFlags]
  cases readAll (filtReads s n) s with
  | error f => rfl
  | ok r =>
    simp only [Except.map, Prod.map_fst, Prod.map_snd, engineCall_orFlags, writeAll_orFlags, id]
    cases writeAll (filtWrites s n (engineCall c r.1 r.2).1) (engineCall c r.1 r.2).2 <;> rfl

theorem execFilt_orFlags (c n : Nat) (s : State) :
    execFilt c n (s.orFlags ill rej) = mapNext (State.orFlags ill rej) (execFilt c n s) := by
  unfold execFilt
  change (if filtRejected s c then _ else if s.params.blockLen < n then _ else _) = _
  split
  · rfl
  · split
    · rfl
    · exact filtBlock_orFlags ill rej c n s

theorem procRunning_orFlags (nReq : Nat) (s : State) :
    procRunning nReq (s.orFlags ill rej) = mapNext (State.orFlags ill rej) (procRunning nReq s) := by
  have hlen : effectiveLen (s.orFlags ill rej) nReq = effectiveLen s nReq := rfl
  have hnumCh : (s.orFlags ill rej).numCh = s.numCh := rfl
  have hreads : ∀ n, procReads (s.orFlags ill rej) n = procReads s n := fun _ => rfl
  have hdst : ∀ n ys, dstWrites (s.orFlags ill rej) n ys = dstWrites s n ys := fun _ _ => rfl
  have hout : ∀ n ys, outWrites (s.orFlags ill rej) nReq n ys = outWrites s nReq n ys := fun _ _ => rfl
  simp only [procRunning, hlen, hnumCh, hreads, hdst, hout, readAll_orFlags]
  generalize effectiveLen s nReq = n
  cases readAll (procReads s n) s with
  | error f => rfl
  | ok r =>
    simp only [Except.map, Prod.map_fst, Prod.map_snd, engineCalls_orFlags, writeAll_orFlags, id]
    generalize engineCalls _ r.2 = e
    cases writeAll (dstWrites s n e.1 ++ outWrites s nReq n e.1) e.2 with
    | error f => rfl
    | ok s3 => exact congrArg Host.Outcome.next (advance_orFlags ill rej n s3)

theorem procSilence_orFlags (nReq : Nat) (s : State) :
    procSilence nReq (s.orFlags ill rej) = mapNext (State.orFlags ill rej) (procSilence nReq s) := by
  have hout : outWrites (s.orFlags ill rej) nReq 0 [] = outWrites s nReq 0 [] := rfl
  rw [procSilence, procSilence, hout, writeAll_orFlags]
  cases writeAll (outWrites s nReq 0 []) s <;> rfl

theorem execProc_orFlags (nReq : Nat) (s : State) :
    execProc nReq (s.orFlags ill rej) = mapNext (State.orFlags ill rej) (execProc nReq s) := by
  have hphase : (s.orFlags ill rej).phase = s.phase := rfl
  unfold execProc
  change (if s.params.blockLen < nReq then _ else _) = _
  split
  · rfl
  · rw [hphase]
    cases s.phase with
    | running => exact procRunning_orFlags ill rej nReq s
    | idle => exact procSilence_orFlags ill rej nReq s
    | done => exact procSilence_orFlags ill rej nReq s

/-- A command commutes with setting flags before it. -/
theorem exec_orFlags (i : Instr) (s : State) :
    exec i (s.orFlags ill rej) = mapNext (State.orFlags ill rej) (exec i s) := by
  cases i with
  | load => exact execLoad_orFlags ill rej s
  | start => exact execStart_orFlags ill rej s
  | proc nReq => exact execProc_orFlags ill rej nReq s
  | filt c n => exact execFilt_orFlags ill rej c n s

end OrFlags

/-- Settles O45: any flags are cleared flags with those flags set before the command. -/
theorem errorFlagsAreNeverRead : Obligations.ErrorFlagsAreNeverRead :=
  fun i s ill rej => exec_orFlags ill rej i { s with errIllCmd := false, errReject := false }

end Sys2Proof.Machine
end

section
/-! PROOFS. Who writes what: the histories have no writer but the engine, `START` and reset, and a running stream's parameters
are frozen (spec/10_state.md R21, R23, R28, R38). -/

namespace Sys2Proof.Machine

/-! ## The history files (R23, R28, R206) -/

/-- No effect of the ports reaches a history file (R206). -/
theorem PortEffect.histories_eq {s t : State} (h : PortEffect s t) : t.ys = s.ys ∧ t.xs = s.xs := by
  cases h <;> exact ⟨rfl, rfl⟩

/-- Only `START` writes `YS` among the commands; `LOAD` leaves `XS` as well (R139, R190). -/
theorem exec_histories {i : Instr} {s t : State} (h : exec i s = .next t) (hstart : i ≠ .start) :
    t.ys = s.ys ∧ ((∀ n, i ≠ .proc n) → (∀ c n, i ≠ .filt c n) → t.xs = s.xs) := by
  cases i with
  | start => exact absurd rfl hstart
  | load => obtain rfl | ⟨_, rfl⟩ | ⟨_, _, _, rfl⟩ := execLoad_next h <;> exact ⟨rfl, fun _ _ => rfl⟩
  | proc nReq =>
    refine ⟨?_, fun hproc => absurd rfl (hproc nReq)⟩
    obtain ⟨_, rfl⟩ | ⟨_, ws, rfl⟩ := execProc_next h
    · exact advance_ys _ _
    · rfl
  | filt c n =>
    refine ⟨?_, fun _ hfilt => absurd rfl (hfilt c n)⟩
    obtain rfl | ⟨_, rfl⟩ := execFilt_next h <;> rfl

/-- Settles O49: reset apart, a transaction is a command or an effect of the ports. -/
theorem historiesHaveNoOtherWriter : Obligations.HistoriesHaveNoOtherWriter := by
  intro s t tr rest hin h hreset hstart
  rw [step_cons hin] at h
  obtain ⟨htr, _⟩ | ⟨i, hi, hexec⟩ | heffect := transact_next h
  · exact absurd htr hreset
  · obtain ⟨hys, hxs⟩ := exec_histories hexec (fun heq => hstart (heq ▸ hi))
    exact ⟨hys, fun hproc hfilt => hxs (fun n heq => hproc n (heq ▸ hi)) (fun c n heq => hfilt c n (heq ▸ hi))⟩
  · obtain ⟨hys, hxs⟩ := heffect.histories_eq
    exact ⟨hys, fun _ _ => hxs⟩

/-! ## A running stream (R21, R38, R190, R203) -/

/-- The two states agree in the FilterSpec, the channel count, the length, the source and the destination. -/
def SameStreamParameters (s t : State) : Prop :=
  t.bankB = s.bankB ∧ t.bankA = s.bankA ∧ t.numB = s.numB ∧ t.numA = s.numA ∧ t.cfg = s.cfg ∧
  t.numCh = s.numCh ∧ t.totalFrame = s.totalFrame ∧ t.srcBase = s.srcBase ∧ t.dstBase = s.dstBase

/-- In RUNNING no effect of the ports changes the stream's parameters (R203, R206). -/
theorem PortEffect.frozen {s t : State} (h : PortEffect s t) (hrun : s.phase = .running) : SameStreamParameters s t := by
  cases h with
  | numB v hphase | numA v hphase | numCh v hphase | totalFrame v hphase | srcBase v hphase | dstBase v hphase
  | bankB i v hphase | bankA i v hphase => exact absurd hrun hphase
  | _ => exact ⟨rfl, rfl, rfl, rfl, rfl, rfl, rfl, rfl, rfl⟩

/-- In RUNNING `LOAD` and `START` are rejected (R190); `PROC` and `FILT` write other elements only. -/
theorem exec_frozen {i : Instr} {s t : State} (h : exec i s = .next t) (hrun : s.phase = .running) :
    SameStreamParameters s t := by
  have hrejected : SameStreamParameters s (s.raise .reject) := ⟨rfl, rfl, rfl, rfl, rfl, rfl, rfl, rfl, rfl⟩
  cases i with
  | load =>
    obtain rfl | ⟨hphase, _⟩ | ⟨hphase, _⟩ := execLoad_next h
    · exact hrejected
    · exact absurd hrun hphase
    · exact absurd hrun hphase
  | start =>
    obtain rfl | ⟨hrej, _⟩ | ⟨hrej, _⟩ := execStart_next h
    · exact hrejected
    · exact absurd hrun (startRejected_eq_false_iff.1 hrej).1
    · exact absurd hrun (startRejected_eq_false_iff.1 hrej).1
  | proc nReq =>
    obtain ⟨_, rfl⟩ | ⟨hphase, _⟩ := execProc_next h
    · exact ⟨advance_bankB _ _, advance_bankA _ _, advance_numB _ _, advance_numA _ _, advance_cfg _ _,
        advance_numCh _ _, advance_totalFrame _ _, advance_srcBase _ _, advance_dstBase _ _⟩
    · exact absurd hrun hphase
  | filt c n =>
    obtain rfl | ⟨hready, _⟩ := execFilt_next h
    · exact hrejected
    · exact absurd hrun hready.not_running

/-- Settles O50: in RUNNING neither a command nor an effect of the ports changes a parameter of the stream. -/
theorem runningStreamIsFrozen : Obligations.RunningStreamIsFrozen := by
  intro s t hrun h hreset
  cases hin : s.inbox with
  | nil =>
    rw [step_nil hin] at h
    cases h
    exact ⟨rfl, rfl, rfl, rfl, rfl, rfl, rfl, rfl, rfl⟩
  | cons tr rest =>
    rw [step_cons hin] at h
    obtain ⟨rfl, _⟩ | ⟨i, _, hexec⟩ | heffect := transact_next h
    · exact absurd (congrArg List.head? hin) hreset
    · exact (exec_frozen hexec hrun :)
    · exact (heffect.frozen hrun :)

end Sys2Proof.Machine
end

section
/-! PROOFS. The elements of the state as HOST sees them: all zero after reset, and the words of `STATUS`, `CAP` and `DATA`
(spec/10_state.md R34, R36, R44, R45, R51). -/

namespace Sys2Proof.Machine

/-! ## `STATUS` and `ERR` as numbers (R34, R35) -/

/-- `STATUS` as a number, from the numbers of its fields. -/
theorem statusWord_toNat (s : State) :
    (statusWord s).toNat = s.complete.toNat + 2 * s.phase.code.toNat + 8 * s.cfg.code.toNat := by
  unfold statusWord
  cases s.cfg <;> cases s.phase <;> cases s.complete <;> rfl

theorem errWord_of_clear {s : State} (hill : s.errIllCmd = false) (hrej : s.errReject = false) : errWord s = 0 := by
  rw [errWord, hill, hrej]
  decide

/-! ## Reset (R51) -/

theorem entry_replicate_zero (n k : Nat) : entry (List.replicate n 0) k = 0 := by
  by_cases hk : k < n
  · simp [entry, List.getD_eq_getElem?_getD, hk]
  · exact entry_of_ge (by simpa using hk)

theorem historyOf_of_ge {files : List (List Word)} {c : Nat} (h : files.length ≤ c) : historyOf files c = [] := by
  simp [historyOf, List.getD_eq_getElem?_getD, h]

theorem entry_zeroHistories (p : Params) (c i : Nat) : entry (historyOf (zeroHistories p) c) i = 0 := by
  by_cases hc : c < p.maxCh
  · rw [historyOf_zero hc, entry_replicate_zero]
  · rw [historyOf_of_ge (by rw [zeroHistories_length]; exact Nat.not_lt.1 hc)]
    rfl

theorem historyOf_zeroHistories_length {p : Params} {c : Nat} (hc : c < p.maxCh) :
    (historyOf (zeroHistories p) c).length = p.maxCoef - 1 :=
  zeroHistories_entries _ (historyOf_mem (hc.trans_eq (zeroHistories_length p).symm))

/-- Settles O9: the banks and the histories are lists of zeros; every other element is written out in `State.resetOf`. -/
theorem resetLeavesEveryElementZero : Obligations.ResetLeavesEveryElementZero := by
  refine ⟨fun p => ⟨List.length_replicate, List.length_replicate, entry_replicate_zero _, entry_replicate_zero _,
    zeroHistories_length p, zeroHistories_length p,
    fun c hc => ⟨historyOf_zeroHistories_length hc, historyOf_zeroHistories_length hc⟩,
    entry_zeroHistories p, entry_zeroHistories p, ?_⟩, rfl, resetCore_mem⟩
  exact ⟨rfl, rfl, rfl, rfl, rfl, rfl, rfl, rfl, rfl, rfl, rfl, rfl, rfl, rfl, rfl, rfl,
    BitVec.eq_of_toNat_eq (statusWord_toNat _), errWord_of_clear rfl rfl⟩

/-! ## The values of `STATUS` (R34) -/

/-- Settles O34: the fields are numbers; under the invariants `COMPLETE` says DONE, and RUNNING has `CFG` = OK. -/
theorem statusTakesSevenValues : Obligations.StatusTakesSevenValues := by
  constructor
  · intro s
    rw [statusWord_toNat]
    cases s.complete <;> cases s.phase <;> cases s.cfg <;> rfl
  · intro s hs
    have hcomplete : s.complete = decide (s.phase = .done) := by
      rw [Bool.eq_iff_iff, hs.complete_iff, decide_eq_true_eq]
    unfold statusWord
    rw [hcomplete]
    cases hphase : s.phase with
    | idle => cases s.cfg <;> decide
    | running =>
      rw [hs.running_cfg hphase]
      decide
    | done => cases s.cfg <;> decide

/-! ## `CAP` (R36) -/

/-- `CAP` as a number, when the parameters fit their fields. -/
theorem capWord_toNat {p : Params} (hcoef : p.maxCoef < 2 ^ 16) (hch : p.maxCh < 2 ^ 16) (hlen : p.blockLen < 2 ^ 32) :
    (capWord p).toNat = p.blockLen * 2 ^ 32 + p.maxCh * 2 ^ 16 + p.maxCoef := by
  simp only [capWord, BitVec.toNat_append, BitVec.toNat_ofNat, Nat.mod_eq_of_lt hcoef, Nat.mod_eq_of_lt hch,
    Nat.mod_eq_of_lt hlen]
  rw [← Nat.shiftLeft_add_eq_or_of_lt hch, ← Nat.shiftLeft_add_eq_or_of_lt hcoef, Nat.shiftLeft_eq, Nat.shiftLeft_eq]
  omega

/-- Settles O35: the three fields do not overlap, and a write of index 3 is ignored. -/
theorem capShowsTheParameters : Obligations.CapShowsTheParameters := by
  refine ⟨fun p hp => ?_, by decide, fun s v rest hin => ?_⟩
  · obtain ⟨⟨_, hcoef⟩, ⟨_, hch⟩, _, hlen⟩ := hp
    rw [capWord_toNat (by omega) (by omega) (by omega)]
    omega
  · rw [step_cons hin]
    rfl

/-! ## `DATA` (R44, R45) -/

theorem selBank_eq (s : State) : selBank s = s.sel.toNat % 4 := by
  simp [selBank, BitVec.extractLsb'_toNat]

theorem selCh_eq (s : State) : selCh s = s.sel.toNat / 2 ^ 8 % 2 ^ 8 := by
  simp [selCh, BitVec.extractLsb'_toNat, Nat.shiftRight_eq_div_pow]

theorem selIdx_eq (s : State) : selIdx s = s.sel.toNat / 2 ^ 16 % 2 ^ 16 := by
  simp [selIdx, BitVec.extractLsb'_toNat, Nat.shiftRight_eq_div_pow]

theorem selBank_lt (s : State) : selBank s < 4 := (s.sel.extractLsb' 0 2).isLt

/-- `DATA` shows bank `B` under `SEL.BANK` = 0. -/
theorem dataWindow_bankB {s : State} (h : selBank s = 0) :
    dataWindow s = if selIdx s < s.params.maxCoef then entry s.bankB (selIdx s) else 0 := by
  simp [dataWindow, h]

/-- `DATA` shows bank `A` under `SEL.BANK` = 1. -/
theorem dataWindow_bankA {s : State} (h : selBank s = 1) :
    dataWindow s = if selIdx s < s.params.maxCoef then entry s.bankA (selIdx s) else 0 := by
  simp [dataWindow, h]

/-- `DATA` shows `XS` under `SEL.BANK` = 2. -/
theorem dataWindow_xs {s : State} (h : selBank s = 2) :
    dataWindow s = if selCh s < s.params.maxCh ∧ selIdx s < s.params.hcap
      then entry (historyOf s.xs (selCh s)) (selIdx s) else 0 := by
  simp [dataWindow, h]

/-- `DATA` shows `YS` under `SEL.BANK` = 3. -/
theorem dataWindow_ys {s : State} (h : selBank s = 3) :
    dataWindow s = if selCh s < s.params.maxCh ∧ selIdx s < s.params.hcap
      then entry (historyOf s.ys (selCh s)) (selIdx s) else 0 := by
  simp [dataWindow, h]

/-- `DATA` reads 0 where the selected bank has no such word. -/
theorem dataWindow_bank_missing {s : State} (hbank : selBank s < 2) (hidx : s.params.maxCoef ≤ selIdx s) :
    dataWindow s = 0 := by
  obtain h | h : selBank s = 0 ∨ selBank s = 1 := by omega
  · rw [dataWindow_bankB h, if_neg (Nat.not_lt.2 hidx)]
  · rw [dataWindow_bankA h, if_neg (Nat.not_lt.2 hidx)]

/-- `DATA` reads 0 where the selected history has no such channel or word. -/
theorem dataWindow_history_missing {s : State} (hbank : 2 ≤ selBank s)
    (hmissing : s.params.maxCh ≤ selCh s ∨ s.params.maxCoef - 1 ≤ selIdx s) : dataWindow s = 0 := by
  have hlt := selBank_lt s
  have hno : ¬ (selCh s < s.params.maxCh ∧ selIdx s < s.params.hcap) := by
    unfold Params.hcap
    omega
  obtain h | h : selBank s = 2 ∨ selBank s = 3 := by omega
  · rw [dataWindow_xs h, if_neg hno]
  · rw [dataWindow_ys h, if_neg hno]

/-- Settles O40: one equation of the window for each bank, the fields of `SEL` as numbers. -/
theorem dataWindowShowsTheSelectedWord : Obligations.DataWindowShowsTheSelectedWord := by
  intro s
  simp only [← selBank_eq, ← selCh_eq, ← selIdx_eq]
  exact
    ⟨fun hbank hidx => (dataWindow_bankB hbank).trans (if_pos hidx),
     fun hbank hidx => (dataWindow_bankA hbank).trans (if_pos hidx),
     fun hbank hch hidx => (dataWindow_xs hbank).trans (if_pos ⟨hch, hidx⟩),
     fun hbank hch hidx => (dataWindow_ys hbank).trans (if_pos ⟨hch, hidx⟩),
     dataWindow_bank_missing, dataWindow_history_missing⟩

end Sys2Proof.Machine
end

section
/-! PROOFS. Sample memory: the addresses of the buffers as numbers, and the byte order of a sample word as the CORE and HOST
see it (spec/20_memory.md R71, R74 to R78). -/

namespace Sys2Proof.Machine

/-! ## Addresses (R76 to R78) -/

/-- Settles O25: each address is `wordAddr` of its base, at the index R76 or R77 gives. -/
theorem addressesAreBasePlusEightTimesIndex : Obligations.AddressesAreBasePlusEightTimesIndex :=
  fun _ _ _ _ => ⟨wordAddr_toNat _ _, wordAddr_toNat _ _, wordAddr_toNat _ _, wordAddr_toNat _ _, wordAddr_toNat _ _⟩

/-! ## Byte order (R71, R74, R75) -/

theorem inWord_eq_false_iff {w : Word} {a : Nat} : inWord w a = false ↔ ∀ i, i < 8 → a ≠ (w.toNat + i) % 2 ^ 64 := by
  simp only [← byteAddr_eq_mod, ← Bool.not_eq_true, inWord_iff, not_exists, not_and, ne_comm (a := a), ne_eq]

/-- HOST's read of a backed byte records the byte and nothing else (R70, R71). -/
theorem hostMemRead_backed {a : Word} {s : State} (h : backedAt s.params a = true) :
    hostMemRead a s = .next (s.answer (.hostMemData a (Memory.readByte s.mem a.toNat))) :=
  if_pos h

/-- HOST's write of a backed byte changes sample memory and nothing else (R70). -/
theorem hostMemWrite_backed {a : Word} {b : Byte} {s : State} (h : backedAt s.params a = true) :
    hostMemWrite a b s = .next { s with mem := Memory.writeByte s.mem a.toNat b } :=
  if_pos h

/-- Settles O55: byte `j` of a word, by division, is the byte at the address `j` further, for both word accesses; HOST's
accesses are one byte. -/
theorem sampleWordsAreLittleEndian : Obligations.SampleWordsAreLittleEndian := by
  refine ⟨fun s a v hwf hb => ⟨memWrite_backed hb, fun j hj => ?_, fun b hout => ?_⟩,
    fun s a hb => ⟨memRead_backed hb, fun j hj => ?_⟩, fun s a rest hin hb => ?_, fun s a b rest hin hwf hb => ?_⟩
  · rw [← byteAddr_eq_mod, readByte_writeWord_in hwf a v hj, byteOf_eq_ofNat]
  · exact readByte_writeWord_out hwf a v (inWord_eq_false_iff.2 hout)
  · rw [← byteAddr_eq_mod, ← byteOf_readWord s.mem a hj, byteOf_eq_ofNat]
  · rw [step_cons hin]
    exact hostMemRead_backed hb
  · rw [step_cons hin]
    exact ⟨_, hostMemWrite_backed hb, readByte_writeByte hwf⟩

end Sys2Proof.Machine
end

section
/-! PROOFS. Accesses to unbacked words: the words a command accesses, in order, and the fault in which the first unbacked one
ends it (spec/20_memory.md R79, R83). -/

namespace Sys2Proof.Machine

/-- The fault names one of these addresses, itself unbacked (R79; log 5). -/
def NamesUnbacked (p : Params) (as : List Word) (f : Fault) : Prop :=
  ∃ a ∈ as, backedAt p a = false ∧ f = .unbackedAccess a

theorem NamesUnbacked.mono {p : Params} {as bs : List Word} {f : Fault} (h : NamesUnbacked p as f) (hsub : as ⊆ bs) :
    NamesUnbacked p bs f := by
  obtain ⟨a, ha, hb, hf⟩ := h
  exact ⟨a, hsub ha, hb, hf⟩

/-- Reads that stop, stop at one of their addresses. -/
theorem readAll_error {as : List Word} {s : State} {f : Fault} (h : readAll as s = .error f) :
    NamesUnbacked s.params as f := by
  by_cases hb : AllBacked s.params as
  · rw [readAll_backed as s hb] at h
    cases h
  · obtain ⟨a, ha, hunbacked, he⟩ := readAll_unbacked as s hb
    rw [he] at h
    cases h
    exact ⟨a, ha, hunbacked, rfl⟩

/-- Writes that stop, stop at one of their addresses. -/
theorem writeAll_error {ws : List (Word × Word)} {s : State} {f : Fault} (h : writeAll ws s = .error f) :
    NamesUnbacked s.params (ws.map Prod.fst) f := by
  by_cases hb : AllBacked s.params (ws.map Prod.fst)
  · rw [writeAll_backed ws s hb] at h
    cases h
  · obtain ⟨w, hw, hunbacked, he⟩ := writeAll_unbacked ws s hb
    rw [he] at h
    cases h
    exact ⟨w.1, List.mem_map_of_mem hw, hunbacked, rfl⟩

theorem not_allBacked {p : Params} {as : List Word} {a : Word} (ha : a ∈ as) (hb : backedAt p a = false) :
    ¬ AllBacked p as :=
  fun h => Bool.false_ne_true (hb.symm.trans (h a ha))

theorem allBacked_append {p : Params} {as bs : List Word} :
    AllBacked p (as ++ bs) ↔ AllBacked p as ∧ AllBacked p bs := by
  simp only [AllBacked, List.mem_append, or_imp, forall_and]

/-! ## The addresses a command accesses -/

/-- The addresses `FILT` writes, ascending (R77). -/
def foutAddrs (s : State) (n : Nat) : List Word := (List.range n).map (foutAddr s)

/-- The destination addresses of a `PROC` that takes `n` frames, in order (R166). -/
def dstAddrs (s : State) (n : Nat) : List Word :=
  (frameOrder n s.numCh.toNat).map fun fc => dstAddr s (s.nextFrame.toNat + fc.1) fc.2

/-- The addresses of a transport block of `nReq` frames, in order (R167). -/
def outAddrs (s : State) (nReq : Nat) : List Word :=
  (frameOrder nReq s.numCh.toNat).map fun fc => outAddr s fc.1 fc.2

theorem filtWrites_addrs (s : State) (n : Nat) (y : List Word) :
    (filtWrites s n y).map Prod.fst = foutAddrs s n :=
  List.map_map

theorem dstWrites_addrs (s : State) (n : Nat) (ys : List (List Word)) :
    (dstWrites s n ys).map Prod.fst = dstAddrs s n :=
  List.map_map

theorem outWrites_addrs (s : State) (nReq n : Nat) (ys : List (List Word)) :
    (outWrites s nReq n ys).map Prod.fst = outAddrs s nReq :=
  List.map_map

/-- The addresses `FILT` accesses, in order (R141). -/
def filtAddrs (s : State) (n : Nat) : List Word := filtReads s n ++ foutAddrs s n

/-- The addresses a `PROC` in RUNNING accesses, in order (R164, R166, R167). -/
def procAddrs (s : State) (nReq : Nat) : List Word :=
  procReads s (effectiveLen s nReq) ++ (dstAddrs s (effectiveLen s nReq) ++ outAddrs s nReq)

theorem mem_filtAddrs {s : State} {n : Nat} {a : Word} :
    a ∈ filtAddrs s n ↔ ∃ i, i < n ∧ (a = finAddr s i ∨ a = foutAddr s i) := by
  simp only [filtAddrs, filtReads, foutAddrs, List.mem_append, List.mem_map, List.mem_range, eq_comm (a := a),
    and_or_left, exists_or]

theorem mem_frameOrder_map {n ch : Nat} {addr : Nat → Nat → Word} {a : Word} :
    a ∈ (frameOrder n ch).map (fun fc => addr fc.1 fc.2) ↔ ∃ f c, f < n ∧ c < ch ∧ a = addr f c := by
  simp only [List.mem_map, Prod.exists, mem_frameOrder, and_assoc, eq_comm (a := a)]

theorem mem_outAddrs {s : State} {nReq : Nat} {a : Word} :
    a ∈ outAddrs s nReq ↔ ∃ g c, g < nReq ∧ c < s.numCh.toNat ∧ a = outAddr s g c :=
  mem_frameOrder_map

theorem mem_procReads {s : State} {n : Nat} {a : Word} :
    a ∈ procReads s n ↔ ∃ f c, f < n ∧ c < s.numCh.toNat ∧ a = srcAddr s (s.nextFrame.toNat + f) c :=
  mem_frameOrder_map (addr := fun f c => srcAddr s (s.nextFrame.toNat + f) c)

theorem mem_dstAddrs {s : State} {n : Nat} {a : Word} :
    a ∈ dstAddrs s n ↔ ∃ f c, f < n ∧ c < s.numCh.toNat ∧ a = dstAddr s (s.nextFrame.toNat + f) c :=
  mem_frameOrder_map (addr := fun f c => dstAddr s (s.nextFrame.toNat + f) c)

theorem mem_procAddrs {s : State} {nReq : Nat} {a : Word} :
    a ∈ procAddrs s nReq ↔
      (∃ f c, f < effectiveLen s nReq ∧ c < s.numCh.toNat ∧
        (a = srcAddr s (s.nextFrame.toNat + f) c ∨ a = dstAddr s (s.nextFrame.toNat + f) c)) ∨
      (∃ g c, g < nReq ∧ c < s.numCh.toNat ∧ a = outAddr s g c) := by
  simp only [procAddrs, List.mem_append, mem_procReads, mem_dstAddrs, mem_outAddrs, and_or_left, exists_or, or_assoc]

/-! ## The commands -/

theorem execFilt_accepted {s : State} {c n : Nat} (hr : filtRejected s c = false) (hn : n ≤ s.params.blockLen) :
    execFilt c n s = filtBlock c n s := by
  simp [execFilt, hr, Nat.not_lt.2 hn]

theorem execProc_running {s : State} {nReq : Nat} (hphase : s.phase = .running) (hn : nReq ≤ s.params.blockLen) :
    execProc nReq s = procRunning nReq s := by
  simp [execProc, hphase, Nat.not_lt.2 hn]

theorem execProc_not_running {s : State} {nReq : Nat} (hphase : s.phase ≠ .running) (hn : nReq ≤ s.params.blockLen) :
    execProc nReq s = procSilence nReq s := by
  rw [execProc, if_neg (Nat.not_lt.2 hn)]
  cases hp : s.phase with
  | running => exact absurd hp hphase
  | idle => rfl
  | done => rfl

/-- A `FILT` block with an unbacked word in it stops at one. -/
theorem filtBlock_unbacked {s : State} {c n : Nat} (h : ¬ AllBacked s.params (filtAddrs s n)) :
    ∃ f, NamesUnbacked s.params (filtAddrs s n) f ∧ filtBlock c n s = .fault f := by
  unfold filtBlock
  split
  · rename_i hR
    exact ⟨_, (readAll_error hR).mono (List.subset_append_left _ _), rfl⟩
  · rename_i hR
    obtain ⟨hreads, -, rfl⟩ := readAll_ok hR
    dsimp only
    split
    · rename_i hW
      have hfault := writeAll_error hW
      rw [filtWrites_addrs] at hfault
      exact ⟨_, hfault.mono (List.subset_append_right _ _), rfl⟩
    · rename_i hW
      obtain ⟨hwrites, -⟩ := writeAll_ok hW
      rw [filtWrites_addrs] at hwrites
      exact absurd (allBacked_append.2 ⟨hreads, hwrites⟩) h

/-- A `PROC` in RUNNING with an unbacked word among its frames stops at one. -/
theorem procRunning_unbacked {s : State} {nReq : Nat} (h : ¬ AllBacked s.params (procAddrs s nReq)) :
    ∃ f, NamesUnbacked s.params (procAddrs s nReq) f ∧ procRunning nReq s = .fault f := by
  unfold procRunning
  dsimp only
  split
  · rename_i hR
    exact ⟨_, (readAll_error hR).mono (List.subset_append_left _ _), rfl⟩
  · rename_i hR
    obtain ⟨hreads, -, rfl⟩ := readAll_ok hR
    split
    · rename_i hW
      have hfault := writeAll_error hW
      rw [engineCalls_state, List.map_append, dstWrites_addrs, outWrites_addrs] at hfault
      exact ⟨_, hfault.mono (List.subset_append_right _ _), rfl⟩
    · rename_i hW
      obtain ⟨hwrites, -⟩ := writeAll_ok hW
      rw [engineCalls_state, List.map_append, dstWrites_addrs, outWrites_addrs] at hwrites
      exact absurd (allBacked_append.2 ⟨hreads, hwrites⟩) h

/-- A `PROC` outside a stream with an unbacked word in its transport block stops at one. -/
theorem procSilence_unbacked {s : State} {nReq : Nat} (h : ¬ AllBacked s.params (outAddrs s nReq)) :
    ∃ f, NamesUnbacked s.params (outAddrs s nReq) f ∧ procSilence nReq s = .fault f := by
  unfold procSilence
  split
  · rename_i hW
    have hfault := writeAll_error hW
    rw [outWrites_addrs] at hfault
    exact ⟨_, hfault, rfl⟩
  · rename_i hW
    obtain ⟨hwrites, -⟩ := writeAll_ok hW
    rw [outWrites_addrs] at hwrites
    exact absurd hwrites h

/-- Settles O32: each command runs its accesses in order, and the first unbacked one ends it. -/
theorem unbackedAccessStops : Obligations.UnbackedAccessStops := by
  refine ⟨fun s c n hphase hcfg hc hn ⟨a, ha, hb⟩ => ?_, fun s nReq hphase hn ⟨a, ha, hb⟩ => ?_,
    fun s nReq hphase hn ⟨a, ha, hb⟩ => ?_⟩
  · obtain ⟨_, ⟨a', ha', hb', rfl⟩, he⟩ := filtBlock_unbacked (c := c) (not_allBacked (mem_filtAddrs.2 ha) hb)
    rw [exec_filt, execFilt_accepted (filtRejected_eq_false_iff.2 ⟨hphase, hcfg, hc⟩) hn]
    exact ⟨a', mem_filtAddrs.1 ha', hb', he⟩
  · obtain ⟨_, ⟨a', ha', hb', rfl⟩, he⟩ := procRunning_unbacked (not_allBacked (mem_procAddrs.2 ha) hb)
    rw [exec_proc, execProc_running hphase hn]
    exact ⟨a', mem_procAddrs.1 ha', hb', he⟩
  · obtain ⟨_, ⟨a', ha', hb', rfl⟩, he⟩ := procSilence_unbacked (not_allBacked (mem_outAddrs.2 ha) hb)
    rw [exec_proc, execProc_not_running hphase hn]
    exact ⟨a', mem_outAddrs.1 ha', hb', he⟩

end Sys2Proof.Machine
end

section
/-! PROOFS. Sample memory is touched by `PROC`, `FILT` and HOST's own store only (spec/20_memory.md R70, spec/10_state.md
R47). -/

namespace Sys2Proof.Machine

/-- The two states agree in sample memory and in the events produced. -/
def SameMemoryAndTrace (s t : State) : Prop := t.mem = s.mem ∧ t.trace = s.trace

theorem writeFrozen_memory {write : State → State} {s : State} (h : SameMemoryAndTrace s (write s)) :
    SameMemoryAndTrace s (writeFrozen write s) := by
  obtain heq | ⟨_, heq⟩ := writeFrozen_cases write s
  · rw [heq]
    exact ⟨rfl, rfl⟩
  · rwa [heq]

theorem writeData_memory (v : Word) (s : State) : SameMemoryAndTrace s (writeData v s) := by
  unfold writeData
  split
  · exact ⟨rfl, rfl⟩
  · split <;> exact ⟨rfl, rfl⟩

/-- A write of a register other than `CMD` leaves sample memory and makes no event (R201). -/
theorem writeReg_memory {r : Reg} {v : Word} {s t : State} (hr : r ≠ .cmd) (h : writeReg r v s = .next t) :
    SameMemoryAndTrace s t := by
  cases r with
  | cmd => exact absurd rfl hr
  | numB | numA | numCh | totalFrame | srcBase | dstBase =>
    cases h
    exact writeFrozen_memory ⟨rfl, rfl⟩
  | data =>
    cases h
    exact writeData_memory v s
  | _ =>
    cases h
    exact ⟨rfl, rfl⟩

/-- HOST's own store apart, a transaction is a command or leaves sample memory and makes no event (R70). -/
theorem transact_memory {tr : Transaction} {s t : State} (h : transact tr s = .next t)
    (hstore : ∀ a b, tr ≠ .hostMemWrite a b) :
    (∃ i, isCommand tr i ∧ exec i s = .next t) ∨ SameMemoryAndTrace s t := by
  cases tr with
  | hostMemWrite a b => exact absurd rfl (hstore a b)
  | hostRead idx | supRead | reset =>
    cases h
    exact .inr ⟨rfl, rfl⟩
  | hostMemRead a =>
    change hostMemRead a s = .next t at h
    unfold hostMemRead at h
    split at h
    · cases h
      exact .inr ⟨rfl, rfl⟩
    · cases h
  | hostWrite idx v =>
    by_cases hcmd : Reg.ofIndex idx = .cmd
    · obtain rfl := ofIndex_eq_cmd hcmd
      cases hdec : decode v with
      | ok i =>
        rw [transact_command, writeCmd_ok hdec] at h
        exact .inl ⟨i, ⟨v, rfl, hdec⟩, h⟩
      | error e =>
        rw [transact_command, writeCmd_error hdec] at h
        cases h
        exact .inr ⟨rfl, rfl⟩
    · exact .inr (writeReg_memory hcmd h)

/-- `LOAD` and `START` leave sample memory; their only event is the end of an empty stream (R190 to R192). -/
theorem exec_memory {i : Instr} {s t : State} (h : exec i s = .next t) (hproc : ∀ n, i ≠ .proc n)
    (hfilt : ∀ c n, i ≠ .filt c n) : t.mem = s.mem ∧ (t.trace = s.trace ∨ t.trace = s.trace ++ [.evtDone]) := by
  cases i with
  | load => obtain rfl | ⟨_, rfl⟩ | ⟨_, _, _, rfl⟩ := execLoad_next h <;> exact ⟨rfl, .inl rfl⟩
  | start =>
    obtain rfl | ⟨_, _, rfl⟩ | ⟨_, _, rfl⟩ := execStart_next h
    · exact ⟨rfl, .inl rfl⟩
    · exact ⟨rfl, .inr rfl⟩
    · exact ⟨rfl, .inl rfl⟩
  | proc n => exact absurd rfl (hproc n)
  | filt c n => exact absurd rfl (hfilt c n)

/-- Settles O48: what is left beside `PROC`, `FILT` and HOST's store is `LOAD`, `START` and the other transactions. -/
theorem onlyProcAndFiltTouchMemory : Obligations.OnlyProcAndFiltTouchMemory := by
  intro s t tr rest hin h hproc hfilt hstore
  rw [step_cons hin] at h
  obtain ⟨i, hi, hexec⟩ | ⟨hmem, htrace⟩ := transact_memory h hstore
  · exact (exec_memory hexec (fun n heq => hproc n (heq ▸ hi)) (fun c n heq => hfilt c n (heq ▸ hi)) :)
  · exact ⟨hmem, .inl htrace⟩

end Sys2Proof.Machine
end

section
/-! PROOFS. The command encoding: decoder and encoder are inverse, the decoder is the opcode map, and illegal words
(spec/30_encoding.md R100 to R110). -/

namespace Sys2Proof

/-! ## Packed words and the decoder, by fields -/

theorem chField_lt (w : Word) : chField w < 2 ^ 8 := (w.extractLsb' 48 8).isLt

theorem rsvField_lt (w : Word) : rsvField w < 2 ^ 16 := (w.extractLsb' 32 16).isLt

theorem cntField_lt (w : Word) : cntField w < 2 ^ 32 := (w.extractLsb' 0 32).isLt

/-- A packed word is the one word with these fields and `RSV` 0 (R101). -/
theorem packFields_eq_iff {w : Word} {opc ch cnt : Nat} (ho : opc < 2 ^ 8) (hc : ch < 2 ^ 8) (hn : cnt < 2 ^ 32) :
    packFields opc ch cnt = w ↔ (rsvField w = 0 ∧ opcField w = opc) ∧ chField w = ch ∧ cntField w = cnt := by
  constructor
  · rintro rfl
    exact ⟨⟨rsvField_packFields ho hc hn, opcField_packFields ho hc hn⟩, chField_packFields ho hc hn,
      cntField_packFields ho hc hn⟩
  · rintro ⟨⟨hrsv, rfl⟩, rfl, rfl⟩
    apply BitVec.eq_of_toNat_eq
    rw [packFields_toNat ho hc hn, word_of_fields w, hrsv, Nat.zero_mul, Nat.add_zero]

/-- The decoder said by fields, in both directions (R102, R105). -/
theorem decode_eq_ok_iff {w : Word} {i : Instr} :
    decode w = .ok i ↔ rsvField w = 0 ∧
      ((opcField w = 1 ∧ chField w = 0 ∧ cntField w = 0 ∧ i = .load) ∨
       (opcField w = 2 ∧ chField w = 0 ∧ cntField w = 0 ∧ i = .start) ∨
       (opcField w = 3 ∧ chField w = 0 ∧ i = .proc (cntField w)) ∨
       (opcField w = 4 ∧ i = .filt (chField w) (cntField w))) := by
  refine ⟨decode_ok_fields, ?_⟩
  rintro ⟨hrsv, ⟨hopc, hch, hcnt, rfl⟩ | ⟨hopc, hch, hcnt, rfl⟩ | ⟨hopc, hch, rfl⟩ | ⟨hopc, rfl⟩⟩
  · simp [decode, decodeZ, hrsv, hopc, hch, hcnt]
  · simp [decode, decodeZ, hrsv, hopc, hch, hcnt]
  · simp [decode, decodeN, hrsv, hopc, hch]
  · simp [decode, hrsv, hopc]

theorem decode_eq_load_iff {w : Word} :
    decode w = .ok .load ↔ (rsvField w = 0 ∧ opcField w = 1) ∧ chField w = 0 ∧ cntField w = 0 := by
  simp [decode_eq_ok_iff, and_assoc]

theorem decode_eq_start_iff {w : Word} :
    decode w = .ok .start ↔ (rsvField w = 0 ∧ opcField w = 2) ∧ chField w = 0 ∧ cntField w = 0 := by
  simp [decode_eq_ok_iff, and_assoc]

theorem decode_eq_proc_iff {w : Word} {n : Nat} :
    decode w = .ok (.proc n) ↔ (rsvField w = 0 ∧ opcField w = 3) ∧ chField w = 0 ∧ n = cntField w := by
  simp [decode_eq_ok_iff, and_assoc]

theorem decode_eq_filt_iff {w : Word} {c n : Nat} :
    decode w = .ok (.filt c n) ↔ (rsvField w = 0 ∧ opcField w = 4) ∧ c = chField w ∧ n = cntField w := by
  simp [decode_eq_ok_iff, and_assoc]

/-! ## Decoder and encoder -/

theorem wellFormed_proc_iff {n : Nat} : (Instr.proc n).wellFormed = true ↔ n < 2 ^ 32 := decide_eq_true_iff

theorem wellFormed_filt_iff {c n : Nat} : (Instr.filt c n).wellFormed = true ↔ c < 2 ^ 8 ∧ n < 2 ^ 32 := by
  rw [Instr.wellFormed, Bool.and_eq_true, decide_eq_true_iff, decide_eq_true_iff]

/-- A word decodes to a command exactly when the command is well formed and this is its word (R102, R105). -/
theorem decode_eq_ok_iff_encode {w : Word} {i : Instr} :
    decode w = .ok i ↔ i.wellFormed = true ∧ encode i = w := by
  cases i with
  | load =>
    rw [decode_eq_load_iff, Instr.wellFormed, and_iff_right rfl]
    exact (packFields_eq_iff (by decide) (by decide) (by decide)).symm
  | start =>
    rw [decode_eq_start_iff, Instr.wellFormed, and_iff_right rfl]
    exact (packFields_eq_iff (by decide) (by decide) (by decide)).symm
  | proc n =>
    rw [decode_eq_proc_iff, wellFormed_proc_iff]
    constructor
    · rintro ⟨hopc, hch, rfl⟩
      exact ⟨cntField_lt w, (packFields_eq_iff (by decide) (by decide) (cntField_lt w)).2 ⟨hopc, hch, rfl⟩⟩
    · rintro ⟨hn, henc⟩
      obtain ⟨hopc, hch, hcnt⟩ := (packFields_eq_iff (by decide) (by decide) hn).1 henc
      exact ⟨hopc, hch, hcnt.symm⟩
  | filt c n =>
    rw [decode_eq_filt_iff, wellFormed_filt_iff]
    constructor
    · rintro ⟨hopc, rfl, rfl⟩
      exact ⟨⟨chField_lt w, cntField_lt w⟩,
        (packFields_eq_iff (by decide) (chField_lt w) (cntField_lt w)).2 ⟨hopc, rfl, rfl⟩⟩
    · rintro ⟨⟨hc, hn⟩, henc⟩
      obtain ⟨hopc, hch, hcnt⟩ := (packFields_eq_iff (by decide) hc hn).1 henc
      exact ⟨hopc, hch.symm, hcnt.symm⟩

/-- Settles O1: the word of a well-formed command decodes to it, `decode_eq_ok_iff_encode` from right to left. -/
theorem decodeOfEncodeIsTheCommand : Obligations.DecodeOfEncodeIsTheCommand :=
  fun _ hwf => decode_eq_ok_iff_encode.2 ⟨hwf, rfl⟩

/-- Settles O2: `decode_eq_ok_iff_encode` from left to right. -/
theorem encodeOfDecodeIsTheWord : Obligations.EncodeOfDecodeIsTheWord :=
  fun _ _ hdec => decode_eq_ok_iff_encode.1 hdec

/-! ## The opcode map (R104) -/

/-- The mask of format Z is the whole word. -/
theorem and_maskZ_eq_iff {w : Word} {opc : Nat} (ho : opc < 2 ^ 8) :
    w &&& 0xFFFFFFFFFFFFFFFF = packFields opc 0 0 ↔
      (rsvField w = 0 ∧ opcField w = opc) ∧ chField w = 0 ∧ cntField w = 0 := by
  rw [show w &&& 0xFFFFFFFFFFFFFFFF = w from BitVec.and_allOnes, eq_comm]
  exact packFields_eq_iff ho (by decide) (by decide)

/-- The mask of format N leaves `CNT` out. -/
theorem and_maskN_eq_iff {w : Word} :
    w &&& 0xFFFFFFFF00000000 = 0x0300000000000000 ↔ (rsvField w = 0 ∧ opcField w = 3) ∧ chField w = 0 := by
  have := w.isLt
  rw [← BitVec.toNat_inj, and_maskN_toNat, rsvField_eq, opcField_eq, chField_eq,
    show (0x0300000000000000 : Word).toNat = 3 * 2 ^ 56 from rfl]
  omega

/-- The mask of format CN leaves `CH` and `CNT` out. -/
theorem and_maskCN_eq_iff {w : Word} :
    w &&& 0xFF00FFFF00000000 = 0x0400000000000000 ↔ rsvField w = 0 ∧ opcField w = 4 := by
  have := rsvField_lt w
  rw [← BitVec.toNat_inj, and_maskCN_toNat, show (0x0400000000000000 : Word).toNat = 4 * 2 ^ 56 from rfl]
  omega

/-- Every mask of the map keeps `OPC`. -/
theorem opcField_of_covers {r : OpcodeRow} (hr : r ∈ opcodeMap) {w : Word} (h : r.covers w = true) :
    opcField r.pattern = opcField w := by
  have hmask : ∀ r ∈ opcodeMap, r.mask.extractLsb' 56 8 = BitVec.allOnes 8 := by decide
  rw [← of_decide_eq_true h, opcField, BitVec.extractLsb'_and, hmask r hr, BitVec.and_allOnes, opcField]

/-- No two rows of the map have the same `OPC`. -/
theorem row_eq_of_opcField_eq :
    ∀ r ∈ opcodeMap, ∀ r' ∈ opcodeMap, opcField r.pattern = opcField r'.pattern → r = r' := by decide

/-- Settles O3: decoder and masks speak of the same fields, and the rows differ in `OPC`. -/
theorem decoderFollowsTheOpcodeMap : Obligations.DecoderFollowsTheOpcodeMap := by
  intro w
  refine ⟨?_, ?_, ?_, ?_, fun r hr r' hr' h h' => ?_⟩
  · exact decode_eq_load_iff.trans (and_maskZ_eq_iff (opc := 1) (by decide)).symm
  · exact decode_eq_start_iff.trans (and_maskZ_eq_iff (opc := 2) (by decide)).symm
  · simp only [and_maskN_eq_iff, decode_eq_proc_iff, exists_and_left, exists_eq, and_true]
  · simp only [and_maskCN_eq_iff, decode_eq_filt_iff, exists_and_left, exists_eq, and_true]
  · exact row_eq_of_opcField_eq r hr r' hr' ((opcField_of_covers hr h).trans (opcField_of_covers hr' h').symm)

/-- Settles O4: the fields are remainders of quotients of the word as a number. -/
theorem operandsAreUnsignedFields : Obligations.OperandsAreUnsignedFields := by
  intro w
  rw [← chField_eq, ← cntField_eq]
  exact ⟨fun n h => (decode_eq_proc_iff.1 h).2.2, fun c n h => (decode_eq_filt_iff.1 h).2⟩

/-! ## Illegal words (R110) -/

/-- The four groups of words R110 lists as illegal. -/
abbrev IllegalWord (w : Word) : Prop :=
  (w.toNat / 2 ^ 56 = 0 ∨ 5 ≤ w.toNat / 2 ^ 56) ∨
  w.toNat / 2 ^ 32 % 2 ^ 16 ≠ 0 ∨
  ((w.toNat / 2 ^ 56 = 1 ∨ w.toNat / 2 ^ 56 = 2) ∧ (w.toNat / 2 ^ 48 % 2 ^ 8 ≠ 0 ∨ w.toNat % 2 ^ 32 ≠ 0)) ∨
  (w.toNat / 2 ^ 56 = 3 ∧ w.toNat / 2 ^ 48 % 2 ^ 8 ≠ 0)

theorem opcField_eq_div (w : Word) : opcField w = w.toNat / 2 ^ 56 := by
  have := w.isLt
  rw [opcField_eq]
  omega

theorem illegalWord_decode {w : Word} (hill : IllegalWord w) (i : Instr) : decode w ≠ .ok i := by
  intro hdec
  unfold IllegalWord at hill
  rw [← opcField_eq_div, ← chField_eq, ← rsvField_eq, ← cntField_eq] at hill
  obtain ⟨hrsv, hcases⟩ := decode_ok_fields hdec
  omega

/-- Settles O5: the legal words by evaluation, the illegal ones by the groups of R110. -/
theorem listedWordsDecodeAsListed : Obligations.ListedWordsDecodeAsListed := by
  refine ⟨by decide, by decide, by decide, by decide, by decide, by decide, fun w hw => illegalWord_decode ?_⟩
  simp only [List.mem_cons, List.not_mem_nil, or_false] at hw
  obtain rfl | rfl | rfl | rfl | rfl | rfl | rfl | rfl | rfl := hw <;> decide

end Sys2Proof

namespace Sys2Proof.Machine

/-- Settles O6: such a word decodes to an error, and a write of `CMD` then raises IllCmd. -/
theorem illegalWordOnlyRaisesIllCmd : Obligations.IllegalWordOnlyRaisesIllCmd := by
  intro s w rest hin hill
  cases hdec : decode w with
  | ok i => exact absurd hdec (illegalWord_decode hill i)
  | error e =>
    rw [step_cons hin, transact_command, writeCmd_error hdec]
    rfl

end Sys2Proof.Machine
end

section
/-! PROOFS. The script lines that set and get a bank word: one rule for each line (spec/30_encoding.md R113, R114,
spec/42_config_control.md R206, spec/10_state.md R44, R45). -/

namespace Sys2Proof.Machine

/-! ## Runs -/

theorem run_succ {M : Host.Core} {k : Nat} {s t : M.State} (h : M.step s = .next t) : M.run (k + 1) s = M.run k t := by
  rw [Host.Core.run, h]

/-- A run is its first part and then the rest. -/
theorem run_add {M : Host.Core} {j k : Nat} {s t : M.State} (h : M.run j s = .next t) : M.run (j + k) s = M.run k t := by
  induction j generalizing s with
  | zero =>
    cases h
    rw [Nat.zero_add]
  | succ j ih =>
    rw [Nat.add_right_comm]
    cases hstep : M.step s with
    | next u =>
      rw [run_succ hstep] at h ⊢
      exact ih h
    | fault r | refused r => simp [Host.Core.run, hstep] at h

/-- `n` steps of the machine lead from `s` to `t`. -/
def RunsTo (n : Nat) (s t : State) : Prop := Host.Core.run core n s = .next t

theorem RunsTo.trans {j k : Nat} {s t u : State} (hst : RunsTo j s t) (htu : RunsTo k t u) : RunsTo (j + k) s u :=
  (run_add hst).trans htu

theorem RunsTo.one {s t : State} (h : step s = .next t) : RunsTo 1 s t :=
  run_succ (M := core) (k := 0) h

/-! ## The fields of a `SEL` value as stored (R44) -/

theorem selValue_toNat {bank ch idx : Nat} (hb : bank < 4) (hc : ch < 2 ^ 8) (hi : idx < 2 ^ 16) :
    (selValue bank ch idx).toNat = idx * 2 ^ 16 + ch * 2 ^ 8 + bank := by
  rw [selValue, BitVec.toNat_ofNat]
  omega

/-- The hardwired bits of `SEL` are none of `BANK`. -/
theorem selBank_stored {s : State} {v : Word} (h : s.sel = selStored v) : selBank s = v.toNat % 4 := by
  have hmask : (0x00000000FFFFFF03 : Word).extractLsb' 0 2 = BitVec.allOnes 2 := by decide
  rw [selBank, h, selStored, BitVec.extractLsb'_and, hmask, BitVec.and_allOnes]
  simp [BitVec.extractLsb'_toNat]

/-- The hardwired bits of `SEL` are none of `IDX`. -/
theorem selIdx_stored {s : State} {v : Word} (h : s.sel = selStored v) : selIdx s = v.toNat / 2 ^ 16 % 2 ^ 16 := by
  have hmask : (0x00000000FFFFFF03 : Word).extractLsb' 16 16 = BitVec.allOnes 16 := by decide
  rw [selIdx, h, selStored, BitVec.extractLsb'_and, hmask, BitVec.and_allOnes]
  simp [BitVec.extractLsb'_toNat, Nat.shiftRight_eq_div_pow]

theorem sel_of_selValue {s : State} {bank idx : Nat} (h : s.sel = selStored (selValue bank 0 idx)) (hb : bank < 4)
    (hi : idx < 2 ^ 16) : selBank s = bank ∧ selIdx s = idx := by
  rw [selBank_stored h, selIdx_stored h, selValue_toNat hb (by decide) hi]
  omega

/-! ## The window's rules (R206) -/

theorem writeData_bankB {s : State} (v : Word) (hbank : selBank s = 0) (hphase : s.phase ≠ .running)
    (hidx : selIdx s < s.params.maxCoef) :
    writeData v s = { s with bankB := setEntry s.bankB (selIdx s) v, cfg := .unloaded } := by
  simp [writeData, hbank, hphase, hidx]

theorem writeData_bankA {s : State} (v : Word) (hbank : selBank s = 1) (hphase : s.phase ≠ .running)
    (hidx : selIdx s < s.params.maxCoef) :
    writeData v s = { s with bankA := setEntry s.bankA (selIdx s) v, cfg := .unloaded } := by
  simp [writeData, hbank, hphase, hidx]

theorem entry_setEntry_same {ws : List Word} {i : Nat} (v : Word) (h : i < ws.length) : entry (setEntry ws i v) i = v := by
  simp [entry, setEntry, h]

/-! ## The script lines (R114) -/

/-- The state in which `SEL` was written with `v` and the requests `rest` are still to come. -/
def selected (s : State) (v : Word) (rest : List Transaction) : State := { s with sel := selStored v, inbox := rest }

/-! Its fields, by rewriting and not by `rfl`: after `rfl` the kernel compares `selected s v rest` with `s` and then unfolds
the arithmetic of the `SEL` value. -/

@[simp] theorem selected_params (s : State) (v : Word) (rest : List Transaction) :
    (selected s v rest).params = s.params := by rw [selected]

@[simp] theorem selected_phase (s : State) (v : Word) (rest : List Transaction) :
    (selected s v rest).phase = s.phase := by rw [selected]

@[simp] theorem selected_bankB (s : State) (v : Word) (rest : List Transaction) :
    (selected s v rest).bankB = s.bankB := by rw [selected]

@[simp] theorem selected_bankA (s : State) (v : Word) (rest : List Transaction) :
    (selected s v rest).bankA = s.bankA := by rw [selected]

@[simp] theorem selected_replies (s : State) (v : Word) (rest : List Transaction) :
    (selected s v rest).replies = s.replies := by rw [selected]

theorem step_writeSel {s : State} {v : Word} {rest : List Transaction} (h : s.inbox = writeRequest .sel v :: rest) :
    step s = .next (selected s v rest) := by
  rw [step_cons h]
  rfl

theorem step_writeData {s : State} {x : Word} {rest : List Transaction} (h : s.inbox = writeRequest .data x :: rest) :
    step s = .next (writeData x { s with inbox := rest }) := by
  rw [step_cons h]
  rfl

theorem step_readData {s : State} {rest : List Transaction} (h : s.inbox = readRequest .data :: rest) :
    step s = .next (State.answer { s with inbox := rest } (.hostData 15 (dataWindow s))) := by
  rw [step_cons h]
  rfl

/-- A write of `SEL`, then one of `DATA`: a write through the window at the selection. -/
theorem runsTo_select_write {s : State} {v x : Word} {rest : List Transaction}
    (h : s.inbox = writeRequest .sel v :: writeRequest .data x :: rest) :
    RunsTo 2 s (writeData x (selected s v rest)) :=
  (RunsTo.one (step_writeSel h)).trans (.one (step_writeData rfl))

/-- A write of `SEL`, then a read of `DATA`: the selected word is returned. -/
theorem runsTo_select_read {s : State} {v : Word} {rest : List Transaction}
    (h : s.inbox = writeRequest .sel v :: readRequest .data :: rest) :
    RunsTo 2 s ((selected s v rest).answer (.hostData 15 (dataWindow (selected s v rest)))) :=
  (RunsTo.one (step_writeSel h)).trans (.one (step_readData rfl))

section
variable {s : State} {k : Nat} {x : Word} {rest : List Transaction}

/-- `SETB k, x` stores `x` in word `k` of bank `B` and voids the configuration (R206). -/
theorem runsTo_setB (h : s.inbox = lineTransactions (.setB k x) ++ rest) (hphase : s.phase ≠ .running)
    (hk : k < s.params.maxCoef) (hk16 : k < 2 ^ 16) :
    RunsTo 2 s { selected s (selValue 0 0 k) rest with bankB := setEntry s.bankB k x, cfg := .unloaded } := by
  obtain ⟨hbank, hidx⟩ := sel_of_selValue (s := selected s (selValue 0 0 k) rest) rfl (by decide) hk16
  have hrun := runsTo_select_write (rest := rest) h
  rwa [writeData_bankB x hbank (by rwa [selected_phase]) (by rwa [hidx, selected_params]), hidx, selected_bankB] at hrun

/-- `SETA k, x` stores `x` in word `k` of bank `A` and voids the configuration (R206). -/
theorem runsTo_setA (h : s.inbox = lineTransactions (.setA k x) ++ rest) (hphase : s.phase ≠ .running)
    (hk : k < s.params.maxCoef) (hk16 : k < 2 ^ 16) :
    RunsTo 2 s { selected s (selValue 1 0 k) rest with bankA := setEntry s.bankA k x, cfg := .unloaded } := by
  obtain ⟨hbank, hidx⟩ := sel_of_selValue (s := selected s (selValue 1 0 k) rest) rfl (by decide) hk16
  have hrun := runsTo_select_write (rest := rest) h
  rwa [writeData_bankA x hbank (by rwa [selected_phase]) (by rwa [hidx, selected_params]), hidx, selected_bankA] at hrun

/-- `GETB k` returns word `k` of bank `B` (R45). -/
theorem runsTo_getB (h : s.inbox = lineTransactions (.getB k) ++ rest) (hk : k < s.params.maxCoef) (hk16 : k < 2 ^ 16) :
    RunsTo 2 s ((selected s (selValue 0 0 k) rest).answer (.hostData 15 (entry s.bankB k))) := by
  obtain ⟨hbank, hidx⟩ := sel_of_selValue (s := selected s (selValue 0 0 k) rest) rfl (by decide) hk16
  have hrun := runsTo_select_read (rest := rest) h
  rwa [dataWindow_bankB hbank, hidx, selected_params, if_pos hk, selected_bankB] at hrun

/-- `GETA k` returns word `k` of bank `A` (R45). -/
theorem runsTo_getA (h : s.inbox = lineTransactions (.getA k) ++ rest) (hk : k < s.params.maxCoef) (hk16 : k < 2 ^ 16) :
    RunsTo 2 s ((selected s (selValue 1 0 k) rest).answer (.hostData 15 (entry s.bankA k))) := by
  obtain ⟨hbank, hidx⟩ := sel_of_selValue (s := selected s (selValue 1 0 k) rest) rfl (by decide) hk16
  have hrun := runsTo_select_read (rest := rest) h
  rwa [dataWindow_bankA hbank, hidx, selected_params, if_pos hk, selected_bankA] at hrun

end

/-- Settles O43: the rule of the `SET` line, then the rule of the `GET` line. -/
theorem scriptSetThenGetReturnsTheWord : Obligations.ScriptSetThenGetReturnsTheWord := by
  intro s k x rest hs hphase hk
  obtain ⟨⟨-, hmax⟩, -⟩ := hs.params_legal
  have hk16 : k < 2 ^ 16 := by omega
  refine ⟨fun hin => ?_, fun hin => ?_⟩
  · have hentry : entry (setEntry s.bankB k x) k = x := entry_setEntry_same x (hs.bankB_length ▸ hk)
    have hset := runsTo_setB (rest := lineTransactions (.getB k) ++ rest) hin hphase hk hk16
    have hget := hset.trans (runsTo_getB rfl (by rwa [selected_params]) hk16)
    exact ⟨_, hget, by simp [hentry], rfl, rfl, by simp [hentry]⟩
  · have hentry : entry (setEntry s.bankA k x) k = x := entry_setEntry_same x (hs.bankA_length ▸ hk)
    have hset := runsTo_setA (rest := lineTransactions (.getA k) ++ rest) hin hphase hk hk16
    have hget := hset.trans (runsTo_getA rfl (by rwa [selected_params]) hk16)
    exact ⟨_, hget, by simp [hentry], rfl, rfl, by simp [hentry]⟩

end Sys2Proof.Machine
end

section
/-! PROOFS. `FILT`: the rejected one, and one block filtered with its frame (spec/40_filter_engine.md R140, R141, R223). -/

namespace Sys2Proof.Machine

/-! ## Rejection (R140, R223, R225) -/

theorem filtRejected_eq_true_iff {s : State} {c : Nat} :
    filtRejected s c = true ↔ s.phase = .running ∨ s.cfg ≠ .ok ∨ s.params.maxCh ≤ c := by
  simp [filtRejected, or_assoc]

theorem execFilt_rejected {s : State} {c n : Nat} (h : filtRejected s c = true) :
    execFilt c n s = .next (s.raise .reject) :=
  if_pos h

/-- Settles O16: the Reject tests of `FILT` come before its count is looked at. -/
theorem filtNotPermittedIsRejected : Obligations.FiltNotPermittedIsRejected := by
  intro s c n h
  rw [exec_filt, execFilt_rejected (filtRejected_eq_true_iff.2 h)]
  rfl

/-! ## One block (R140, R141) -/

/-- The words of an output block are pairwise apart when the block does not wrap onto itself (R78). -/
theorem filtWrites_apart (s : State) {n : Nat} (y : List Word) (hn : n ≤ 2 ^ 61) :
    (filtWrites s n y).Pairwise fun w w' => WordsApart w'.1 w.1 := by
  rw [filtWrites, List.pairwise_map]
  refine List.Pairwise.imp_of_mem (fun {i j} hi hj hne => ?_) (List.nodup_range (n := n))
  exact wordAddr_apart s.foutBase ((List.mem_range.1 hj).trans_le hn) ((List.mem_range.1 hi).trans_le hn) hne.symm

/-- After the writes of a block each output word is in memory. -/
theorem readWord_filtWrites {s : State} (hs : s.Inv) {n i : Nat} (y : List Word) (hn : n ≤ 2 ^ 61) (hi : i < n) :
    Memory.readWord (Memory.writeWords s.mem (filtWrites s n y)) (foutAddr s i) = entry y i :=
  readWord_writeWords_mem hs.mem_wf _ (filtWrites_apart s y hn)
    (w := (foutAddr s i, entry y i)) (List.mem_map_of_mem (List.mem_range.2 hi))

/-- A byte outside the output words is as before. -/
theorem readByte_filtWrites_out {s : State} (hs : s.Inv) {n a : Nat} (y : List Word)
    (h : ∀ i, i < n → inWord (foutAddr s i) a = false) :
    Memory.readByte (Memory.writeWords s.mem (filtWrites s n y)) a = Memory.readByte s.mem a := by
  refine readByte_writeWords_out hs.mem_wf _ fun w hw => ?_
  obtain ⟨i, hi, rfl⟩ := List.mem_map.1 hw
  exact h i (List.mem_range.1 hi)

theorem entry_filtInput {s : State} {n i : Nat} (hi : i < n) :
    entry (filtInput s n) i = Memory.readWord s.mem (finAddr s i) :=
  entry_map_range _ hi

/-- The bytes of a word in memory, by division (R71). -/
theorem readByte_of_readWord {m : Memory} {a v : Word} (h : Memory.readWord m a = v) {j : Nat} (hj : j < 8) :
    Memory.readByte m ((a.toNat + j) % 2 ^ 64) = BitVec.ofNat 8 (v.toNat / 2 ^ (8 * j)) := by
  rw [← byteAddr_eq_mod, ← byteOf_readWord m a hj, h, byteOf_eq_ofNat]

/-- Settles O18: the next state is that of `filtBlock_backed`, and its memory is the old one with the output words written. -/
theorem filtFiltersOneBlock : Obligations.FiltFiltersOneBlock := by
  intro s c n hs hready x y
  obtain ⟨-, -, -, hlen⟩ := hs.params_legal
  have hn : n ≤ 2 ^ 61 := by
    have := hready.count
    omega
  have hread : ∀ i, i < n → Memory.readWord (Memory.writeWords s.mem (filtWrites s n y)) (foutAddr s i) = entry y i :=
    fun i hi => readWord_filtWrites hs y hn hi
  refine ⟨Memory.writeWords s.mem (filtWrites s n y), ?_, hread, fun i j hi hj => ⟨?_, ?_⟩,
    fun a => readByte_filtWrites_out hs y⟩
  · rw [exec_filt_ready hready, filtBlock_backed hready.inputs hready.outputs]
    simp only [readEvents, filtReads, writeEvents, filtWrites, List.map_map]
    rfl
  · exact readByte_of_readWord (entry_filtInput hi).symm hj
  · exact readByte_of_readWord (hread i hi) hj

end Sys2Proof.Machine
end

section
/-! PROOFS. The engine: history and block as one signal, the output sample, the next history, and continuity over any
partition into blocks (spec/40_filter_engine.md R134, R135, R137, R142). -/

namespace Sys2Proof.Machine

/-! ## One output sample (R135) -/

/-- The accumulator after `m` terms of output sample `n` (R135). -/
def accumulate (b : List Word) (sample : Nat → Word) (m : Nat) : Word :=
  (List.range m).foldl (fun acc k => fadd64 acc (fmul64 (entry b k) (sample k))) 0

@[simp] theorem accumulate_zero (b : List Word) (sample : Nat → Word) : accumulate b sample 0 = 0 := rfl

@[simp] theorem accumulate_succ (b : List Word) (sample : Nat → Word) (m : Nat) :
    accumulate b sample (m + 1) = fadd64 (accumulate b sample m) (fmul64 (entry b m) (sample m)) := by
  simp [accumulate, List.range_succ]

theorem convolveAt_eq_accumulate (b : List Word) (mb : Nat) (hist x : List Word) (n : Nat) :
    convolveAt b mb hist x n = accumulate b (fun k => tap (historyLen mb) hist x ((n : Int) - (k : Int))) mb := rfl

/-- Any sequence that starts at `+0.0` and adds the products in order is the accumulator's. -/
theorem eq_accumulate {b : List Word} {sample acc : Nat → Word} {m : Nat} (h0 : acc 0 = 0)
    (hstep : ∀ k, k < m → acc (k + 1) = fadd64 (acc k) (fmul64 (entry b k) (sample k))) :
    acc m = accumulate b sample m := by
  induction m with
  | zero => exact h0
  | succ m ih => rw [hstep m (Nat.lt_succ_self m), ih fun k hk => hstep k (Nat.lt_succ_of_lt hk), accumulate_succ]

/-- The accumulator depends on the samples of its own terms only. -/
theorem accumulate_congr {b : List Word} {sample sample' : Nat → Word} {m : Nat}
    (h : ∀ k, k < m → sample k = sample' k) : accumulate b sample m = accumulate b sample' m :=
  eq_accumulate (acc := accumulate b sample) rfl fun k hk => by rw [accumulate_succ, h k hk]

/-- Where the sample of term `k` is taken from: the block, or the history in use (R134). -/
theorem tap_sub {mb k : Nat} (hist x : List Word) (n : Nat) (hk : k < mb) :
    tap (historyLen mb) hist x ((n : Int) - (k : Int)) =
      if k ≤ n then entry x (n - k) else entry hist (mb - 1 + n - k) := by
  unfold tap historyLen
  by_cases h : k ≤ n
  · rw [if_pos (by omega), if_pos h]
    congr 1
    omega
  · rw [if_neg (by omega), if_neg h]
    congr 1
    omega

/-- Settles O19: such a sequence is the accumulator's, and its samples are the taps. -/
theorem outputSampleIsTheSumOfProducts : Obligations.OutputSampleIsTheSumOfProducts := by
  intro b mb hist x n acc hn h0 hstep
  rw [entry_convolve b mb hist x hn, convolveAt_eq_accumulate]
  refine (eq_accumulate h0 fun k hk => ?_).symm
  rw [hstep k hk, tap_sub hist x n hk]

/-! ## History and block as one signal (R134) -/

/-- The history in use, followed by the block: what the tap function reads (R134). -/
def signal (mb : Nat) (hist x : List Word) : List Word := hist.take (historyLen mb) ++ x

section
variable {mb : Nat} {hist : List Word} (hlen : historyLen mb ≤ hist.length)
include hlen

theorem signal_length (x : List Word) : (signal mb hist x).length = historyLen mb + x.length := by
  simp [signal, hlen]

/-- Entry `i` of the signal is the tap at position `i - H` (R134). -/
theorem tap_eq_signal (x : List Word) {j : Int} (hj : 0 ≤ historyLen mb + j) :
    tap (historyLen mb) hist x j = entry (signal mb hist x) (historyLen mb + j).toNat := by
  have htake : (hist.take (historyLen mb)).length = historyLen mb := List.length_take_of_le hlen
  unfold tap signal
  by_cases h : 0 ≤ j
  · rw [if_pos h, entry_append_right (by omega), htake]
    congr 1
    omega
  · rw [if_neg h, entry_append_left (by omega)]
    simp only [entry, List.getD_eq_getElem?_getD]
    rw [List.getElem?_take_of_lt (by omega)]

/-- The history in use after a call is the signal without its first N samples (R137). -/
theorem take_nextHistory (x : List Word) :
    (nextHistory mb hist x).take (historyLen mb) = (signal mb hist x).drop x.length := by
  have hnext := nextHistory_length (x := x) hlen
  have hsignal := signal_length hlen x
  refine list_eq_of_entries (by simp [hnext, hsignal, hlen]) fun i hi => ?_
  have hi : i < historyLen mb := (List.length_take ▸ hi).trans_le (Nat.min_le_left _ _)
  calc entry ((nextHistory mb hist x).take (historyLen mb)) i
      = entry (nextHistory mb hist x) i := by
        simp only [entry, List.getD_eq_getElem?_getD]
        rw [List.getElem?_take_of_lt hi]
    _ = entry (signal mb hist x) (x.length + i) := by
        rw [entry_nextHistory mb hist x hi, tap_eq_signal hlen x (by omega)]
        congr 1
        omega
    _ = entry ((signal mb hist x).drop x.length) i := by
        simp only [entry, List.getD_eq_getElem?_getD, List.getElem?_drop]

end

/-- "Entries `H` to `HCAP - 1` are not written" (R137). -/
theorem drop_nextHistory (mb : Nat) (hist x : List Word) :
    (nextHistory mb hist x).drop (historyLen mb) = hist.drop (historyLen mb) := by
  unfold nextHistory
  rw [List.drop_left' (by simp)]

/-- Settles O20: the history in use is the end of the signal, the rest is not written. -/
theorem historyHoldsTheLastInputs : Obligations.HistoryHoldsTheLastInputs :=
  fun mb hist x hlen => ⟨take_nextHistory hlen x, drop_nextHistory mb hist x⟩

/-! ## Continuity (R142) -/

section
variable {mb : Nat} {hist : List Word} (hlen : historyLen mb ≤ hist.length)
include hlen

/-- The next history is known by its entries in use, the end of the signal, and by those not in use, which stay (R137). -/
theorem nextHistory_eq_iff {x h' : List Word} :
    nextHistory mb hist x = h' ↔
      h'.take (historyLen mb) = (signal mb hist x).drop x.length ∧
        h'.drop (historyLen mb) = hist.drop (historyLen mb) := by
  rw [← take_nextHistory hlen, ← drop_nextHistory mb hist x]
  constructor
  · rintro rfl
    exact ⟨rfl, rfl⟩
  · rintro ⟨htake, hdrop⟩
    rw [← List.take_append_drop (historyLen mb) (nextHistory mb hist x), ← htake, ← hdrop, List.take_append_drop]

/-- The second block continues the signal where the first one ended. -/
theorem signal_nextHistory (x y : List Word) :
    signal mb (nextHistory mb hist x) y = (signal mb hist (x ++ y)).drop x.length := by
  have hx : x.length ≤ (signal mb hist x).length := by
    rw [signal_length hlen]
    exact Nat.le_add_left _ _
  rw [signal, take_nextHistory hlen, ← List.drop_append_of_le_length hx, signal, signal, List.append_assoc]

/-- A call on an empty block changes no history. -/
theorem nextHistory_nil : nextHistory mb hist [] = hist :=
  (nextHistory_eq_iff hlen).2 ⟨by simp [signal], rfl⟩

/-- Two calls leave the history of one call on both blocks. -/
theorem nextHistory_append (x y : List Word) :
    nextHistory mb hist (x ++ y) = nextHistory mb (nextHistory mb hist x) y := by
  have hnext : historyLen mb ≤ (nextHistory mb hist x).length := hlen.trans_eq (nextHistory_length hlen).symm
  refine (nextHistory_eq_iff hlen).2 ⟨?_, ?_⟩
  · rw [take_nextHistory hnext, signal_nextHistory hlen, List.drop_drop, List.length_append]
  · rw [drop_nextHistory, drop_nextHistory]

/-- An output sample in terms of the signal (R135). -/
theorem convolveAt_eq_signal (b x : List Word) (n : Nat) :
    convolveAt b mb hist x n = accumulate b (fun k => entry (signal mb hist x) (historyLen mb + n - k)) mb := by
  rw [convolveAt_eq_accumulate]
  refine accumulate_congr fun k hk => ?_
  have hk : k ≤ historyLen mb := Nat.le_sub_one_of_lt hk
  rw [tap_eq_signal hlen x (by omega)]
  congr 1
  omega

/-- An output sample does not depend on the samples after it. -/
theorem convolveAt_append_left (b x y : List Word) {n : Nat} (hn : n < x.length) :
    convolveAt b mb hist (x ++ y) n = convolveAt b mb hist x n := by
  rw [convolveAt_eq_signal hlen, convolveAt_eq_signal hlen]
  refine accumulate_congr fun k _ => ?_
  have hk : historyLen mb + n - k < (signal mb hist x).length := by
    rw [signal_length hlen]
    omega
  rw [← entry_append_left (ys := y) hk, signal, signal, List.append_assoc]

/-- An output sample of the second block, from the history of the first, is that of both blocks in one. -/
theorem convolveAt_append_right (b x y : List Word) (n : Nat) :
    convolveAt b mb hist (x ++ y) (x.length + n) = convolveAt b mb (nextHistory mb hist x) y n := by
  have hnext : historyLen mb ≤ (nextHistory mb hist x).length := hlen.trans_eq (nextHistory_length hlen).symm
  rw [convolveAt_eq_signal hlen, convolveAt_eq_signal hnext, signal_nextHistory hlen]
  refine accumulate_congr fun k hk => ?_
  have hk : k ≤ historyLen mb := Nat.le_sub_one_of_lt hk
  simp only [entry, List.getD_eq_getElem?_getD, List.getElem?_drop]
  congr 2
  omega

/-- The outputs of two calls are those of one call on both blocks. -/
theorem convolve_append (b x y : List Word) :
    convolve b mb hist (x ++ y) = convolve b mb hist x ++ convolve b mb (nextHistory mb hist x) y := by
  unfold convolve
  rw [List.length_append, List.range_add, List.map_append, List.map_map]
  congr 1
  · exact List.map_congr_left fun n hn => convolveAt_append_left hlen b x y (List.mem_range.1 hn)
  · exact List.map_congr_left fun n _ => convolveAt_append_right hlen b x y n

end

/-- Settles O21: by induction on the blocks, each call continuing the one before. -/
theorem continuityOverAnyPartition : Obligations.ContinuityOverAnyPartition := by
  intro b mb hist blocks hlen
  induction blocks generalizing hist with
  | nil => rw [filterBlocks, List.flatten_nil, nextHistory_nil hlen]; rfl
  | cons x blocks ih =>
    have hnext : historyLen mb ≤ (nextHistory mb hist x).length := hlen.trans_eq (nextHistory_length hlen).symm
    rw [filterBlocks, ih _ hnext, List.flatten_cons, convolve_append hlen, nextHistory_append hlen]

end Sys2Proof.Machine
end

section
/-! PROOFS. What the engine commands do not touch or read: the other channels' histories, and the feedback fields
(spec/40_filter_engine.md R139, R144, spec/41_block_scheduler.md R165). -/

namespace Sys2Proof.Machine

/-! ## The histories of the other channels (R144, R165) -/

theorem historyOf_engineCall_same {c : Nat} {s : State} (x : List Word) (hc : c < s.xs.length) :
    historyOf (engineCall c x s).2.xs c = nextHistory (tapCount s) (historyOf s.xs c) x := by
  rw [engineCall_xs, historyOf_set_same hc]

theorem execFilt_other_history {s t : State} {c c' n : Nat} (h : execFilt c n s = .next t) (hne : c' ≠ c) :
    historyOf t.xs c' = historyOf s.xs c' := by
  obtain rfl | ⟨_, rfl⟩ := execFilt_next h
  · rw [raise_xs]
  · exact historyOf_set_other _ hne.symm

/-- The channels from `NUM_CH` on have no call in a `PROC` (R165). -/
theorem execProc_other_history {s t : State} {c n : Nat} (h : execProc n s = .next t) (hc : s.numCh.toNat ≤ c) :
    historyOf t.xs c = historyOf s.xs c := by
  obtain ⟨_, rfl⟩ | ⟨_, ws, rfl⟩ := execProc_next h
  · rw [advance_xs]
    refine historiesAfter_other _ _ _ fun call hcall => ?_
    have hmem : call.1 ∈ List.range s.numCh.toNat := procCalls_channels s _ ▸ List.mem_map_of_mem hcall
    exact Nat.ne_of_lt ((List.mem_range.1 hmem).trans_le hc)
  · rfl

/-- Settles O22: an engine call is a function of the coefficients, its channel's history and the block. -/
theorem channelsAreIsolated : Obligations.ChannelsAreIsolated := by
  refine ⟨fun s s' c c' x hB hnumB hhist hc hc' => ?_, fun s t c c' n h hne => ?_, fun s t c n h hc => ?_⟩
  · have htaps : tapCount s = tapCount s' := congrArg BitVec.toNat hnumB
    constructor
    · rw [engineCall_output, engineCall_output, hB, htaps, hhist]
    · rw [historyOf_engineCall_same x hc, historyOf_engineCall_same x hc', htaps, hhist]
  · exact execFilt_other_history (exec_filt c n s ▸ h) hne
  · exact execProc_other_history (exec_proc n s ▸ h) hc

/-! ## The fault a command ends in: its first unbacked word (R79, R83) -/

/-- The first unbacked address of a list. -/
def firstUnbacked (p : Params) (as : List Word) : Option Word := as.find? fun a => !backedAt p a

theorem firstUnbacked_eq_none_iff {p : Params} {as : List Word} : firstUnbacked p as = none ↔ AllBacked p as := by
  simp [firstUnbacked, AllBacked]

theorem firstUnbacked_append {p : Params} {as bs : List Word} :
    firstUnbacked p (as ++ bs) = (firstUnbacked p as).or (firstUnbacked p bs) :=
  List.find?_append

/-- Reads stop at the first unbacked address. -/
theorem readAll_firstUnbacked {as : List Word} {s : State} {a : Word} (h : firstUnbacked s.params as = some a) :
    readAll as s = .error (.unbackedAccess a) := by
  induction as generalizing s with
  | nil => cases h
  | cons a' as ih =>
    rw [readAll]
    cases hb : backedAt s.params a' with
    | false =>
      obtain rfl : a' = a := by simpa [firstUnbacked, hb] using h
      rw [memRead_unbacked hb]
    | true =>
      have hrest : firstUnbacked s.params as = some a := by simpa [firstUnbacked, hb] using h
      rw [memRead_backed hb]
      dsimp only
      rw [ih (by simpa using hrest)]

/-- Writes stop at the first unbacked address. -/
theorem writeAll_firstUnbacked {ws : List (Word × Word)} {s : State} {a : Word}
    (h : firstUnbacked s.params (ws.map Prod.fst) = some a) : writeAll ws s = .error (.unbackedAccess a) := by
  induction ws generalizing s with
  | nil => cases h
  | cons w ws ih =>
    rw [writeAll]
    cases hb : backedAt s.params w.1 with
    | false =>
      obtain rfl : w.1 = a := by simpa [firstUnbacked, hb] using h
      rw [memWrite_unbacked hb]
    | true =>
      have hrest : firstUnbacked s.params (ws.map Prod.fst) = some a := by simpa [firstUnbacked, hb] using h
      rw [memWrite_backed hb]
      exact ih hrest

/-- The first unbacked word of two lists is in the first, or the first is backed and it is in the second. -/
theorem firstUnbacked_append_eq_some {p : Params} {as bs : List Word} {a : Word}
    (h : firstUnbacked p (as ++ bs) = some a) :
    firstUnbacked p as = some a ∨ (AllBacked p as ∧ firstUnbacked p bs = some a) := by
  rwa [firstUnbacked_append, Option.or_eq_some_iff, firstUnbacked_eq_none_iff] at h

theorem filtBlock_firstUnbacked {s : State} {n : Nat} {a : Word} (c : Nat)
    (h : firstUnbacked s.params (filtAddrs s n) = some a) : filtBlock c n s = .fault (.unbackedAccess a) := by
  unfold filtBlock
  obtain h | ⟨hreads, h⟩ := firstUnbacked_append_eq_some h
  · rw [readAll_firstUnbacked h]
  · rw [readAll_backed _ _ hreads]
    dsimp only
    rw [writeAll_firstUnbacked (a := a) (by rw [filtWrites_addrs]; exact h)]

theorem procRunning_firstUnbacked {s : State} {nReq : Nat} {a : Word}
    (h : firstUnbacked s.params (procAddrs s nReq) = some a) : procRunning nReq s = .fault (.unbackedAccess a) := by
  unfold procRunning
  dsimp only
  obtain h | ⟨hreads, h⟩ := firstUnbacked_append_eq_some h
  · rw [readAll_firstUnbacked h]
  · rw [readAll_backed _ _ hreads]
    dsimp only
    rw [writeAll_firstUnbacked (a := a)
      (by rw [engineCalls_state, List.map_append, dstWrites_addrs, outWrites_addrs]; exact h)]

theorem procSilence_firstUnbacked {s : State} {nReq : Nat} {a : Word}
    (h : firstUnbacked s.params (outAddrs s nReq) = some a) : procSilence nReq s = .fault (.unbackedAccess a) := by
  rw [procSilence, writeAll_firstUnbacked (a := a) (by rw [outWrites_addrs]; exact h)]

/-! ## The feedback fields (R139) -/

/-- The state with other feedback fields: bank `A`, `NUM_A` and the `YS` files (R22, R28). -/
def State.withFeedback (a : List Word) (na : Word) (y : List (List Word)) (s : State) : State :=
  { s with bankA := a, numA := na, ys := y }

/-- A `PROC` whose accesses are all backed is one that is ready. -/
theorem procReady_of_allBacked {s : State} {nReq : Nat} (hphase : s.phase = .running) (hn : nReq ≤ s.params.blockLen)
    (h : AllBacked s.params (procAddrs s nReq)) : ProcReady s nReq where
  running := hphase
  count := hn
  source := fun f c hf hc => h _ (mem_procAddrs.2 (.inl ⟨f, c, hf, hc, .inl rfl⟩))
  dest := fun f c hf hc => h _ (mem_procAddrs.2 (.inl ⟨f, c, hf, hc, .inr rfl⟩))
  out := fun g c hg hc => h _ (mem_procAddrs.2 (.inr ⟨g, c, hg, hc, rfl⟩))

section Feedback

variable (a : List Word) (na : Word) (y : List (List Word))

theorem filtBlock_withFeedback (c n : Nat) (s : State) :
    filtBlock c n (s.withFeedback a na y) = mapNext (State.withFeedback a na y) (filtBlock c n s) := by
  cases h : firstUnbacked s.params (filtAddrs s n) with
  | some w => rw [filtBlock_firstUnbacked c h, filtBlock_firstUnbacked (s := s.withFeedback a na y) c h]; rfl
  | none =>
    have hb := firstUnbacked_eq_none_iff.1 h
    have hin : ∀ i, i < n → backedAt s.params (finAddr s i) = true :=
      fun i hi => hb _ (mem_filtAddrs.2 ⟨i, hi, .inl rfl⟩)
    have hout : ∀ i, i < n → backedAt s.params (foutAddr s i) = true :=
      fun i hi => hb _ (mem_filtAddrs.2 ⟨i, hi, .inr rfl⟩)
    rw [filtBlock_backed hin hout, filtBlock_backed (s := s.withFeedback a na y) hin hout]
    rfl

theorem execFilt_withFeedback (c n : Nat) (s : State) :
    execFilt c n (s.withFeedback a na y) = mapNext (State.withFeedback a na y) (execFilt c n s) := by
  cases hr : filtRejected s c with
  | true => rw [execFilt_rejected hr, execFilt_rejected (s := s.withFeedback a na y) hr]; rfl
  | false =>
    by_cases hn : n ≤ s.params.blockLen
    · rw [execFilt_accepted hr hn, execFilt_accepted (s := s.withFeedback a na y) hr hn, filtBlock_withFeedback]
    · have hn := Nat.not_le.1 hn
      rw [execFilt_oversize hr hn, execFilt_oversize (s := s.withFeedback a na y) hr hn]
      rfl

theorem advance_withFeedback (n : Nat) (s : State) :
    advance n (s.withFeedback a na y) = (advance n s).withFeedback a na y := by
  unfold advance
  change (if s.totalFrame ≤ s.nextFrame + BitVec.ofNat 64 n then _ else _) = _
  dsimp only
  split <;> rfl

theorem procRunning_withFeedback {nReq : Nat} {s : State} (hphase : s.phase = .running)
    (hn : nReq ≤ s.params.blockLen) :
    procRunning nReq (s.withFeedback a na y) = mapNext (State.withFeedback a na y) (procRunning nReq s) := by
  cases h : firstUnbacked s.params (procAddrs s nReq) with
  | some w => rw [procRunning_firstUnbacked h, procRunning_firstUnbacked (s := s.withFeedback a na y) h]; rfl
  | none =>
    have hb := firstUnbacked_eq_none_iff.1 h
    rw [procRunning_backed (procReady_of_allBacked hphase hn hb),
      procRunning_backed (s := s.withFeedback a na y) (procReady_of_allBacked hphase hn hb),
      mapNext, ← advance_withFeedback]
    rfl

theorem procSilence_withFeedback (nReq : Nat) (s : State) :
    procSilence nReq (s.withFeedback a na y) = mapNext (State.withFeedback a na y) (procSilence nReq s) := by
  cases h : firstUnbacked s.params (outAddrs s nReq) with
  | some w => rw [procSilence_firstUnbacked h, procSilence_firstUnbacked (s := s.withFeedback a na y) h]; rfl
  | none =>
    have hb : ∀ g c, g < nReq → c < s.numCh.toNat → backedAt s.params (outAddr s g c) = true :=
      fun g c hg hc => firstUnbacked_eq_none_iff.1 h _ (mem_outAddrs.2 ⟨g, c, hg, hc, rfl⟩)
    rw [procSilence_backed hb, procSilence_backed (s := s.withFeedback a na y) hb]
    rfl

theorem execProc_withFeedback (nReq : Nat) (s : State) :
    execProc nReq (s.withFeedback a na y) = mapNext (State.withFeedback a na y) (execProc nReq s) := by
  by_cases hn : nReq ≤ s.params.blockLen
  · by_cases hphase : s.phase = .running
    · rw [execProc_running hphase hn, execProc_running (s := s.withFeedback a na y) hphase hn,
        procRunning_withFeedback a na y hphase hn]
    · rw [execProc_not_running hphase hn, execProc_not_running (s := s.withFeedback a na y) hphase hn,
        procSilence_withFeedback]
  · have hn := Nat.not_le.1 hn
    rw [execProc_oversize hn, execProc_oversize (s := s.withFeedback a na y) hn]
    rfl

end Feedback

/-- Settles O23: other feedback fields lead to the same outcome, and stay. -/
theorem feedbackFieldsAreNeverRead : Obligations.FeedbackFieldsAreNeverRead := by
  rintro i s a na y (⟨n, rfl⟩ | ⟨c, n, rfl⟩)
  · exact execProc_withFeedback a na y n s
  · exact execFilt_withFeedback a na y c n s

end Sys2Proof.Machine
end

section
/-! PROOFS. The rounding: `roundBits` gives the nearest number, ties to the even one, and from half a unit beyond the largest
finite number on the bits of an infinity; so sums and products of finite numbers are rounded to nearest
(spec/40_filter_engine.md R133). -/

namespace Sys2Proof.Machine

/-! ## Magnitudes of bits 62:0 -/

/-- The magnitude that bits 62:0 stand for, in units of 2^-1074, the exponent range unbounded above. -/
def bitsMag (b : Nat) : Nat :=
  if b / 2 ^ 52 = 0 then b % 2 ^ 52 else (2 ^ 52 + b % 2 ^ 52) * 2 ^ (b / 2 ^ 52 - 1)

theorem f64Mag_eq_bitsMag (w : Word) : f64Mag w = bitsMag (f64Bits w) := rfl

@[simp] theorem bitsMag_zero : bitsMag 0 = 0 := rfl

/-- The number with last place `2^k` and significand `q`: subnormal only for `k = 0`, and `q = 2^53` is the first number of
the next binade. -/
theorem bitsMag_binade {k q : Nat} (hq : q ≤ 2 ^ 53) (hk : k ≠ 0 → 2 ^ 52 ≤ q) : bitsMag (k * 2 ^ 52 + q) = q * 2 ^ k := by
  unfold bitsMag
  by_cases hsub : q < 2 ^ 52
  · obtain rfl : k = 0 := by by_contra h; exact absurd (hk h) (Nat.not_le.2 hsub)
    rw [if_pos (by omega)]
    omega
  · by_cases hcarry : q = 2 ^ 53
    · subst hcarry
      have hdiv : (k * 2 ^ 52 + 2 ^ 53) / 2 ^ 52 = k + 2 := by omega
      have hmod : (k * 2 ^ 52 + 2 ^ 53) % 2 ^ 52 = 0 := by omega
      rw [if_neg (by omega), hdiv, hmod, show k + 2 - 1 = k + 1 from rfl, pow_succ]
      ring
    · have hdiv : (k * 2 ^ 52 + q) / 2 ^ 52 = k + 1 := by omega
      have hmod : 2 ^ 52 + (k * 2 ^ 52 + q) % 2 ^ 52 = q := by omega
      rw [if_neg (by omega), hdiv, hmod, Nat.add_sub_cancel]

/-- Every number is one of a binade. -/
theorem exists_binade (b : Nat) : ∃ k q, b = k * 2 ^ 52 + q ∧ q < 2 ^ 53 ∧ (k ≠ 0 → 2 ^ 52 ≤ q) := by
  by_cases h : b < 2 ^ 52
  · exact ⟨0, b, by omega, by omega, fun h => absurd rfl h⟩
  · exact ⟨b / 2 ^ 52 - 1, b % 2 ^ 52 + 2 ^ 52, by omega, by omega, fun _ => by omega⟩

theorem bitsMag_strictMono : StrictMono bitsMag := by
  refine strictMono_nat_of_lt_succ fun b => ?_
  obtain ⟨k, q, rfl, hq, hk⟩ := exists_binade b
  rw [bitsMag_binade hq.le hk, Nat.add_assoc, bitsMag_binade hq fun h => (hk h).trans (Nat.le_succ q)]
  exact Nat.mul_lt_mul_of_pos_right (Nat.lt_succ_self q) (by positivity)

/-! ## Rounding to nearest, ties to even -/

/-- The bits `r` are those of the number nearest to `v` units of 2^-(1074+u), of two such numbers the one with even bits. -/
def IsNearest (u v r : Nat) : Prop :=
  ∀ b, ((bitsMag r * 2 ^ u : Nat) - v : Int).natAbs ≤ ((bitsMag b * 2 ^ u : Nat) - v : Int).natAbs ∧
    (((bitsMag b * 2 ^ u : Nat) - v : Int).natAbs = ((bitsMag r * 2 ^ u : Nat) - v : Int).natAbs → b ≠ r → r % 2 = 0)

/-- A number between two neighbours is rounded to the lower one when that is at most as far, and even at a tie. -/
theorem isNearest_lower {u v lo : Nat} (h1 : bitsMag lo * 2 ^ u ≤ v)
    (h2 : 2 * v ≤ bitsMag lo * 2 ^ u + bitsMag (lo + 1) * 2 ^ u)
    (heven : 2 * v = bitsMag lo * 2 ^ u + bitsMag (lo + 1) * 2 ^ u → lo % 2 = 0) : IsNearest u v lo := by
  intro b
  have hu : 0 < 2 ^ u := by positivity
  obtain h | rfl | h := lt_trichotomy b lo
  · have := Nat.mul_lt_mul_of_pos_right (bitsMag_strictMono h) hu
    omega
  · exact ⟨le_rfl, fun _ h => absurd rfl h⟩
  · have := Nat.mul_le_mul_right (2 ^ u) (bitsMag_strictMono.monotone (show lo + 1 ≤ b from h))
    omega

/-- A number between two neighbours is rounded to the upper one when that is at most as far, and even at a tie. -/
theorem isNearest_upper {u v lo : Nat} (h1 : v ≤ bitsMag (lo + 1) * 2 ^ u)
    (h2 : bitsMag lo * 2 ^ u + bitsMag (lo + 1) * 2 ^ u ≤ 2 * v)
    (heven : 2 * v = bitsMag lo * 2 ^ u + bitsMag (lo + 1) * 2 ^ u → (lo + 1) % 2 = 0) : IsNearest u v (lo + 1) := by
  intro b
  have hu : 0 < 2 ^ u := by positivity
  obtain h | rfl | h := lt_trichotomy b (lo + 1)
  · have := Nat.mul_le_mul_right (2 ^ u) (bitsMag_strictMono.monotone (show b ≤ lo from Nat.le_of_lt_succ h))
    omega
  · exact ⟨le_rfl, fun _ h => absurd rfl h⟩
  · have := Nat.mul_lt_mul_of_pos_right (bitsMag_strictMono h) hu
    omega

/-- `roundBits` rounds to nearest, ties to even. -/
theorem roundBits_isNearest (u v : Nat) : IsNearest u v (roundBits u v) := by
  obtain ⟨hlt, hge⟩ := roundBits_binade u v
  unfold roundBits
  generalize Nat.log2 v - 52 - u = k at hlt hge ⊢
  dsimp only
  have hd : 0 < 2 ^ (k + u) := by positivity
  have hq : v / 2 ^ (k + u) < 2 ^ 53 := (Nat.div_lt_iff_lt_mul hd).2 hlt
  have hk : k ≠ 0 → 2 ^ 52 ≤ v / 2 ^ (k + u) := fun h => (Nat.le_div_iff_mul_le hd).2 (hge h)
  have hv := Nat.div_add_mod v (2 ^ (k + u))
  have hr := Nat.mod_lt v hd
  have hcases := roundHalfEven_cases v (2 ^ (k + u))
  generalize v / 2 ^ (k + u) = q at hq hk hv hcases
  generalize v % 2 ^ (k + u) = r at hv hr hcases
  have hlo : bitsMag (k * 2 ^ 52 + q) * 2 ^ u = 2 ^ (k + u) * q := by
    rw [bitsMag_binade hq.le hk, pow_add]
    ring
  have hhi : bitsMag (k * 2 ^ 52 + q + 1) * 2 ^ u = 2 ^ (k + u) * q + 2 ^ (k + u) := by
    rw [Nat.add_assoc, bitsMag_binade hq fun h => (hk h).trans (Nat.le_succ q), Nat.succ_eq_add_one, pow_add]
    ring
  generalize 2 ^ (k + u) * q = m at hv hlo hhi
  obtain ⟨heq, hhalf, htie⟩ | ⟨heq, hhalf, htie⟩ := hcases
  · rw [heq]
    refine isNearest_lower ?_ ?_ fun h => ?_
    · omega
    · omega
    · have := htie (by omega)
      omega
  · rw [heq, ← Nat.add_assoc]
    refine isNearest_upper ?_ ?_ fun h => ?_
    · omega
    · omega
    · have := htie (by omega)
      omega

/-! ## Overflow -/

/-- The largest finite number, and the first number beyond it with the exponent range unbounded, in units of `2^2044`. -/
theorem bitsMag_infBits : bitsMag (f64InfBits - 1) = (2 ^ 54 - 2) * 2 ^ 2044 ∧ bitsMag f64InfBits = 2 ^ 54 * 2 ^ 2044 := by
  have hmax : f64InfBits - 1 = (2044 + 1) * 2 ^ 52 + (2 ^ 53 - 1) := rfl
  have hinf : f64InfBits = (2044 + 1) * 2 ^ 52 + 2 ^ 53 := rfl
  constructor
  · rw [hmax, bitsMag_binade (by norm_num) fun _ => by norm_num, pow_succ' 2 2044, ← Nat.mul_assoc,
      show (2 ^ 53 - 1) * 2 = 2 ^ 54 - 2 from rfl]
  · rw [hinf, bitsMag_binade (by norm_num) fun _ => by norm_num, pow_succ' 2 2044, ← Nat.mul_assoc,
      show 2 ^ 53 * 2 = 2 ^ 54 from rfl]

/-- The nearest number is finite exactly below half a unit beyond the largest finite number. -/
theorem IsNearest.lt_infBits_iff {u v r : Nat} (h : IsNearest u v r) :
    r < f64InfBits ↔ v < (2 ^ 54 - 1) * 2 ^ 2044 * 2 ^ u := by
  obtain ⟨hmax, hinf⟩ := bitsMag_infBits
  obtain ⟨hdmax, -⟩ := h (f64InfBits - 1)
  obtain ⟨hdinf, htie⟩ := h f64InfBits
  rw [hmax, Nat.mul_assoc] at hdmax
  rw [hinf, Nat.mul_assoc] at hdinf htie
  have hunit : 0 < 2 ^ 2044 * 2 ^ u := by positivity
  rw [Nat.mul_assoc]
  constructor
  · intro hr
    have hmag := Nat.mul_le_mul_right (2 ^ u) (bitsMag_strictMono.monotone (Nat.le_sub_one_of_lt hr))
    have hodd : bitsMag r * 2 ^ u = (2 ^ 54 - 2) * (2 ^ 2044 * 2 ^ u) → r % 2 = 1 := by
      intro heq
      rw [← Nat.mul_assoc, ← hmax, Nat.mul_left_inj (by positivity)] at heq
      rw [bitsMag_strictMono.injective heq]
      decide
    rw [hmax, Nat.mul_assoc] at hmag
    generalize 2 ^ 2044 * 2 ^ u = unit at *
    omega
  · intro hv
    by_contra hr
    have hmag := Nat.mul_le_mul_right (2 ^ u) (bitsMag_strictMono.monotone (Nat.not_lt.1 hr))
    rw [hinf, Nat.mul_assoc] at hmag
    generalize 2 ^ 2044 * 2 ^ u = unit at *
    omega

/-! ## Signed values -/

/-- A magnitude with a sign. -/
def signed (neg : Bool) (m : Nat) : Int := if neg then -(m : Int) else m

theorem f64Value_eq_signed (w : Word) : f64Value w = signed (f64Neg w) (bitsMag (f64Bits w)) := rfl

theorem signed_zero (neg : Bool) : signed neg 0 = 0 := by cases neg <;> rfl

theorem signed_natAbs (neg : Bool) (m : Nat) : (signed neg m).natAbs = m := by cases neg <;> simp [signed]

theorem signed_mul (neg neg' : Bool) (m m' : Nat) : signed neg m * signed neg' m' = signed (neg ^^ neg') (m * m') := by
  cases neg <;> cases neg' <;> simp [signed]

theorem signed_mul_two_pow (neg : Bool) (m u : Nat) : signed neg m * 2 ^ u = signed neg (m * 2 ^ u) := by
  cases neg <;> simp [signed]

/-- An integer is its magnitude with its sign. -/
theorem signed_decide_natAbs (e : Int) : signed (decide (e < 0)) e.natAbs = e := by
  by_cases h : e < 0
  · rw [decide_eq_true h, signed, if_pos rfl]
    omega
  · rw [decide_eq_false h, signed, if_neg Bool.false_ne_true]
    omega

/-- With equal signs the distance is that of the magnitudes. -/
theorem dist_signed_same (neg : Bool) (m v : Nat) : (signed neg m - signed neg v).natAbs = ((m : Int) - v).natAbs := by
  cases neg
  · rfl
  · change (-(m : Int) - -(v : Int)).natAbs = _
    omega

/-- With opposite signs the distance is the sum of the magnitudes. -/
theorem dist_signed_opposite (neg : Bool) (m v : Nat) : (signed (!neg) m - signed neg v).natAbs = m + v := by
  cases neg
  · change (-(m : Int) - (v : Int)).natAbs = _
    omega
  · change ((m : Int) - -(v : Int)).natAbs = _
    omega

theorem toNat_mod_two (w : Word) : w.toNat % 2 = f64Bits w % 2 := by
  unfold f64Bits
  omega

/-- Of all words `r` has the value nearest to `e` units of 2^-(1074+u), and of two such words it is the one whose last bit
is even. -/
def IsNearestWord (u : Nat) (e : Int) (r : Word) : Prop :=
  ∀ z : Word, (f64Value r * 2 ^ u - e).natAbs ≤ (f64Value z * 2 ^ u - e).natAbs ∧
    ((f64Value z * 2 ^ u - e).natAbs = (f64Value r * 2 ^ u - e).natAbs → f64Value z ≠ f64Value r → r.toNat % 2 = 0)

/-- A word with the sign of the exact value and the bits nearest to its magnitude is nearest to it. -/
theorem IsNearest.word {u v : Nat} {r : Word} (h : IsNearest u v (f64Bits r)) :
    IsNearestWord u (signed (f64Neg r) v) r := by
  intro z
  rw [toNat_mod_two, f64Value_eq_signed r, signed_mul_two_pow, dist_signed_same, f64Value_eq_signed z, signed_mul_two_pow]
  by_cases hsign : f64Neg z = f64Neg r
  · rw [hsign, dist_signed_same]
    obtain ⟨hle, htie⟩ := h (f64Bits z)
    exact ⟨hle, fun heq hne => htie heq fun hbits => hne (by rw [hbits])⟩
  · obtain ⟨hle, htie⟩ := h 0
    rw [Bool.eq_not.2 hsign, dist_signed_opposite]
    rw [bitsMag_zero, Nat.zero_mul] at hle htie
    refine ⟨by omega, fun heq _ => ?_⟩
    by_cases hzero : f64Bits r = 0
    · rw [hzero]
    · exact htie (by omega) (Ne.symm hzero)

/-! ## A rounded result, packed -/

theorem f64Pack_of_infBits_le {neg : Bool} {b : Nat} (h : f64InfBits ≤ b) : f64Pack neg b = f64Pack neg f64InfBits := by
  simp [f64Pack, h]

theorem f64IsFinite_f64Pack {neg : Bool} {b : Nat} : f64IsFinite (f64Pack neg b) = true ↔ b < f64InfBits := by
  simp [f64IsFinite]

theorem f64Bits_f64Pack_of_lt {neg : Bool} {b : Nat} (h : b < f64InfBits) : f64Bits (f64Pack neg b) = b := by
  rw [f64Bits_f64Pack, Nat.min_eq_left h.le]

theorem f64Pack_infBits (neg : Bool) :
    f64Pack neg f64InfBits = if neg then 0xFFF0000000000000 else 0x7FF0000000000000 := by
  cases neg <;> decide

/-- The exact result `v`, in units of 2^-(1074+u), rounded and packed with its sign: a nearest finite word below the
overflow threshold, the infinity of that sign from it on (R133). -/
theorem f64Pack_roundBits (neg : Bool) (u v : Nat) :
    (v < (2 ^ 54 - 1) * 2 ^ 2044 * 2 ^ u →
      f64IsFinite (f64Pack neg (roundBits u v)) = true ∧ IsNearestWord u (signed neg v) (f64Pack neg (roundBits u v))) ∧
    ((2 ^ 54 - 1) * 2 ^ 2044 * 2 ^ u ≤ v → f64Pack neg (roundBits u v) = f64Pack neg f64InfBits) := by
  have h := roundBits_isNearest u v
  refine ⟨fun hv => ?_, fun hv => ?_⟩
  · have hfin := h.lt_infBits_iff.2 hv
    rw [← f64Bits_f64Pack_of_lt (neg := neg) hfin] at h
    have hword := h.word
    rw [f64Neg_f64Pack] at hword
    exact ⟨f64IsFinite_f64Pack.2 hfin, hword⟩
  · exact f64Pack_of_infBits_le (Nat.not_lt.1 fun hlt => absurd (h.lt_infBits_iff.1 hlt) (Nat.not_lt.2 hv))

/-! ## Sums and products of finite numbers (R133) -/

theorem fadd64_finite {a b : Word} (ha : f64IsFinite a = true) (hb : f64IsFinite b = true) :
    fadd64 a b = if f64Value a + f64Value b = 0 then f64Pack (f64Neg a && f64Neg b) 0
      else f64Pack (decide (f64Value a + f64Value b < 0)) (roundBits 0 (f64Value a + f64Value b).natAbs) := by
  obtain ⟨hna, hia⟩ := not_nan_or_inf_of_finite ha
  obtain ⟨hnb, hib⟩ := not_nan_or_inf_of_finite hb
  simp [fadd64, hna, hia, hnb, hib]

theorem fmul64_finite {a b : Word} (ha : f64IsFinite a = true) (hb : f64IsFinite b = true) :
    fmul64 a b = f64Pack (f64Neg a ^^ f64Neg b) (roundBits 1074 (f64Mag a * f64Mag b)) := by
  obtain ⟨hna, hia⟩ := not_nan_or_inf_of_finite ha
  obtain ⟨hnb, hib⟩ := not_nan_or_inf_of_finite hb
  simp [fmul64, hna, hia, hnb, hib]

/-- The sum of two finite numbers is the exact sum, rounded and packed with its sign. -/
theorem exists_fadd64_finite {a b : Word} (ha : f64IsFinite a = true) (hb : f64IsFinite b = true) :
    ∃ neg, fadd64 a b = f64Pack neg (roundBits 0 (f64Value a + f64Value b).natAbs) ∧
      signed neg (f64Value a + f64Value b).natAbs = f64Value a + f64Value b ∧
      (f64Value a + f64Value b ≠ 0 → neg = decide (f64Value a + f64Value b < 0)) := by
  rw [fadd64_finite ha hb]
  generalize f64Value a + f64Value b = e
  by_cases he : e = 0
  · subst he
    exact ⟨f64Neg a && f64Neg b, by simp, signed_zero _, fun h => absurd rfl h⟩
  · rw [if_neg he]
    exact ⟨_, rfl, signed_decide_natAbs e, fun _ => rfl⟩

/-- Settles O52: the sum is the exact sum rounded once, the unit being the smallest subnormal. -/
theorem additionRoundsToNearestEven : Obligations.AdditionRoundsToNearestEven := by
  intro a b ha hb e r
  obtain ⟨neg, hr, hsigned, hneg⟩ := exists_fadd64_finite ha hb
  obtain ⟨hround, hover⟩ := f64Pack_roundBits neg 0 e.natAbs
  simp only [pow_zero, mul_one] at hround hover
  rw [← hr, hsigned] at hround
  rw [← hr] at hover
  refine ⟨fun hv => ?_, fun hv => ?_⟩
  · obtain ⟨hfin, hnear⟩ := hround hv
    refine ⟨hfin, fun z _ => ?_⟩
    simpa only [pow_zero, mul_one] using hnear z
  · have he : e ≠ 0 := by
      intro h0
      rw [h0] at hv
      exact absurd hv (Nat.not_le.2 (by positivity))
    refine (hover hv).trans ?_
    rw [hneg he, f64Pack_infBits]
    simp only [decide_eq_true_eq]
    rfl

/-- Settles O53: the product is the exact product rounded once, the unit being that of the product of two smallest
subnormals. -/
theorem multiplicationRoundsToNearestEven : Obligations.MultiplicationRoundsToNearestEven := by
  intro a b ha hb e r
  have hr : r = f64Pack (f64Neg a ^^ f64Neg b) (roundBits 1074 (f64Mag a * f64Mag b)) := fmul64_finite ha hb
  have he : e = signed (f64Neg a ^^ f64Neg b) (f64Mag a * f64Mag b) := signed_mul _ _ _ _
  obtain ⟨hround, hover⟩ := f64Pack_roundBits (f64Neg a ^^ f64Neg b) 1074 (f64Mag a * f64Mag b)
  have habs : e.natAbs = f64Mag a * f64Mag b := by rw [he, signed_natAbs]
  rw [← hr, ← he, ← habs] at hround
  rw [← hr, ← habs] at hover
  refine ⟨?_, fun hv => ?_, fun hv => ?_⟩
  · rw [hr, f64Neg_f64Pack]
  · obtain ⟨hfin, hnear⟩ := hround hv
    exact ⟨hfin, fun z _ => hnear z⟩
  · rw [hover hv, f64IsInf, f64Bits_f64Pack, Nat.min_self]
    exact decide_eq_true rfl

end Sys2Proof.Machine
end

section
/-! PROOFS. Infinities, NaNs and zeros as operands (spec/40_filter_engine.md R133). -/

namespace Sys2Proof.Machine

/-! ## The classes exclude each other -/

theorem not_nan_or_zero_of_inf {w : Word} (h : f64IsInf w = true) : f64IsNaN w = false ∧ f64IsZero w = false := by
  obtain ⟨_, hinf, _⟩ | ⟨hnan, _, _, hzero⟩ | ⟨_, hinf, _⟩ := f64_classes w
  · simp [hinf] at h
  · exact ⟨hnan, hzero⟩
  · simp [hinf] at h

/-! ## NaN results -/

/-- A product is a NaN for a NaN operand and for zero times infinity only (R133). -/
theorem f64IsNaN_fmul64 (a b : Word) : f64IsNaN (fmul64 a b) = true ↔ f64IsNaN a = true ∨ f64IsNaN b = true ∨
    (f64IsInf a = true ∧ f64IsZero b = true) ∨ (f64IsZero a = true ∧ f64IsInf b = true) := by
  unfold fmul64
  dsimp only
  split
  next hnan =>
    rw [Bool.or_eq_true] at hnan
    exact iff_of_true (f64NaNOf_isNaN _) (or_assoc.1 (.inl hnan))
  next hnan =>
    split
    next hinf =>
      split
      next hzero =>
        rw [Bool.or_eq_true] at hinf hzero
        refine iff_of_true (f64NaNOf_isNaN _) (.inr (.inr ?_))
        obtain hia | hib := hinf
        · exact .inl ⟨hia, hzero.resolve_left (by simp [(not_nan_or_zero_of_inf hia).2])⟩
        · exact .inr ⟨hzero.resolve_right (by simp [(not_nan_or_zero_of_inf hib).2]), hib⟩
      next hzero => simp_all [f64IsNaN_f64Pack]
    next hinf => simp_all [f64IsNaN_f64Pack]

/-- A sum is a NaN for a NaN operand and for infinities of opposite sign only (R133). -/
theorem f64IsNaN_fadd64 (a b : Word) : f64IsNaN (fadd64 a b) = true ↔ f64IsNaN a = true ∨ f64IsNaN b = true ∨
    (f64IsInf a = true ∧ f64IsInf b = true ∧ f64Neg a ≠ f64Neg b) := by
  unfold fadd64
  dsimp only
  split
  next hnan =>
    rw [Bool.or_eq_true] at hnan
    exact iff_of_true (f64NaNOf_isNaN _) (or_assoc.1 (.inl hnan))
  next hnan =>
    split
    next hia =>
      split
      next hopposite =>
        obtain ⟨hib, hsign⟩ := (Bool.and_eq_true _ _).mp hopposite
        exact iff_of_true (f64NaNOf_isNaN _) (.inr (.inr ⟨hia, hib, bne_iff_ne.1 hsign⟩))
      next hopposite => simp_all
    next hia =>
      split
      next hib => simp_all
      next hib => split <;> simp_all [f64IsNaN_f64Pack]

/-! ## Infinities -/

/-- A product with an infinity and no NaN or zero is an infinity, its sign the exclusive or of the signs (R133). -/
theorem fmul64_inf {a b : Word} (hinf : f64IsInf a = true ∨ f64IsInf b = true) (hna : f64IsNaN a = false)
    (hnb : f64IsNaN b = false) (hza : f64IsZero a = false) (hzb : f64IsZero b = false) :
    fmul64 a b = f64Pack (f64Neg a ^^ f64Neg b) f64InfBits := by
  have hinf : (f64IsInf a || f64IsInf b) = true := (Bool.or_eq_true _ _).mpr hinf
  simp [fmul64, hinf, hna, hnb, hza, hzb]

theorem f64IsInf_f64Pack_infBits (neg : Bool) : f64IsInf (f64Pack neg f64InfBits) = true := by
  simp [f64IsInf]

theorem fadd64_inf_left {a b : Word} (ha : f64IsInf a = true) (hb : f64IsFinite b = true) : fadd64 a b = a := by
  obtain ⟨hnb, hib⟩ := not_nan_or_inf_of_finite hb
  simp [fadd64, (not_nan_or_zero_of_inf ha).1, ha, hnb, hib]

theorem fadd64_inf_right {a b : Word} (ha : f64IsInf a = true) (hb : f64IsFinite b = true) : fadd64 b a = a := by
  obtain ⟨hnb, hib⟩ := not_nan_or_inf_of_finite hb
  simp [fadd64, (not_nan_or_zero_of_inf ha).1, ha, hnb, hib]

theorem fadd64_inf_self {a : Word} (ha : f64IsInf a = true) : fadd64 a a = a := by
  simp [fadd64, (not_nan_or_zero_of_inf ha).1, ha]

/-! ## Equal numbers of opposite sign -/

theorem f64Value_negate (w : Word) : f64Value (w ^^^ 0x8000000000000000) = -f64Value w := by
  obtain ⟨hbits, hneg⟩ := f64_negate w
  rw [f64Value_eq_signed, f64Value_eq_signed, hbits, hneg]
  cases f64Neg w <;> simp [signed]

theorem f64IsFinite_negate {w : Word} (h : f64IsFinite w = true) : f64IsFinite (w ^^^ 0x8000000000000000) = true := by
  rwa [f64IsFinite, (f64_negate w).1]

/-- A finite number and its negative sum to `+0.0` (R133). -/
theorem fadd64_negate {a : Word} (ha : f64IsFinite a = true) : fadd64 a (a ^^^ 0x8000000000000000) = 0 := by
  rw [fadd64_finite ha (f64IsFinite_negate ha), f64Value_negate, if_pos (add_neg_cancel _), (f64_negate a).2,
    Bool.and_not_self]
  rfl

/-- Settles O54: the cases of the two operations in which an operand is a NaN, an infinity or a zero. -/
theorem specialOperandsFollowIeee : Obligations.SpecialOperandsFollowIeee := by
  intro a b
  refine ⟨f64IsNaN_fmul64 a b, f64IsNaN_fadd64 a b, fun ha hnb hzb => ?_,
    fun ha hb => ⟨fadd64_inf_left ha hb, fadd64_inf_right ha hb⟩, fadd64_inf_self, fadd64_negate, by decide⟩
  obtain ⟨hna, hza⟩ := not_nan_or_zero_of_inf ha
  rw [fmul64_inf (.inl ha) hna hnb hza hzb, fmul64_inf (.inr ha) hnb hna hzb hza, f64Neg_f64Pack, f64Neg_f64Pack]
  exact ⟨f64IsInf_f64Pack_infBits _, rfl, f64IsInf_f64Pack_infBits _, Bool.xor_comm _ _⟩

end Sys2Proof.Machine
end

section
/-! PROOFS. The named filters: identity, pure delay, moving average (spec/40_filter_engine.md R145). -/

namespace Sys2Proof.Machine

/-! ## Exact results -/

/-- A number that needs no rounding keeps its bits: nothing else is at distance 0. -/
theorem roundBits_exact (u b : Nat) : roundBits u (bitsMag b * 2 ^ u) = b := by
  obtain ⟨hle, -⟩ := roundBits_isNearest u (bitsMag b * 2 ^ u) b
  have heq : bitsMag (roundBits u (bitsMag b * 2 ^ u)) * 2 ^ u = bitsMag b * 2 ^ u := by omega
  exact bitsMag_strictMono.injective (Nat.eq_of_mul_eq_mul_right (by positivity) heq)

theorem f64Mag_one : f64Mag 0x3FF0000000000000 = 2 ^ 1074 := by
  have hbits : f64Bits 0x3FF0000000000000 = 1022 * 2 ^ 52 + 2 ^ 52 := by decide
  rw [f64Mag_eq_bitsMag, hbits, bitsMag_binade (by norm_num) fun _ => le_rfl, ← pow_add]

/-- 1.0 times a finite number is that number. -/
theorem fmul64_one_left {w : Word} (h : f64IsFinite w = true) : fmul64 0x3FF0000000000000 w = w := by
  rw [fmul64_finite (by decide) h, f64Mag_one, Nat.mul_comm, f64Mag_eq_bitsMag, roundBits_exact,
    show f64Neg 0x3FF0000000000000 = false from rfl, Bool.false_xor, f64Pack_of_finite h]

/-- `+0.0` times a finite number is a zero of that number's sign. -/
theorem fmul64_zero_left {w : Word} (h : f64IsFinite w = true) : fmul64 0 w = f64Pack (f64Neg w) 0 := by
  rw [fmul64_finite (by decide) h, show f64Mag 0 = 0 from rfl, Nat.zero_mul, roundBits_zero,
    show f64Neg 0 = false from rfl, Bool.false_xor]

/-- `+0.0` plus a zero of either sign is `+0.0`. -/
theorem fadd64_zero_zero (neg : Bool) : fadd64 0 (f64Pack neg 0) = 0 := by
  cases neg <;> decide

theorem signed_lt_zero {neg : Bool} {m : Nat} (h : signed neg m ≠ 0) : decide (signed neg m < 0) = neg := by
  cases neg
  · exact decide_eq_false (Int.not_lt.2 (Int.natCast_nonneg m))
  · have : m ≠ 0 := fun h0 => h (h0 ▸ signed_zero true)
    exact decide_eq_true (by change -(m : Int) < 0; omega)

/-- `+0.0` plus a finite number is that number, `-0.0` apart. -/
theorem fadd64_zero_left {w : Word} (h : f64IsFinite w = true) (hneg : w ≠ 0x8000000000000000) : fadd64 0 w = w := by
  rw [fadd64_finite (by decide) h, show f64Value 0 = 0 from rfl, zero_add]
  have hw := f64Pack_of_finite h
  by_cases hzero : f64Value w = 0
  · have hbits : f64Bits w = 0 := by
      refine bitsMag_strictMono.injective ?_
      rw [← signed_natAbs (f64Neg w) (bitsMag (f64Bits w)), ← f64Value_eq_signed, hzero]
      rfl
    rw [if_pos hzero, show f64Neg 0 = false from rfl, Bool.false_and, ← hw, hbits]
    cases hs : f64Neg w with
    | false => rfl
    | true =>
      rw [hs, hbits] at hw
      exact absurd hw.symm hneg
  · have hround := roundBits_exact 0 (f64Bits w)
    rw [pow_zero, Nat.mul_one] at hround
    rw [if_neg hzero]
    rw [f64Value_eq_signed] at hzero ⊢
    rw [signed_lt_zero hzero, signed_natAbs, hround, hw]

/-! ## The filters (R145) -/

/-- The samples R145 is said of: finite and not `-0.0`. -/
def PlainSample (w : Word) : Prop := f64IsFinite w = true ∧ w ≠ 0x8000000000000000

theorem plainSample_zero : PlainSample 0 := ⟨by decide, by decide⟩

theorem entry_mem {ws : List Word} {i : Nat} (h : i < ws.length) : entry ws i ∈ ws := by
  simp [entry, List.getD_eq_getElem?_getD, h]

/-- The one tap 1.0: the accumulator is the sample. -/
theorem accumulate_identity {sample : Nat → Word} (h : PlainSample (sample 0)) :
    accumulate [0x3FF0000000000000] sample 1 = sample 0 := by
  obtain ⟨hfin, hneg⟩ := h
  rw [accumulate_succ, accumulate_zero, show entry [0x3FF0000000000000] 0 = 0x3FF0000000000000 from rfl,
    fmul64_one_left hfin, fadd64_zero_left hfin hneg]

/-- The taps 0.0 and 1.0: the accumulator is the sample before. -/
theorem accumulate_delay {sample : Nat → Word} (h0 : f64IsFinite (sample 0) = true) (h1 : PlainSample (sample 1)) :
    accumulate [0, 0x3FF0000000000000] sample 2 = sample 1 := by
  obtain ⟨hfin, hneg⟩ := h1
  rw [accumulate_succ, accumulate_succ, accumulate_zero, show entry [0, 0x3FF0000000000000] 0 = 0 from rfl,
    show entry [0, 0x3FF0000000000000] 1 = 0x3FF0000000000000 from rfl, fmul64_zero_left h0, fadd64_zero_zero,
    fmul64_one_left hfin, fadd64_zero_left hfin hneg]

theorem convolve_identity {hist x : List Word} (h : ∀ w ∈ x, PlainSample w) :
    convolve [0x3FF0000000000000] 1 hist x = x := by
  refine list_eq_of_entries (convolve_length _ _ _ _) fun n hn => ?_
  rw [convolve_length] at hn
  have hsample : entry (signal 1 hist x) (0 + n - 0) = entry x n := by simp [signal, historyLen]
  rw [entry_convolve _ _ _ _ hn, convolveAt_eq_signal (Nat.zero_le _)]
  exact (accumulate_identity (hsample ▸ h _ (entry_mem hn))).trans hsample

theorem convolve_delay {hist x : List Word} (h : ∀ w ∈ x, PlainSample w) :
    convolve [0, 0x3FF0000000000000] 2 (0 :: hist) x = (0 :: x).take x.length := by
  refine list_eq_of_entries (by simp) fun n hn => ?_
  rw [convolve_length] at hn
  have hplain : ∀ i, i < x.length + 1 → PlainSample (entry (0 :: x) i) := by
    intro i hi
    obtain heq | hmem := List.mem_cons.1 (entry_mem (ws := 0 :: x) hi)
    · rw [heq]
      exact plainSample_zero
    · exact h _ hmem
  rw [entry_convolve _ _ _ _ hn, convolveAt_eq_signal (by simp [historyLen])]
  change accumulate _ (fun k => entry (0 :: x) (1 + n - k)) 2 = _
  rw [accumulate_delay (sample := fun k => entry (0 :: x) (1 + n - k)) (hplain _ (by omega)).1 (hplain _ (by omega)),
    Nat.add_sub_cancel_left]
  simp only [entry, List.getD_eq_getElem?_getD]
  rw [List.getElem?_take_of_lt hn]

section
variable {sample : Nat → Word}

/-- Two taps 0.5 on a one after a zero. -/
theorem accumulate_average_start (h0 : sample 0 = 0x3FF0000000000000) (h1 : sample 1 = 0) :
    accumulate [0x3FE0000000000000, 0x3FE0000000000000] sample 2 = 0x3FE0000000000000 := by
  rw [accumulate_succ, accumulate_succ, accumulate_zero, h0, h1]
  decide +kernel

/-- Two taps 0.5 on a one after a one. -/
theorem accumulate_average_ones (h0 : sample 0 = 0x3FF0000000000000) (h1 : sample 1 = 0x3FF0000000000000) :
    accumulate [0x3FE0000000000000, 0x3FE0000000000000] sample 2 = 0x3FF0000000000000 := by
  rw [accumulate_succ, accumulate_succ, accumulate_zero, h0, h1]
  decide +kernel

end

/-- The moving average of four ones from a zero history: half a one, then ones. -/
theorem convolve_average (hist : List Word) :
    convolve [0x3FE0000000000000, 0x3FE0000000000000] 2 (0 :: hist)
      [0x3FF0000000000000, 0x3FF0000000000000, 0x3FF0000000000000, 0x3FF0000000000000] =
      [0x3FE0000000000000, 0x3FF0000000000000, 0x3FF0000000000000, 0x3FF0000000000000] := by
  refine list_eq_of_entries (convolve_length _ _ _ _) fun n hn => ?_
  rw [convolve_length] at hn
  rw [entry_convolve _ _ _ _ hn, convolveAt_eq_signal (by simp [historyLen])]
  match n, hn with
  | 0, _ => exact accumulate_average_start rfl rfl
  | 1, _ => exact accumulate_average_ones rfl rfl
  | 2, _ => exact accumulate_average_ones rfl rfl
  | 3, _ => exact accumulate_average_ones rfl rfl

/-- Settles O24: by continuity one call on the whole signal, whose outputs are the filter's (R142). -/
theorem namedFiltersGiveTheirOutputs : Obligations.NamedFiltersGiveTheirOutputs := by
  refine ⟨fun hist blocks h => ?_, fun hist blocks h => ?_, fun hist => ⟨?_, ?_⟩⟩
  · rw [continuityOverAnyPartition _ _ _ _ (Nat.zero_le _)]
    exact convolve_identity h
  · rw [continuityOverAnyPartition _ _ _ _ (by simp)]
    exact convolve_delay h
  · rw [continuityOverAnyPartition _ _ _ _ (by simp)]
    exact convolve_average hist
  · rw [continuityOverAnyPartition _ _ _ _ (by simp)]
    exact convolve_average hist

end Sys2Proof.Machine
end

section
/-! PROOFS. `PROC`: the words its writes leave in memory, and its next state in RUNNING, in IDLE and DONE, and with no frames
(spec/41_block_scheduler.md R163 to R170, R174). -/

namespace Sys2Proof.Machine

/-! ## Words after a list of writes -/

/-- A word reads `v` after writes that are apart from it or put `v` there, when it is among them or read `v` before. -/
theorem readWord_writeWords_agree {m : Memory} (hm : Memory.wf m = true) (ws : List (Word × Word)) {a v : Word}
    (hws : ∀ w ∈ ws, w = (a, v) ∨ WordsApart w.1 a) (hv : (a, v) ∈ ws ∨ Memory.readWord m a = v) :
    Memory.readWord (Memory.writeWords m ws) a = v := by
  induction ws generalizing m with
  | nil => exact hv.resolve_left List.not_mem_nil
  | cons w ws ih =>
    refine ih (writeWord_wf hm _ _) (fun w' hw' => hws w' (List.mem_cons_of_mem _ hw')) ?_
    obtain rfl | hapart := hws w List.mem_cons_self
    · exact .inr (readWord_writeWord_same hm a v)
    · rw [readWord_writeWord_apart hm w.2 hapart]
      refine hv.imp_left fun hmem => (List.mem_cons.1 hmem).resolve_left ?_
      rintro rfl
      exact hapart 0 0 (by decide) (by decide) rfl

/-- Two words of one buffer are the same word or apart, also when the buffer wraps onto itself (R78). -/
theorem wordAddr_eq_or_apart (base : Word) (i j : Nat) :
    wordAddr base i = wordAddr base j ∨ WordsApart (wordAddr base i) (wordAddr base j) := by
  by_cases h : 8 * i % 2 ^ 64 = 8 * j % 2 ^ 64
  · left
    apply BitVec.eq_of_toNat_eq
    rw [wordAddr_toNat, wordAddr_toNat]
    omega
  · right
    intro k l hk hl heq
    rw [byteAddr_wordAddr, byteAddr_wordAddr] at heq
    omega

/-- A buffer counted from one of its words. -/
theorem wordAddr_add (base : Word) (i j : Nat) : wordAddr base (i + j) = wordAddr (wordAddr base i) j := by
  apply BitVec.eq_of_toNat_eq
  rw [wordAddr_toNat, wordAddr_toNat, wordAddr_toNat]
  omega

/-- Among `n` consecutive frames of a buffer that do not wrap onto themselves, two words are those of one frame and channel,
or apart. -/
theorem frame_words_apart (base : Word) (f0 : Nat) {n ch f c f' c' : Nat} (hfit : n * ch ≤ 2 ^ 61) (hf : f < n)
    (hc : c < ch) (hf' : f' < n) (hc' : c' < ch) :
    (f = f' ∧ c = c') ∨ WordsApart (wordAddr base ((f0 + f) * ch + c)) (wordAddr base ((f0 + f') * ch + c')) := by
  rw [Nat.add_mul, Nat.add_mul, Nat.add_assoc, Nat.add_assoc, wordAddr_add base, wordAddr_add base (f0 * ch)]
  by_cases h : f * ch + c = f' * ch + c'
  · exact .inl (frame_index_inj hc hc' h)
  · exact .inr (wordAddr_apart _ ((frame_index_lt hf hc).trans_le hfit) ((frame_index_lt hf' hc').trans_le hfit) h)

/-! ## The writes of a `PROC` in RUNNING (R166, R167) -/

/-- A written word is the sample of a destination frame, or a sample or silence in the transport block. -/
theorem mem_procWrites {s : State} {nReq n : Nat} {w : Word × Word} :
    w ∈ procWrites s nReq n ↔
      (∃ f c, f < n ∧ c < s.numCh.toNat ∧
        w = (dstAddr s (s.nextFrame.toNat + f) c, entry (outputBlock s n c) f)) ∨
      (∃ g c, g < nReq ∧ c < s.numCh.toNat ∧
        w = (outAddr s g c, if g < n then entry (outputBlock s n c) g else 0)) := by
  simp only [procWrites, List.mem_append, List.mem_map, Prod.exists, mem_frameOrder, and_assoc, eq_comm]

/-- Words apart from the destination frames and the transport block read as before (R284). -/
theorem readWord_procWrites_apart {s : State} (hs : s.Inv) {nReq n : Nat} {a : Word}
    (hdst : ∀ f c, f < n → c < s.numCh.toNat → WordsApart (dstAddr s (s.nextFrame.toNat + f) c) a)
    (hout : ∀ g c, g < nReq → c < s.numCh.toNat → WordsApart (outAddr s g c) a) :
    Memory.readWord (Memory.writeWords s.mem (procWrites s nReq n)) a = Memory.readWord s.mem a := by
  refine readWord_writeWords_apart hs.mem_wf _ fun w hw => ?_
  obtain ⟨f, c, hf, hc, rfl⟩ | ⟨g, c, hg, hc, rfl⟩ := mem_procWrites.1 hw
  · exact hdst f c hf hc
  · exact hout g c hg hc

/-- Bytes outside the destination frames and the transport block read as before. -/
theorem readByte_procWrites_out {s : State} (hs : s.Inv) {nReq n a : Nat}
    (hdst : ∀ f c, f < n → c < s.numCh.toNat → inWord (dstAddr s (s.nextFrame.toNat + f) c) a = false)
    (hout : ∀ g c, g < nReq → c < s.numCh.toNat → inWord (outAddr s g c) a = false) :
    Memory.readByte (Memory.writeWords s.mem (procWrites s nReq n)) a = Memory.readByte s.mem a := by
  refine readByte_writeWords_out hs.mem_wf _ fun w hw => ?_
  obtain ⟨f, c, hf, hc, rfl⟩ | ⟨g, c, hg, hc, rfl⟩ := mem_procWrites.1 hw
  · exact hdst f c hf hc
  · exact hout g c hg hc

/-- A word of the transport block holds its frame's sample, or silence: nothing is written there later (R167). -/
theorem readWord_procWrites_out {s : State} (hs : s.Inv) {nReq n g c : Nat} (hfit : nReq * s.numCh.toNat ≤ 2 ^ 61)
    (hg : g < nReq) (hc : c < s.numCh.toNat) :
    Memory.readWord (Memory.writeWords s.mem (procWrites s nReq n)) (outAddr s g c) =
      if g < n then entry (outputBlock s n c) g else 0 := by
  rw [procWrites, writeWords_append]
  refine readWord_writeWords_agree (writeWords_wf hs.mem_wf _) _ (fun w hw => ?_) (.inl ?_)
  · obtain ⟨⟨g', c'⟩, hmem, rfl⟩ := List.mem_map.1 hw
    obtain ⟨hg', hc'⟩ := mem_frameOrder.1 hmem
    have happart := frame_words_apart s.outBase 0 hfit hg' hc' hg hc
    simp only [Nat.zero_add] at happart
    exact happart.imp_left fun ⟨hgg, hcc⟩ => by rw [hgg, hcc]
  · exact List.mem_map.2 ⟨(g, c), mem_frameOrder.2 ⟨hg, hc⟩, rfl⟩

/-- A destination word that the transport block does not touch holds the sample of its frame and channel (R166). -/
theorem readWord_procWrites_dst {s : State} (hs : s.Inv) {nReq n f c : Nat} (hfit : n * s.numCh.toNat ≤ 2 ^ 61)
    (hf : f < n) (hc : c < s.numCh.toNat)
    (hout : ∀ g c', g < nReq → c' < s.numCh.toNat →
      WordsApart (outAddr s g c') (dstAddr s (s.nextFrame.toNat + f) c)) :
    Memory.readWord (Memory.writeWords s.mem (procWrites s nReq n)) (dstAddr s (s.nextFrame.toNat + f) c) =
      entry (outputBlock s n c) f := by
  refine readWord_writeWords_agree hs.mem_wf _ (fun w hw => ?_) (.inl (mem_procWrites.2 (.inl ⟨f, c, hf, hc, rfl⟩)))
  obtain ⟨f', c', hf', hc', rfl⟩ | ⟨g, c', hg, hc', rfl⟩ := mem_procWrites.1 hw
  · exact (frame_words_apart s.dstBase s.nextFrame.toNat hfit hf' hc' hf hc).imp_left
      fun ⟨hff, hcc⟩ => by rw [hff, hcc]
  · exact .inr (hout g c' hg hc')

/-! ## The histories after a `PROC` in RUNNING (R165) -/

/-- Each channel below `NUM_CH` has had one engine call on its source block. -/
theorem historiesAfter_procCalls {s : State} {n c : Nat} (files : List (List Word)) (mb : Nat) (hc : c < s.numCh.toNat)
    (hfiles : c < files.length) :
    historyOf (historiesAfter mb (procCalls s n) files) c =
      nextHistory mb (historyOf files c) (sourceBlock s s.nextFrame.toNat n c) :=
  historiesAfter_once mb _ files (procCalls_channels s n ▸ List.nodup_range)
    (List.mem_map_of_mem (f := fun c => (c, sourceBlock s s.nextFrame.toNat n c)) (List.mem_range.2 hc)) hfiles

/-! ## The next state in RUNNING -/

/-- The state after the reads, the engine calls and the writes of a `PROC`, before `NEXT_FRAME` advances (R164 to
R167). -/
def procWork (s : State) (nReq : Nat) : State :=
  { s with
    xs := historiesAfter (tapCount s) (procCalls s (effectiveLen s nReq)) s.xs
    mem := Memory.writeWords s.mem (procWrites s nReq (effectiveLen s nReq))
    trace := s.trace ++ readEvents s.mem (procReads s (effectiveLen s nReq)) ++
      writeEvents (procWrites s nReq (effectiveLen s nReq)) }

theorem procWork_mem (s : State) (nReq : Nat) :
    (procWork s nReq).mem = Memory.writeWords s.mem (procWrites s nReq (effectiveLen s nReq)) := rfl

section
variable {s : State} {nReq : Nat} (hready : ProcReady s nReq)
include hready

/-- A `PROC` in RUNNING does its work, then advances (R160, R168, R169). -/
theorem exec_proc_advance : exec (.proc nReq) s = .next (advance (effectiveLen s nReq) (procWork s nReq)) :=
  (exec_proc_ready hready).trans (procRunning_backed hready)

variable (hs : s.Inv)
include hs

/-- The words a `PROC` writes to one region are at most 2^61, so that they do not wrap onto themselves (R8, R9). -/
theorem ProcReady.words_fit {n : Nat} (hn : n ≤ nReq) : n * s.numCh.toNat ≤ 2 ^ 61 := by
  obtain ⟨-, hmaxCh, hmaxLen⟩ := hs.params_legal
  have hch := (hs.running_numCh hready.running).2
  have hlen := hready.count
  calc n * s.numCh.toNat ≤ (2 ^ 32 - 1) * 256 := Nat.mul_le_mul (by omega) (by omega)
    _ ≤ 2 ^ 61 := by norm_num

/-- `PROC` in RUNNING takes at most the frames left (R163). -/
theorem ProcReady.within : s.nextFrame.toNat + effectiveLen s nReq ≤ s.totalFrame.toNat :=
  nextFrame_add_effectiveLen_le (hs.running_next hready.running).le nReq

end

theorem effectiveLen_zero (s : State) : effectiveLen s 0 = 0 := Nat.zero_min _

theorem effectiveLen_le (s : State) (nReq : Nat) : effectiveLen s nReq ≤ nReq := Nat.min_le_left _ _

/-- Steps 6 and 7 of a stream that runs, as one record update: `STATE`, `COMPLETE` and `EVT_DONE` by whether the stream
ends (R168, R169). -/
theorem advance_running {n : Nat} {s : State} (h : s.nextFrame.toNat + n ≤ s.totalFrame.toNat)
    (hphase : s.phase = .running) (hcomplete : s.complete = false) :
    advance n s = { s with
      nextFrame := s.nextFrame + BitVec.ofNat 64 n
      phase := if s.nextFrame.toNat + n = s.totalFrame.toNat then .done else .running
      complete := decide (s.nextFrame.toNat + n = s.totalFrame.toNat)
      trace := s.trace ++ if s.nextFrame.toNat + n = s.totalFrame.toNat then [.evtDone] else [] } := by
  rw [(advance_within h).2]
  by_cases hend : s.nextFrame.toNat + n = s.totalFrame.toNat
  · simp only [hend, if_true, decide_true]
    rfl
  · simp only [hend, if_false, decide_false, List.append_nil, ← hphase, ← hcomplete]

/-- `COMPLETE` is 0 in a running stream (R26). -/
theorem State.Inv.running_incomplete {s : State} (hs : s.Inv) (hphase : s.phase = .running) : s.complete = false :=
  Bool.eq_false_iff.2 fun h => by rw [hs.complete_iff.1 h] at hphase; cases hphase

/-- Settles O26: the work of the `PROC`, whose writes are all that changes in memory, then the advance. -/
theorem procAdvancesTheStream : Obligations.ProcAdvancesTheStream := by
  intro s nReq hs hready ch n ends src dst out writes m
  have hwithin := hready.within hs
  refine ⟨(procWork s nReq).xs, ?_, (advance_within hwithin).1, historiesAfter_length _ _ _, fun c hc => ?_,
    fun c hc => ?_, fun a => readByte_procWrites_out hs⟩
  · rw [exec_proc_advance hready,
      advance_running (s := procWork s nReq) hwithin hready.running (hs.running_incomplete hready.running)]
    simp only [procWork, readEvents, procReads, writeEvents, List.map_map]
    rfl
  · refine historiesAfter_procCalls _ _ hc (hc.trans_le ?_)
    rw [hs.xs_length]
    exact (hs.running_numCh hready.running).2
  · have hother := execProc_other_history (exec_proc_advance hready) hc
    rwa [advance_xs] at hother

/-- Settles O27: the transport writes are the last ones, each word of the block written once. -/
theorem procFillsTheTransportBlock : Obligations.ProcFillsTheTransportBlock := by
  intro s nReq hs hready n
  refine ⟨_, exec_proc_advance hready, fun g c hg hc => ?_⟩
  rw [advance_mem, procWork_mem]
  exact readWord_procWrites_out hs (hready.words_fit hs le_rfl) hg hc

/-- Settles O28: no later write touches such a destination word, and no write at all the bytes outside. -/
theorem procWritesTheDestinationFrames : Obligations.ProcWritesTheDestinationFrames := by
  intro s nReq hs hready n
  refine ⟨_, exec_proc_advance hready, fun f c hf hc hout => ?_, fun a hdst hout => ?_⟩ <;>
    rw [advance_mem, procWork_mem]
  · exact readWord_procWrites_dst hs (hready.words_fit hs (effectiveLen_le s nReq)) hf hc hout
  · exact readByte_procWrites_out hs hdst hout

/-! ## `PROC` outside a stream (R170) -/

theorem mem_silenceWrites {s : State} {nReq : Nat} {w : Word × Word} :
    w ∈ silenceWrites s nReq ↔ ∃ g c, g < nReq ∧ c < s.numCh.toNat ∧ w = (outAddr s g c, 0) := by
  simp only [silenceWrites, List.mem_map, Prod.exists, mem_frameOrder, and_assoc, eq_comm]

/-- Every word of the transport block is silence, also when the block wraps onto itself. -/
theorem readWord_silenceWrites {s : State} (hs : s.Inv) {nReq g c : Nat} (hg : g < nReq) (hc : c < s.numCh.toNat) :
    Memory.readWord (Memory.writeWords s.mem (silenceWrites s nReq)) (outAddr s g c) = 0 := by
  refine readWord_writeWords_agree hs.mem_wf _ (fun w hw => ?_) (.inl (mem_silenceWrites.2 ⟨g, c, hg, hc, rfl⟩))
  obtain ⟨g', c', -, -, rfl⟩ := mem_silenceWrites.1 hw
  exact (wordAddr_eq_or_apart s.outBase _ _).imp_left fun heq => congrArg (·, 0) heq

theorem readByte_silenceWrites_out {s : State} (hs : s.Inv) {nReq a : Nat}
    (hout : ∀ g c, g < nReq → c < s.numCh.toNat → inWord (outAddr s g c) a = false) :
    Memory.readByte (Memory.writeWords s.mem (silenceWrites s nReq)) a = Memory.readByte s.mem a := by
  refine readByte_writeWords_out hs.mem_wf _ fun w hw => ?_
  obtain ⟨g, c, hg, hc, rfl⟩ := mem_silenceWrites.1 hw
  exact hout g c hg hc

/-- A `PROC` outside a stream makes its silence writes and does nothing else. -/
theorem exec_proc_silent {s : State} {nReq : Nat} (h : SilenceReady s nReq) :
    exec (.proc nReq) s = .next { s with
      mem := Memory.writeWords s.mem (silenceWrites s nReq)
      trace := s.trace ++ writeEvents (silenceWrites s nReq) } :=
  (exec_proc_silence h).trans (procSilence_backed h.out)

/-- Settles O29: every write puts `+0.0` in a word of the transport block. -/
theorem procOutsideAStreamWritesSilence : Obligations.ProcOutsideAStreamWritesSilence := by
  intro s nReq hs hready
  refine ⟨_, ?_, fun g c hg hc => readWord_silenceWrites hs hg hc, fun a => readByte_silenceWrites_out hs⟩
  rw [exec_proc_silent hready, writeEvents, silenceWrites, List.map_map]
  rfl

/-! ## `PROC 0` (R174) -/

/-- Engine calls on empty blocks change no history. -/
theorem historiesAfter_nil_blocks {mb L : Nat} (l : List (Nat × List Word)) {files : List (List Word)}
    (hmb : historyLen mb ≤ L) (hfiles : ∀ h ∈ files, h.length = L) (hl : ∀ call ∈ l, call.2 = []) :
    historiesAfter mb l files = files := by
  induction l with
  | nil => rfl
  | cons call l ih =>
    obtain ⟨c, x⟩ := call
    obtain rfl : x = [] := hl (c, x) List.mem_cons_self
    have hset : files.set c (nextHistory mb (historyOf files c) []) = files := by
      refine files_eq_of_histories List.length_set fun c' hc' => ?_
      rw [List.length_set] at hc'
      by_cases hcc : c = c'
      · subst hcc
        rw [historyOf_set_same hc', nextHistory_nil (hmb.trans_eq (hfiles _ (historyOf_mem hc')).symm)]
      · rw [historyOf_set_other _ hcc]
    rw [historiesAfter, hset]
    exact ih fun call hcall => hl call (List.mem_cons_of_mem _ hcall)

/-- The work of a `PROC 0` is none. -/
theorem procWork_zero {s : State} (hs : s.Inv) (hphase : s.phase = .running) : procWork s 0 = s := by
  have hxs : historiesAfter (tapCount s) (procCalls s 0) s.xs = s.xs := by
    refine historiesAfter_nil_blocks _ (hs.historyLen_le_hcap (hs.running_cfg hphase)) hs.xs_entries fun call hcall => ?_
    obtain ⟨c, -, rfl⟩ := List.mem_map.1 hcall
    rfl
  rw [procWork, effectiveLen_zero, hxs]
  simp [procReads, procWrites, frameOrder, readEvents, writeEvents]

/-- With a frame left, an advance by none is no change. -/
theorem advance_zero {s : State} (h : s.nextFrame.toNat < s.totalFrame.toNat) : advance 0 s = s := by
  have hnext : s.nextFrame + BitVec.ofNat 64 0 = s.nextFrame := BitVec.add_zero _
  rw [(advance_within h.le).2, if_neg (Nat.add_zero s.nextFrame.toNat ▸ h.ne), hnext]

/-- Settles O30: there is nothing to read, filter or write, and a running stream has a frame left. -/
theorem procOfNoFramesDoesNothing : Obligations.ProcOfNoFramesDoesNothing := by
  intro s hs
  by_cases hphase : s.phase = .running
  · have hready : ProcReady s 0 :=
      { running := hphase
        count := Nat.zero_le _
        source := fun f c hf => absurd (hf.trans_le (effectiveLen_le s 0)) (Nat.not_lt_zero f)
        dest := fun f c hf => absurd (hf.trans_le (effectiveLen_le s 0)) (Nat.not_lt_zero f)
        out := fun g c hg => absurd hg (Nat.not_lt_zero g) }
    rw [exec_proc_advance hready, procWork_zero hs hphase, effectiveLen_zero, advance_zero (hs.running_next hphase)]
  · rw [exec_proc_silent ⟨hphase, Nat.zero_le _, fun g c hg => absurd hg (Nat.not_lt_zero g)⟩]
    simp [silenceWrites, frameOrder, writeEvents]

end Sys2Proof.Machine
end

section
/-! PROOFS. The scheduler's state table: what changes `STATE`, and what clears `COMPLETE` (spec/41_block_scheduler.md R173,
spec/10_state.md R26). -/

namespace Sys2Proof.Machine

/-- The transaction leaves `STATE` and `COMPLETE` as they are. -/
def SamePhase (s t : State) : Prop := t.phase = s.phase ∧ t.complete = s.complete

/-- No effect of the ports reaches `STATE` or `COMPLETE`. -/
theorem PortEffect.samePhase {s t : State} (h : PortEffect s t) : SamePhase s t := by
  cases h <;> exact ⟨rfl, rfl⟩

theorem raise_samePhase (s : State) (e : ErrorEvent) : SamePhase s (s.raise e) := ⟨raise_phase s e, raise_complete s e⟩

/-- An accepted `START` begins a stream outside RUNNING, or completes an empty one (R192). -/
def StartsStream (s t : State) : Prop :=
  s.phase ≠ .running ∧
    ((s.totalFrame = 0 ∧ t.phase = .done ∧ t.complete = true) ∨ (s.totalFrame ≠ 0 ∧ t.phase = .running))

/-- The last frame of a running stream is consumed (R169). -/
def EndsStream (s t : State) : Prop :=
  s.phase = .running ∧ t.phase = .done ∧ t.nextFrame = t.totalFrame ∧ t.complete = true

theorem execStart_phase {s t : State} (h : execStart s = .next t) : SamePhase s t ∨ StartsStream s t := by
  obtain rfl | ⟨hrej, htotal, rfl⟩ | ⟨hrej, htotal, rfl⟩ := execStart_next h
  · exact .inl (raise_samePhase s _)
  · exact .inr ⟨(startRejected_eq_false_iff.1 hrej).1, .inl ⟨htotal, rfl, rfl⟩⟩
  · exact .inr ⟨(startRejected_eq_false_iff.1 hrej).1, .inr ⟨htotal, rfl⟩⟩

theorem execProc_phase {s t : State} {nReq : Nat} (hs : s.Inv) (h : execProc nReq s = .next t) :
    SamePhase s t ∨ EndsStream s t := by
  obtain ⟨hready, rfl⟩ | ⟨_, ws, rfl⟩ := execProc_next h
  · have hwithin := hready.within hs
    change SamePhase s (advance _ (procWork s nReq)) ∨ EndsStream s (advance _ (procWork s nReq))
    obtain ⟨hnext, hadvance⟩ := advance_within (s := procWork s nReq) hwithin
    rw [hadvance]
    split
    · rename_i hend
      exact .inr ⟨hready.running, rfl, BitVec.eq_of_toNat_eq (hnext.trans hend), rfl⟩
    · exact .inl ⟨rfl, rfl⟩
  · exact .inl ⟨rfl, rfl⟩

/-- Of the commands, `START` and `PROC` alone change `STATE` or `COMPLETE` (R173). -/
theorem exec_phase {i : Instr} {s t : State} (hs : s.Inv) (h : exec i s = .next t) :
    SamePhase s t ∨ (i = .start ∧ StartsStream s t) ∨ ((∃ n, i = .proc n) ∧ EndsStream s t) := by
  cases i with
  | load =>
    obtain rfl | ⟨_, rfl⟩ | ⟨_, _, _, rfl⟩ := execLoad_next h
    · exact .inl (raise_samePhase s _)
    · exact .inl (raise_samePhase s _)
    · exact .inl ⟨rfl, rfl⟩
  | start => exact (execStart_phase h).imp_right fun hstart => .inl ⟨rfl, hstart⟩
  | proc nReq => exact (execProc_phase hs h).imp_right fun hend => .inr ⟨⟨nReq, rfl⟩, hend⟩
  | filt c n =>
    obtain rfl | ⟨_, rfl⟩ := execFilt_next h
    · exact .inl (raise_samePhase s _)
    · exact .inl ⟨rfl, rfl⟩

/-- The table of R173: beside reset, `START` and `PROC` no transaction changes `STATE` or `COMPLETE`. -/
theorem transact_phase {tr : Transaction} {s t : State} (hs : s.Inv) (h : transact tr s = .next t) :
    SamePhase s t ∨ (tr = .reset ∧ t.phase = .idle) ∨ (isCommand tr .start ∧ StartsStream s t) ∨
      ((∃ n, isCommand tr (.proc n)) ∧ EndsStream s t) := by
  obtain ⟨rfl, rfl⟩ | ⟨i, hi, hexec⟩ | heffect := transact_next h
  · exact .inr (.inl ⟨rfl, rfl⟩)
  · obtain hsame | ⟨rfl, hstart⟩ | ⟨⟨n, rfl⟩, hend⟩ := exec_phase hs hexec
    · exact .inl hsame
    · exact .inr (.inr (.inl ⟨hi, hstart⟩))
    · exact .inr (.inr (.inr ⟨⟨n, hi⟩, hend⟩))
  · exact .inl heffect.samePhase

/-- Settles O46: the four rows of the table, read for `STATE` and for `COMPLETE`. -/
theorem stateChangesOnlyByTheTable : Obligations.StateChangesOnlyByTheTable := by
  intro s t tr rest hs hin h
  rw [step_cons hin] at h
  obtain ⟨hphase, hcomplete⟩ | ⟨hreset, hidle⟩ | ⟨hstart, hnot, hnew⟩ | ⟨hproc, hrun, hdone, hnext, hcomplete⟩ :=
    transact_phase (hs.with_inbox rest) h
  · exact ⟨fun hne => absurd hphase hne, fun hc hc' => absurd (hcomplete.trans hc) (by simp [hc'])⟩
  · exact ⟨fun _ => .inl ⟨hreset, hidle⟩, fun _ _ => .inl hreset⟩
  · obtain ⟨hempty, hdone, hcomplete⟩ | ⟨hframes, hrun⟩ := hnew
    · exact ⟨fun _ => .inr (.inl ⟨hstart, hnot, hdone.trans (if_pos hempty).symm⟩),
        fun _ hc' => absurd hcomplete (by simp [hc'])⟩
    · exact ⟨fun _ => .inr (.inl ⟨hstart, hnot, hrun.trans (if_neg hframes).symm⟩), fun _ _ => .inr ⟨hstart, hrun⟩⟩
  · exact ⟨fun _ => .inr (.inr ⟨hrun, hproc, hdone, hnext⟩), fun _ hc' => absurd hcomplete (by simp [hc'])⟩

end Sys2Proof.Machine
end

section
/-! PROOFS. Stream equivalence: whatever the transport's invocations, a stream filters each channel's signal as one engine
call would (spec/41_block_scheduler.md R176, spec/40_filter_engine.md R142). -/

namespace Sys2Proof.Machine

/-! ## The signal of a channel -/

@[simp] theorem sourceBlock_length (s : State) (f0 n c : Nat) : (sourceBlock s f0 n c).length = n := by
  simp [sourceBlock]

/-- The signal up to a frame, continued from that frame on. -/
theorem sourceBlock_append (s : State) (f0 n m c : Nat) :
    sourceBlock s f0 (n + m) c = sourceBlock s f0 n c ++ sourceBlock s (f0 + n) m c := by
  simp [sourceBlock, List.range_add, Function.comp_def, Nat.add_assoc]

/-- Channel `c`'s history after `k` frames of the stream, from a zeroed one (R137, R192). -/
def streamHistory (s : State) (k c : Nat) : List Word :=
  nextHistory (tapCount s) (List.replicate s.params.hcap 0) (sourceBlock s 0 k c)

/-- Channel `c`'s first `k` output samples, from a zeroed history (R135, R192). -/
def streamOutput (s : State) (k c : Nat) : List Word :=
  convolve s.bankB (tapCount s) (List.replicate s.params.hcap 0) (sourceBlock s 0 k c)

@[simp] theorem streamOutput_length (s : State) (k c : Nat) : (streamOutput s k c).length = k := by
  simp [streamOutput]

section
variable {s : State} (htaps : historyLen (tapCount s) ≤ s.params.hcap)
include htaps

theorem streamHistory_zero (c : Nat) : streamHistory s 0 c = List.replicate s.params.hcap 0 :=
  nextHistory_nil (by simpa using htaps)

theorem streamHistory_add (k n c : Nat) :
    streamHistory s (k + n) c = nextHistory (tapCount s) (streamHistory s k c) (sourceBlock s k n c) := by
  rw [streamHistory, sourceBlock_append, nextHistory_append (by simpa using htaps), Nat.zero_add, streamHistory]

theorem streamOutput_add (k n c : Nat) :
    streamOutput s (k + n) c =
      streamOutput s k c ++ convolve s.bankB (tapCount s) (streamHistory s k c) (sourceBlock s k n c) := by
  rw [streamOutput, sourceBlock_append, convolve_append (by simpa using htaps), Nat.zero_add, streamOutput,
    streamHistory]

end

/-! ## The regions (R78, R84, R284) -/

/-- The stream's regions are backed, do not wrap onto themselves, and are the same or apart. -/
structure StreamRegions (s : State) : Prop where
  fits    : 8 * (s.totalFrame.toNat * s.numCh.toNat) ≤ 2 ^ 64
  backed  : ∀ f c, f < s.totalFrame.toNat → c < s.numCh.toNat →
              backedAt s.params (srcAddr s f c) = true ∧ backedAt s.params (dstAddr s f c) = true
  regions : s.srcBase = s.dstBase ∨ ∀ f c f' c', f < s.totalFrame.toNat → c < s.numCh.toNat →
              f' < s.totalFrame.toNat → c' < s.numCh.toNat → WordsApart (dstAddr s f c) (srcAddr s f' c')

/-- The words of the block an invocation hands over. -/
def blockAddr (s : State) (base : Word) (g c : Nat) : Word := wordAddr (baseStored base) (g * s.numCh.toNat + c)

/-- An invocation of at most `BLOCK_LEN` frames, its block backed and apart from the stream's regions. -/
structure StreamCall (s : State) (call : Word × Nat) : Prop where
  count  : call.2 ≤ s.params.blockLen
  backed : ∀ g c, g < call.2 → c < s.numCh.toNat → backedAt s.params (blockAddr s call.1 g c) = true
  apart  : ∀ g c f c', g < call.2 → c < s.numCh.toNat → f < s.totalFrame.toNat → c' < s.numCh.toNat →
             WordsApart (blockAddr s call.1 g c) (srcAddr s f c') ∧ WordsApart (blockAddr s call.1 g c) (dstAddr s f c')

section
variable {s : State} (h : StreamRegions s) {f c f' c' : Nat} (hf : f < s.totalFrame.toNat) (hf' : f' < s.totalFrame.toNat)
  (hc : c < s.numCh.toNat) (hc' : c' < s.numCh.toNat) (hne : f ≠ f')
include h hf hf' hc hc' hne

/-- Destination words of different frames are apart. -/
theorem StreamRegions.dst_apart_dst : WordsApart (dstAddr s f c) (dstAddr s f' c') := by
  have hfit : s.totalFrame.toNat * s.numCh.toNat ≤ 2 ^ 61 := by
    have := h.fits
    omega
  have hwords := frame_words_apart s.dstBase 0 hfit hf hc hf' hc'
  simp only [Nat.zero_add] at hwords
  exact hwords.resolve_left fun heq => hne heq.1

/-- A destination word is apart from the source words of other frames: the regions are one, or apart. -/
theorem StreamRegions.dst_apart_src : WordsApart (dstAddr s f c) (srcAddr s f' c') := by
  obtain hsame | hapart := h.regions
  · rw [srcAddr, hsame]
    exact h.dst_apart_dst hf hf' hc hc' hne
  · exact hapart f c f' c' hf hc hf' hc'

end

/-! ## The stream after `k` frames -/

/-- The state `t` has consumed `k` frames of the stream that began in `s`: the histories and the destination are those of one
engine call on the first `k` samples, and the source of the frames to come is as at the beginning. -/
structure StreamAt (s t : State) (k : Nat) : Prop where
  inv       : t.Inv
  params    : t.params = s.params
  same      : SameStreamParameters s t
  next      : t.nextFrame.toNat = k
  within    : k ≤ s.totalFrame.toNat
  running   : k < s.totalFrame.toNat → t.phase = .running
  done      : k = s.totalFrame.toNat → t.phase = .done
  histories : ∀ c, c < s.numCh.toNat → historyOf t.xs c = streamHistory s k c
  source    : ∀ f c, k ≤ f → f < s.totalFrame.toNat → c < s.numCh.toNat →
                Memory.readWord t.mem (srcAddr s f c) = Memory.readWord s.mem (srcAddr s f c)
  dest      : ∀ f c, f < k → c < s.numCh.toNat →
                Memory.readWord t.mem (dstAddr s f c) = entry (streamOutput s k c) f

theorem SameStreamParameters.trans {s t u : State} (hst : SameStreamParameters s t) (htu : SameStreamParameters t u) :
    SameStreamParameters s u := by
  obtain ⟨h1, h2, h3, h4, h5, h6, h7, h8, h9⟩ := hst
  obtain ⟨g1, g2, g3, g4, g5, g6, g7, g8, g9⟩ := htu
  exact ⟨g1.trans h1, g2.trans h2, g3.trans h3, g4.trans h4, g5.trans h5, g6.trans h6, g7.trans h7, g8.trans h8,
    g9.trans h9⟩

/-- The state `START` leaves has consumed no frame. -/
theorem streamAt_start {s : State} (hs : s.Inv) (hphase : s.phase = .running) (hnext : s.nextFrame = 0)
    (hxs : s.xs = zeroHistories s.params) : StreamAt s s 0 where
  inv := hs
  params := rfl
  same := ⟨rfl, rfl, rfl, rfl, rfl, rfl, rfl, rfl, rfl⟩
  next := congrArg BitVec.toNat hnext
  within := Nat.zero_le _
  running := fun _ => hphase
  done := fun h => by
    have hlt := hs.running_next hphase
    rw [hnext, ← h] at hlt
    exact absurd hlt (Nat.not_lt_zero _)
  histories := fun c hc => by
    have hmax := (hs.running_numCh hphase).2
    rw [streamHistory_zero (hs.historyLen_le_hcap (hs.running_cfg hphase)), hxs, historyOf_zero (hc.trans_le hmax)]
  source := fun _ _ _ _ _ => rfl
  dest := fun f _ hf => absurd hf (Nat.not_lt_zero f)

/-- A write of `OUT_BASE` is no part of the stream (R204). -/
theorem StreamAt.with_outBase {s t : State} {k : Nat} (h : StreamAt s t k) (base : Word) :
    StreamAt s { t with outBase := baseStored base } k :=
  { h with inv := (PortEffect.outBase base).keeps_inv h.inv }

section
variable {s t : State} {k : Nat}

theorem StreamAt.numCh_eq (h : StreamAt s t k) : t.numCh = s.numCh := by
  obtain ⟨_, _, _, _, _, hnumCh, _⟩ := h.same
  exact hnumCh

theorem StreamAt.totalFrame_eq (h : StreamAt s t k) : t.totalFrame = s.totalFrame := by
  obtain ⟨_, _, _, _, _, _, htotal, _⟩ := h.same
  exact htotal

theorem StreamAt.srcAddr_eq (h : StreamAt s t k) (f c : Nat) : srcAddr t f c = srcAddr s f c := by
  obtain ⟨_, _, _, _, _, hnumCh, _, hsrc, _⟩ := h.same
  rw [srcAddr, srcAddr, hnumCh, hsrc]

theorem StreamAt.dstAddr_eq (h : StreamAt s t k) (f c : Nat) : dstAddr t f c = dstAddr s f c := by
  obtain ⟨_, _, _, _, _, hnumCh, _, _, hdst⟩ := h.same
  rw [dstAddr, dstAddr, hnumCh, hdst]

theorem StreamAt.outAddr_eq (h : StreamAt s t k) {base : Word} (hout : t.outBase = baseStored base) (g c : Nat) :
    outAddr t g c = blockAddr s base g c := by
  rw [outAddr, blockAddr, h.numCh_eq, hout]

/-- The frames to come are read as they were at the beginning. -/
theorem StreamAt.sourceBlock_eq (h : StreamAt s t k) {n c : Nat} (hn : k + n ≤ s.totalFrame.toNat)
    (hc : c < s.numCh.toNat) : sourceBlock t t.nextFrame.toNat n c = sourceBlock s k n c := by
  refine List.map_congr_left fun f hf => ?_
  have hf : f < n := List.mem_range.1 hf
  rw [h.next, h.srcAddr_eq]
  exact h.source (k + f) c (Nat.le_add_right k f) (by omega) hc

theorem StreamAt.tapCount_eq (h : StreamAt s t k) : tapCount t = tapCount s := by
  obtain ⟨_, _, hnumB, _⟩ := h.same
  rw [tapCount, tapCount, hnumB]

/-- The engine's output for the next frames continues the stream's output. -/
theorem StreamAt.outputBlock_eq (h : StreamAt s t k) {n c : Nat} (hn : k + n ≤ s.totalFrame.toNat)
    (hc : c < s.numCh.toNat) :
    outputBlock t n c = convolve s.bankB (tapCount s) (streamHistory s k c) (sourceBlock s k n c) := by
  obtain ⟨hB, _⟩ := h.same
  rw [outputBlock, hB, h.tapCount_eq, h.histories c hc, h.sourceBlock_eq hn hc]

/-- `PROC` takes as many of the frames left as it is asked for (R163). -/
theorem StreamAt.effectiveLen_eq (h : StreamAt s t k) (nReq : Nat) :
    effectiveLen t nReq = min nReq (s.totalFrame.toNat - k) := by
  rw [effectiveLen, h.totalFrame_eq, h.next]

end

/-! ## One invocation -/

section
variable {s t : State} {k : Nat} {call : Word × Nat}

theorem StreamAt.procReady (h : StreamAt s t k) (hregions : StreamRegions s) (hcall : StreamCall s call)
    (hout : t.outBase = baseStored call.1) (hk : k < s.totalFrame.toNat) : ProcReady t call.2 where
  running := h.running hk
  count := h.params ▸ hcall.count
  source := fun f c hf hc => by
    rw [h.effectiveLen_eq] at hf
    rw [h.numCh_eq] at hc
    rw [h.params, h.next, h.srcAddr_eq]
    exact (hregions.backed (k + f) c (by omega) hc).1
  dest := fun f c hf hc => by
    rw [h.effectiveLen_eq] at hf
    rw [h.numCh_eq] at hc
    rw [h.params, h.next, h.dstAddr_eq]
    exact (hregions.backed (k + f) c (by omega) hc).2
  out := fun g c hg hc => by
    rw [h.numCh_eq] at hc
    rw [h.params, h.outAddr_eq hout]
    exact hcall.backed g c hg hc

/-- The source of the frames after those taken is not written: it is apart from their destination and from the block. -/
theorem StreamAt.source_after (h : StreamAt s t k) (hregions : StreamRegions s) (hcall : StreamCall s call)
    (hout : t.outBase = baseStored call.1) {n f c : Nat} (hf : k + n ≤ f) (htotal : f < s.totalFrame.toNat)
    (hc : c < s.numCh.toNat) :
    Memory.readWord (Memory.writeWords t.mem (procWrites t call.2 n)) (srcAddr s f c) =
      Memory.readWord s.mem (srcAddr s f c) := by
  rw [readWord_procWrites_apart h.inv (fun f' c' hf' hc' => ?_) fun g c' hg hc' => ?_]
  · exact h.source f c (by omega) htotal hc
  · rw [h.next, h.dstAddr_eq]
    exact hregions.dst_apart_src (by omega) htotal (h.numCh_eq ▸ hc') hc (by omega)
  · rw [h.outAddr_eq hout]
    exact (hcall.apart g c' f c hg (h.numCh_eq ▸ hc') htotal hc).1

/-- The destination after the next `n` frames: the frames before are not written again, the new ones hold the engine's
output, which continues the stream's. -/
theorem StreamAt.dest_after (h : StreamAt s t k) (htaps : historyLen (tapCount s) ≤ s.params.hcap)
    (hregions : StreamRegions s) (hcall : StreamCall s call) (hout : t.outBase = baseStored call.1) {n f c : Nat}
    (hfit : n * t.numCh.toNat ≤ 2 ^ 61) (hn : k + n ≤ s.totalFrame.toNat) (hf : f < k + n) (hc : c < s.numCh.toNat) :
    Memory.readWord (Memory.writeWords t.mem (procWrites t call.2 n)) (dstAddr s f c) =
      entry (streamOutput s (k + n) c) f := by
  have hapart : ∀ g c', g < call.2 → c' < t.numCh.toNat → WordsApart (outAddr t g c') (dstAddr s f c) := by
    intro g c' hg hc'
    rw [h.outAddr_eq hout]
    exact (hcall.apart g c' f c hg (h.numCh_eq ▸ hc') (by omega) hc).2
  rw [streamOutput_add htaps]
  by_cases hold : f < k
  · rw [entry_append_left (by simpa using hold), ← h.dest f c hold hc]
    refine readWord_procWrites_apart h.inv (fun f' c' hf' hc' => ?_) hapart
    rw [h.next, h.dstAddr_eq]
    exact hregions.dst_apart_dst (by omega) (by omega) (h.numCh_eq ▸ hc') hc (by omega)
  · have haddr : dstAddr s f c = dstAddr t (t.nextFrame.toNat + (f - k)) c := by
      rw [h.next, h.dstAddr_eq, Nat.add_sub_of_le (Nat.not_lt.1 hold)]
    rw [haddr] at hapart ⊢
    rw [entry_append_right (by simpa using hold), streamOutput_length, ← h.outputBlock_eq hn hc]
    exact readWord_procWrites_dst h.inv hfit (by omega) (h.numCh_eq ▸ hc) hapart

/-- An invocation while the stream runs consumes its frames (R160). -/
theorem StreamAt.proc_running (h : StreamAt s t k) (htaps : historyLen (tapCount s) ≤ s.params.hcap)
    (hregions : StreamRegions s) (hcall : StreamCall s call) (hout : t.outBase = baseStored call.1)
    (hk : k < s.totalFrame.toNat) :
    ∃ u, exec (.proc call.2) t = .next u ∧ StreamAt s u (min (k + call.2) s.totalFrame.toNat) := by
  have hready := h.procReady hregions hcall hout hk
  have hexec := exec_proc_advance hready
  have hlen : k + effectiveLen t call.2 = min (k + call.2) s.totalFrame.toNat := by
    rw [h.effectiveLen_eq]
    omega
  have hn : k + effectiveLen t call.2 ≤ s.totalFrame.toNat := hlen ▸ Nat.min_le_right _ _
  obtain ⟨hnext, -⟩ := advance_within (s := procWork t call.2) (hready.within h.inv)
  have hadvance := advance_running (s := procWork t call.2) (hready.within h.inv) hready.running
    (h.inv.running_incomplete hready.running)
  have hphase : (advance (effectiveLen t call.2) (procWork t call.2)).phase =
      if k + effectiveLen t call.2 = s.totalFrame.toNat then .done else .running := by
    rw [hadvance, ← h.next, ← h.totalFrame_eq]
    rfl
  rw [← hlen]
  refine ⟨_, hexec, ?_⟩
  exact
    { inv := exec_keeps_inv h.inv hexec
      params := (exec_params_eq hexec).trans h.params
      same := h.same.trans (exec_frozen hexec hready.running)
      next := by rw [advance_nextFrame, hnext]; exact congrArg (· + _) h.next
      within := hn
      running := fun hlt => hphase.trans (if_neg hlt.ne)
      done := fun heq => hphase.trans (if_pos heq)
      histories := fun c hc => by
        have hct : c < t.xs.length := by
          have hmax := (h.inv.running_numCh hready.running).2
          rw [h.inv.xs_length]
          exact (h.numCh_eq ▸ hc : c < t.numCh.toNat).trans_le hmax
        rw [advance_xs, streamHistory_add htaps, ← h.sourceBlock_eq hn hc, ← h.histories c hc, ← h.tapCount_eq]
        exact historiesAfter_procCalls _ _ (h.numCh_eq ▸ hc) hct
      source := fun f c hf htotal hc => by
        rw [advance_mem, procWork_mem]
        exact h.source_after hregions hcall hout hf htotal hc
      dest := fun f c hf hc => by
        rw [advance_mem, procWork_mem]
        exact h.dest_after htaps hregions hcall hout (hready.words_fit h.inv (effectiveLen_le t _)) hn hf hc }

/-- An invocation after the stream's end writes silence to its block, and the destination stays (R170). -/
theorem StreamAt.proc_done (h : StreamAt s t s.totalFrame.toNat) (hcall : StreamCall s call)
    (hout : t.outBase = baseStored call.1) :
    ∃ u, exec (.proc call.2) t = .next u ∧ StreamAt s u s.totalFrame.toNat := by
  have hready : SilenceReady t call.2 :=
    { not_running := by rw [h.done rfl]; decide
      count := h.params ▸ hcall.count
      out := fun g c hg hc => by
        rw [h.numCh_eq] at hc
        rw [h.params, h.outAddr_eq hout]
        exact hcall.backed g c hg hc }
  refine ⟨_, exec_proc_silent hready, ?_⟩
  exact
    { h with
      inv := h.inv.with_memory (writeWords_wf h.inv.mem_wf _) _
      source := fun f c hf htotal => absurd htotal (Nat.not_lt.2 hf)
      dest := fun f c hf hc => by
        rw [← h.dest f c hf hc]
        refine readWord_writeWords_apart h.inv.mem_wf _ fun w hw => ?_
        obtain ⟨g, c', hg, hc', rfl⟩ := mem_silenceWrites.1 hw
        rw [h.outAddr_eq hout]
        exact (hcall.apart g c' f c hg (h.numCh_eq ▸ hc') hf hc).2 }

/-- One invocation, whatever the stream's state. -/
theorem StreamAt.proc (h : StreamAt s t k) (htaps : historyLen (tapCount s) ≤ s.params.hcap) (hregions : StreamRegions s)
    (hcall : StreamCall s call) (hout : t.outBase = baseStored call.1) :
    ∃ u, exec (.proc call.2) t = .next u ∧ StreamAt s u (min (k + call.2) s.totalFrame.toNat) := by
  obtain hlt | rfl := h.within.lt_or_eq
  · exact h.proc_running htaps hregions hcall hout hlt
  · rw [Nat.min_eq_right (Nat.le_add_right _ _)]
    exact h.proc_done hcall hout

/-- All invocations: by then the stream has consumed their frames, or all it has. -/
theorem StreamAt.playBlocks {calls : List (Word × Nat)} (h : StreamAt s t k)
    (htaps : historyLen (tapCount s) ≤ s.params.hcap) (hregions : StreamRegions s)
    (hcalls : ∀ call ∈ calls, StreamCall s call) :
    ∃ u, playBlocks calls t = .next u ∧
      StreamAt s u (min (k + (calls.map Prod.snd).sum) s.totalFrame.toNat) := by
  induction calls generalizing t k with
  | nil => exact ⟨t, rfl, by simpa [Nat.min_eq_left h.within] using h⟩
  | cons call calls ih =>
    obtain ⟨u, hexec, hu⟩ := (h.with_outBase call.1).proc htaps hregions (hcalls call List.mem_cons_self) rfl
    obtain ⟨v, hplay, hv⟩ := ih hu fun call' hmem => hcalls call' (List.mem_cons_of_mem _ hmem)
    refine ⟨v, ?_, ?_⟩
    · rw [Machine.playBlocks, hexec]
      exact hplay
    · have hsum : min (min (k + call.2) s.totalFrame.toNat + (calls.map Prod.snd).sum) s.totalFrame.toNat =
          min (k + ((call :: calls).map Prod.snd).sum) s.totalFrame.toNat := by
        rw [List.map_cons, List.sum_cons]
        omega
      rwa [hsum] at hv

end

/-- Settles O31: the invariant `StreamAt` through the invocations, which together consume the whole stream. -/
theorem streamEqualsOneEngineCall : Obligations.StreamEqualsOneEngineCall := by
  intro s calls hs hphase hnext hxs ch total out hfits hbacked hblocks hregions hapart hsum
  have hcalls : ∀ call ∈ calls, StreamCall s call := fun call hmem =>
    { count := (hblocks call hmem).1
      backed := (hblocks call hmem).2
      apart := hapart call hmem }
  obtain ⟨t, hplay, ht⟩ := (streamAt_start hs hphase hnext hxs).playBlocks
    (hs.historyLen_le_hcap (hs.running_cfg hphase)) ⟨hfits, hbacked, hregions⟩ hcalls
  rw [Nat.zero_add, Nat.min_eq_right hsum] at ht
  exact ⟨t, hplay, ht.done rfl, ht.inv.complete_iff.2 (ht.done rfl), ht.dest⟩

end Sys2Proof.Machine
end

section
/-! PROOFS. `LOAD` and `START`: what each answers in every state (spec/42_config_control.md R190 to R192). -/

namespace Sys2Proof.Machine

theorem exec_load (s : State) : exec .load s = execLoad s := rfl

theorem exec_start (s : State) : exec .start s = execStart s := rfl

/-! ## `LOAD` (R191) -/

theorem execLoad_running {s : State} (hphase : s.phase = .running) : execLoad s = .next (s.raise .reject) :=
  if_pos hphase

theorem execLoad_in_range {s : State} (hphase : s.phase ≠ .running)
    (h : countInRange s.params s.numB ∧ countInRange s.params s.numA) : execLoad s = .next { s with cfg := .ok } := by
  rw [execLoad, if_neg hphase, if_pos (by simpa [countOk_eq_true_iff] using h)]

theorem execLoad_out_of_range {s : State} (hphase : s.phase ≠ .running)
    (h : ¬ (countInRange s.params s.numB ∧ countInRange s.params s.numA)) :
    execLoad s = .next (s.raise .configurationError) := by
  rw [execLoad, if_neg hphase, if_neg (by simpa [countOk_eq_true_iff] using h)]

/-- Settles O13: Reject in RUNNING, and outside a stream the two answers to the test of the counts. -/
theorem loadChecksTheCountsAndCommits : Obligations.LoadChecksTheCountsAndCommits := by
  intro s
  rw [exec_load]
  refine ⟨execLoad_running, execLoad_in_range, fun hphase hout => execLoad_out_of_range hphase ?_⟩
  rintro ⟨⟨hB0, hBmax⟩, hA0, hAmax⟩
  omega

/-- No legal `MAX_COEF` reaches the words that are negative as signed numbers, so the signed test is the unsigned one
(R7, V34). -/
theorem countInRange_iff_toNat_le {p : Params} (hp : p.Legal) {n : Word} : countInRange p n ↔ n.toNat ≤ p.maxCoef := by
  refine ⟨toNat_le_of_countInRange, fun h => ?_⟩
  obtain ⟨⟨-, hmax⟩, -⟩ := hp
  have hsigned : n.toInt = n.toNat := BitVec.toInt_eq_toNat_of_lt (by omega)
  rw [countInRange, hsigned]
  omega

/-- `LOAD` outside a stream leaves `CFG` = OK exactly when both counts are in range (R191). -/
theorem execLoad_cfg_ok_iff {s : State} (hphase : s.phase ≠ .running) :
    (∃ t, execLoad s = .next t ∧ t.cfg = .ok) ↔ countInRange s.params s.numB ∧ countInRange s.params s.numA := by
  by_cases h : countInRange s.params s.numB ∧ countInRange s.params s.numA
  · exact iff_of_true ⟨_, execLoad_in_range hphase h, rfl⟩ h
  · simp [execLoad_out_of_range hphase h, h]

/-- Settles O14: the test of `LOAD`, each count read as unsigned. -/
theorem loadAcceptsExactlyZeroToMaxCoef : Obligations.LoadAcceptsExactlyZeroToMaxCoef := by
  intro s hp hphase
  rw [exec_load, execLoad_cfg_ok_iff hphase, countInRange_iff_toNat_le hp, countInRange_iff_toNat_le hp]

/-! ## `START` (R192) -/

theorem startRejected_eq_true_iff {s : State} :
    startRejected s = true ↔ s.phase = .running ∨ s.cfg ≠ .ok ∨ s.numCh = 0 ∨ s.params.maxCh < s.numCh.toNat := by
  simp [startRejected, or_assoc]

theorem execStart_rejected {s : State} (h : startRejected s = true) : execStart s = .next (s.raise .reject) :=
  if_pos h

theorem execStart_empty {s : State} (hrej : startRejected s = false) (htotal : s.totalFrame = 0) :
    execStart s = .next s.clearStream.finishStream := by
  rw [execStart, hrej, if_neg Bool.false_ne_true, if_pos htotal]

theorem execStart_runs {s : State} (hrej : startRejected s = false) (htotal : s.totalFrame ≠ 0) :
    execStart s = .next { s.clearStream with phase := .running } := by
  rw [execStart, hrej, if_neg Bool.false_ne_true, if_neg htotal]

/-- Settles O15: the Reject tests, and the length of an accepted stream. -/
theorem startBeginsAStream : Obligations.StartBeginsAStream := by
  intro s
  rw [exec_start]
  refine ⟨fun hrej => execStart_rejected (startRejected_eq_true_iff.2 hrej), fun hphase hcfg hzero hmax => ?_⟩
  have hrej : startRejected s = false := startRejected_eq_false_iff.2 ⟨hphase, hcfg, hzero, hmax⟩
  exact ⟨execStart_runs hrej, execStart_empty hrej⟩

end Sys2Proof.Machine
end

section
/-! PROOFS. The register port and the supervisor's: what a read returns, and what a write of each register does
(spec/42_config_control.md R200 to R205, R207). -/

namespace Sys2Proof.Machine

theorem step_hostWrite {s : State} {idx : BitVec 5} {v : Word} {rest : List Transaction}
    (h : s.inbox = .hostWrite idx v :: rest) : step s = writeReg (Reg.ofIndex idx) v { s with inbox := rest } :=
  step_cons h

/-- Indices 16 to 31 are reserved (R32). -/
theorem ofIndex_reserved {idx : BitVec 5} (h : 16 ≤ idx.toNat) : Reg.ofIndex idx = .reserved := by
  revert idx
  decide

/-! ## Reads (R200, R207) -/

/-- Settles O33: the answer holds the register the index names, read before it is recorded. -/
theorem registerReadHasNoSideEffect : Obligations.RegisterReadHasNoSideEffect := by
  intro s idx rest hin
  refine ⟨readReg s (Reg.ofIndex idx), step_cons hin, ?_⟩
  have hreserved : 16 ≤ idx.toNat → readReg s (Reg.ofIndex idx) = 0 := fun h => by rw [ofIndex_reserved h, readReg]
  refine ⟨?_, ?_, ?_, ?_, ?_, ?_, ?_, ?_, ?_, ?_, ?_, ?_, ?_, ?_, ?_, ?_, hreserved⟩
  all_goals
    rintro rfl
    rfl

/-- Settles O42: the supervisor's read is one answer. -/
theorem supervisorReadsStatus : Obligations.SupervisorReadsStatus :=
  fun _ _ hin => step_cons hin

/-! ## `ERR` (R202) -/

/-- A flag with its bit of `v` cleared by ones, that bit read off the number `v`. -/
theorem clearedBit_eq (flag : Bool) (v : Word) (i : Nat) :
    (flag && !v.getLsbD i) = if v.toNat / 2 ^ i % 2 = 1 then false else flag := by
  rw [BitVec.getLsbD, Nat.testBit_eq_decide_div_mod_eq]
  split <;> simp [*]

theorem clearErr_eq (s : State) (v : Word) :
    s.clearErr v = { s with
      errIllCmd := if v.toNat % 2 = 1 then false else s.errIllCmd
      errReject := if v.toNat / 2 % 2 = 1 then false else s.errReject } := by
  rw [State.clearErr, clearedBit_eq, clearedBit_eq, pow_zero, Nat.div_one, pow_one]

/-- Settles O36: index 2 is `ERR`. -/
theorem writeOfErrClearsByOnes : Obligations.WriteOfErrClearsByOnes := by
  intro s v rest hin
  rw [step_hostWrite hin]
  exact congrArg Host.Outcome.next (clearErr_eq _ v)

/-! ## The frozen and the unfrozen registers (R203, R204) -/

/-- A base register drops bits 2:0 of what is written (R41). -/
theorem baseStored_eq_shift (v : Word) : baseStored v = (v >>> 3) <<< 3 := by
  rw [BitVec.shiftLeft_ushiftRight]
  rfl

theorem writeFrozen_running {write : State → State} {s : State} (h : s.phase = .running) :
    writeFrozen write s = s.raise .reject :=
  if_pos h

theorem writeFrozen_stores {write : State → State} {s : State} (h : s.phase ≠ .running) :
    writeFrozen write s = write s :=
  if_neg h

/-- Settles O37: each of the six is a `writeFrozen`, by its index. -/
theorem frozenRegisterWrites : Obligations.FrozenRegisterWrites := by
  intro s idx v rest hin
  rw [step_hostWrite hin, ← baseStored_eq_shift]
  refine ⟨fun hrun hidx => ?_, fun hphase => ⟨?_, ?_, ?_, ?_, ?_, ?_⟩⟩
  · have hreject (write : State → State) :
        writeFrozen write { s with inbox := rest } = { s with inbox := rest, errReject := true } :=
      writeFrozen_running hrun
    simp only [List.mem_cons, List.not_mem_nil, or_false] at hidx
    obtain rfl | rfl | rfl | rfl | rfl | rfl := hidx <;> exact congrArg Host.Outcome.next (hreject _)
  all_goals
    rintro rfl
    exact congrArg Host.Outcome.next (writeFrozen_stores hphase)

/-- Settles O38: none of the four is a `writeFrozen`. -/
theorem unfrozenRegisterWrites : Obligations.UnfrozenRegisterWrites := by
  intro s idx v rest hin
  rw [step_hostWrite hin, ← baseStored_eq_shift]
  refine ⟨?_, ?_, ?_, ?_⟩
  all_goals
    rintro rfl
    rfl

/-! ## The ignored writes (R205) -/

/-- Settles O39: by the register each of the indices names. -/
theorem readOnlyAndReservedWritesAreIgnored : Obligations.ReadOnlyAndReservedWritesAreIgnored := by
  intro s idx v rest hin hidx
  rw [step_hostWrite hin]
  obtain rfl | rfl | rfl | hreserved := hidx
  · rfl
  · rfl
  · rfl
  · rw [ofIndex_reserved hreserved]
    rfl

end Sys2Proof.Machine
end

section
/-! PROOFS. A write through the `DATA` window (spec/42_config_control.md R206). -/

namespace Sys2Proof.Machine

/-- Only the written word of a bank changes. -/
theorem entry_setEntry {ws : List Word} {i : Nat} (v : Word) (h : i < ws.length) (k : Nat) :
    entry (setEntry ws i v) k = if k = i then v else entry ws k := by
  split
  · rename_i heq
    rw [heq, entry_setEntry_same v h]
  · rename_i hne
    simp [entry, setEntry, List.getElem?_set_ne (Ne.symm hne)]

theorem writeData_rejected {s : State} (v : Word)
    (h : 2 ≤ selBank s ∨ s.phase = .running ∨ s.params.maxCoef ≤ selIdx s) : writeData v s = s.raise .reject :=
  if_pos h

/-- Settles O41: the rules of the window, the fields of `SEL` as numbers. -/
theorem dataWindowWrites : Obligations.DataWindowWrites := by
  intro s v rest hin
  simp only [← selBank_eq, ← selIdx_eq, step_writeData hin]
  refine ⟨fun hrej => congrArg Host.Outcome.next (writeData_rejected v hrej),
    fun hphase hidx hB hA => ⟨fun hbank => ?_, fun hbank => ?_⟩⟩
  · exact ⟨setEntry s.bankB (selIdx s) v, congrArg Host.Outcome.next (writeData_bankB v hbank hphase hidx),
      List.length_set, entry_setEntry v (hidx.trans_eq hB.symm)⟩
  · exact ⟨setEntry s.bankA (selIdx s) v, congrArg Host.Outcome.next (writeData_bankA v hbank hphase hidx),
      List.length_set, entry_setEntry v (hidx.trans_eq hA.symm)⟩

end Sys2Proof.Machine
end

section
/-! PROOFS. The step that waits, and error events: one event at most in a transaction, and with it no other change
(spec/60_exceptions.md R220, R223 to R225, R246). -/

namespace Sys2Proof.Machine

/-- Settles O8: an empty inbox leaves nothing to take. -/
theorem coreWaitsWithoutRequests : Obligations.CoreWaitsWithoutRequests :=
  fun _ hin => step_nil hin

/-! ## Error events (R220) -/

/-- Every error recorded in `t` is recorded in `s`. -/
def NoNewError (s t : State) : Prop :=
  (t.errIllCmd = true → s.errIllCmd = true) ∧ (t.errReject = true → s.errReject = true) ∧
    (t.cfg = .err → s.cfg = .err)

/-- Of the effects of the ports, the two events raised apart, none records an error (R202, R203, R206). -/
theorem PortEffect.raise_or_noNewError {s t : State} (h : PortEffect s t) :
    (∃ e, t = s.raise e) ∨ NoNewError s t := by
  cases h with
  | illCmd => exact .inl ⟨.illCmd, rfl⟩
  | rejected => exact .inl ⟨.reject, rfl⟩
  | cleared v => exact .inr ⟨Bool.and_elim_left, Bool.and_elim_left, id⟩
  | numB | numA | bankB | bankA => exact .inr ⟨id, id, fun hcfg => nomatch hcfg⟩
  | _ => exact .inr ⟨id, id, id⟩

/-- `LOAD`, `START` and `FILT` raise one event or record no error, and `PROC` records none (R223, R224). -/
theorem exec_raise_or_noNewError {i : Instr} {s t : State} (h : exec i s = .next t) :
    (∃ e, t = s.raise e) ∨ NoNewError s t := by
  cases i with
  | load =>
    obtain rfl | ⟨_, rfl⟩ | ⟨_, _, _, rfl⟩ := execLoad_next h
    · exact .inl ⟨.reject, rfl⟩
    · exact .inl ⟨.configurationError, rfl⟩
    · exact .inr ⟨id, id, fun hcfg => nomatch hcfg⟩
  | start =>
    obtain rfl | ⟨_, _, rfl⟩ | ⟨_, _, rfl⟩ := execStart_next h
    · exact .inl ⟨.reject, rfl⟩
    · exact .inr ⟨id, id, id⟩
    · exact .inr ⟨id, id, id⟩
  | proc nReq =>
    obtain ⟨_, rfl⟩ | ⟨_, ws, rfl⟩ := execProc_next h
    · exact .inr (by simp [NoNewError])
    · exact .inr ⟨id, id, id⟩
  | filt c n =>
    obtain rfl | ⟨_, rfl⟩ := execFilt_next h
    · exact .inl ⟨.reject, rfl⟩
    · exact .inr ⟨id, id, id⟩

/-- A transaction raises one event and does nothing else, or records no error (R220, R225). -/
theorem transact_raise_or_noNewError {tr : Transaction} {s t : State} (h : transact tr s = .next t) :
    (∃ e, t = s.raise e) ∨ NoNewError s t := by
  obtain ⟨_, rfl⟩ | ⟨i, _, hexec⟩ | heffect := transact_next h
  · exact .inr (by simp [NoNewError])
  · exact exec_raise_or_noNewError hexec
  · exact heffect.raise_or_noNewError

/-- Settles O44: a step that waits or takes a transaction without an event records no error, and each event records
its own only. -/
theorem errorEventsArePrecise : Obligations.ErrorEventsArePrecise := by
  intro s t h
  have hstep : (∃ e, t = State.raise { s with inbox := s.inbox.tail } e) ∨ NoNewError s t := by
    cases hin : s.inbox with
    | nil =>
      rw [step_nil hin] at h
      cases h
      exact .inr ⟨id, id, id⟩
    | cons tr rest =>
      rw [step_cons hin] at h
      exact transact_raise_or_noNewError h
  obtain ⟨e, rfl⟩ | ⟨hill, hrej, hcfg⟩ := hstep
  · cases e <;> simp +contextual [State.raise]
  · exact ⟨fun hs ht => absurd (hs.symm.trans (hill ht)) Bool.false_ne_true,
      fun hs ht => absurd (hs.symm.trans (hrej ht)) Bool.false_ne_true, fun hs ht => absurd (hcfg ht) hs⟩

end Sys2Proof.Machine
end

section
/-! PROOFS. The completion event: once and last in the step that ends a stream, and in no other (spec/60_exceptions.md R230,
spec/41_block_scheduler.md R169, spec/42_config_control.md R192). -/

namespace Sys2Proof.Machine

/-- `EVT_DONE` is no memory access. -/
theorem evtDone_not_mem_accesses (m : Memory) (as : List Word) (ws : List (Word × Word)) :
    Event.evtDone ∉ readEvents m as ++ writeEvents ws := by
  simp [readEvents, writeEvents]

/-- From `s` to `t` the trace grows by events other than `EVT_DONE`, and by one `EVT_DONE` after them, with `COMPLETE` set,
exactly when `ends` holds. -/
def CompletesExactlyIf (ends : Prop) (s t : State) : Prop :=
  ∃ ev : List Event, Event.evtDone ∉ ev ∧
    (ends → t.trace = s.trace ++ ev ++ [.evtDone] ∧ t.complete = true) ∧ (¬ ends → t.trace = s.trace ++ ev)

theorem CompletesExactlyIf.congr {p q : Prop} {s t : State} (h : CompletesExactlyIf p s t) (hpq : p ↔ q) :
    CompletesExactlyIf q s t :=
  propext hpq ▸ h

theorem completesExactlyIf_of_trace_eq {ends : Prop} {s t : State} (hno : ¬ ends) (htrace : t.trace = s.trace) :
    CompletesExactlyIf ends s t :=
  ⟨[], List.not_mem_nil, fun hends => absurd hends hno, fun _ => htrace.trans (List.append_nil _).symm⟩

/-- A running stream is consumed by this transaction (R169). -/
def EndsRunning (s t : State) : Prop := s.phase = .running ∧ t.phase = .done

theorem SamePhase.not_endsRunning {s t : State} (h : SamePhase s t) : ¬ EndsRunning s t := by
  rintro ⟨hrun, hdone⟩
  exact absurd (hrun.symm.trans (h.1.symm.trans hdone)) (by decide)

/-- No effect of the ports produces an event (R49). -/
theorem PortEffect.trace_eq {s t : State} (h : PortEffect s t) : t.trace = s.trace := by
  cases h <;> rfl

/-- `START` completes an empty stream that it accepts, and nothing else (R192). -/
theorem execStart_completes {s t : State} (h : execStart s = .next t) :
    CompletesExactlyIf (startRejected s = false ∧ s.totalFrame = 0) s t := by
  cases hrej : startRejected s with
  | true =>
    rw [execStart_rejected hrej] at h
    cases h
    exact completesExactlyIf_of_trace_eq (fun hempty => nomatch hempty.1) rfl
  | false =>
    by_cases htotal : s.totalFrame = 0
    · rw [execStart_empty hrej htotal] at h
      cases h
      exact ⟨[], List.not_mem_nil, fun _ => ⟨by simp, rfl⟩, fun hno => absurd ⟨rfl, htotal⟩ hno⟩
    · rw [execStart_runs hrej htotal] at h
      cases h
      exact completesExactlyIf_of_trace_eq (fun hempty => htotal hempty.2) rfl

/-- `PROC` completes the running stream whose last frame it takes (R169). -/
theorem execProc_completes {s t : State} {nReq : Nat} (hs : s.Inv) (h : execProc nReq s = .next t) :
    CompletesExactlyIf (EndsRunning s t) s t := by
  obtain ⟨hready, rfl⟩ | ⟨hphase, ws, rfl⟩ := execProc_next h
  · have hev := evtDone_not_mem_accesses s.mem (procReads s (effectiveLen s nReq))
      (procWrites s nReq (effectiveLen s nReq))
    change CompletesExactlyIf (EndsRunning s (advance _ (procWork s nReq))) s (advance _ (procWork s nReq))
    rw [(advance_within (s := procWork s nReq) (hready.within hs)).2]
    split
    · refine ⟨_, hev, fun _ => ⟨?_, rfl⟩, fun hno => absurd ⟨hready.running, rfl⟩ hno⟩
      exact congrArg (· ++ [Event.evtDone]) (List.append_assoc _ _ _)
    · exact ⟨_, hev, fun hends => absurd (hready.running.symm.trans hends.2) (by decide),
        fun _ => List.append_assoc _ _ _⟩
  · exact ⟨writeEvents ws, evtDone_not_mem_accesses s.mem [] ws, fun hends => absurd hends.1 hphase, fun _ => rfl⟩

/-- Of the commands other than `START`, `PROC` alone completes a stream (R169, R230). -/
theorem exec_completes {i : Instr} {s t : State} (hs : s.Inv) (hstart : i ≠ .start) (h : exec i s = .next t) :
    CompletesExactlyIf (EndsRunning s t) s t := by
  cases i with
  | start => exact absurd rfl hstart
  | load =>
    have hsame : SamePhase s t ∧ t.trace = s.trace := by
      obtain rfl | ⟨_, rfl⟩ | ⟨_, _, _, rfl⟩ := execLoad_next h <;> exact ⟨⟨rfl, rfl⟩, rfl⟩
    exact completesExactlyIf_of_trace_eq hsame.1.not_endsRunning hsame.2
  | proc nReq => exact execProc_completes hs h
  | filt c n =>
    obtain rfl | ⟨hready, rfl⟩ := execFilt_next h
    · exact completesExactlyIf_of_trace_eq (raise_samePhase s _).not_endsRunning rfl
    · exact ⟨_, evtDone_not_mem_accesses _ _ _, fun hends => absurd hends.1 hready.not_running,
        fun _ => List.append_assoc _ _ _⟩

/-- Every transaction but `START` completes exactly the running stream it ends. -/
theorem transact_completes {tr : Transaction} {s t : State} (hs : s.Inv) (hstart : ¬ isCommand tr .start)
    (h : transact tr s = .next t) : CompletesExactlyIf (EndsRunning s t) s t := by
  obtain ⟨_, rfl⟩ | ⟨i, hi, hexec⟩ | heffect := transact_next h
  · exact completesExactlyIf_of_trace_eq (fun hends => nomatch hends.2) rfl
  · exact exec_completes hs (fun heq => hstart (heq ▸ hi)) hexec
  · exact completesExactlyIf_of_trace_eq heffect.samePhase.not_endsRunning heffect.trace_eq

/-- `START` never ends a running stream: it is rejected there (R192). -/
theorem execStart_not_endsRunning {s t : State} (h : execStart s = .next t) : ¬ EndsRunning s t := by
  obtain hsame | ⟨hnot, _⟩ := execStart_phase h
  · exact hsame.not_endsRunning
  · exact fun hends => hnot hends.1

theorem transact_isCommand {tr : Transaction} {i : Instr} (h : isCommand tr i) (s : State) :
    transact tr s = exec i s := by
  obtain ⟨w, rfl, hdec⟩ := h
  rw [transact_command, writeCmd_ok hdec]

/-- Settles O47: `START` and the other transactions apart, each with its one way to end a stream. -/
theorem completionEventOnceAtTheEnd : Obligations.CompletionEventOnceAtTheEnd := by
  intro s t tr rest hs hin h ends
  rw [step_cons hin] at h
  change CompletesExactlyIf ends { s with inbox := rest } t
  by_cases hstart : isCommand tr .start
  · rw [transact_isCommand hstart, exec_start] at h
    refine (execStart_completes h).congr ⟨fun hempty => .inr ⟨hstart, hempty⟩, ?_⟩
    rintro (hends | ⟨-, hempty⟩)
    · exact absurd hends (execStart_not_endsRunning h :)
    · exact hempty
  · refine (transact_completes (hs.with_inbox rest) hstart h).congr ⟨.inl, ?_⟩
    rintro (hends | ⟨hstart', -⟩)
    · exact hends
    · exact absurd hstart' hstart

end Sys2Proof.Machine
end

section
/-! PROOFS. The reset input (spec/70_reset_and_hazards.md R260), and the memory accesses of `PROC` and `FILT` counted
(R290). -/

namespace Sys2Proof.Machine

/-! ## Reset (R260, R51) -/

theorem transact_reset (s : State) : transact .reset s = .next s.resetCore := rfl

/-- Settles O10: the reset input is taken like any request, and it resets the CORE. -/
theorem resetInputRestoresResetState : Obligations.ResetInputRestoresResetState := by
  intro s rest hin
  rw [step_cons hin, transact_reset]
  rfl

/-! ## Reads and writes among the events -/

@[simp] theorem countP_isRead_readEvents (m : Memory) (as : List Word) : (readEvents m as).countP isRead = as.length := by
  induction as with
  | nil => rfl
  | cons a as ih => exact (List.countP_cons_of_pos rfl).trans (congrArg (· + 1) ih)

@[simp] theorem countP_isWrite_writeEvents (ws : List (Word × Word)) : (writeEvents ws).countP isWrite = ws.length := by
  induction ws with
  | nil => rfl
  | cons w ws ih => exact (List.countP_cons_of_pos rfl).trans (congrArg (· + 1) ih)

@[simp] theorem countP_isWrite_readEvents (m : Memory) (as : List Word) : (readEvents m as).countP isWrite = 0 := by
  simp [readEvents, isWrite]

@[simp] theorem countP_isRead_writeEvents (ws : List (Word × Word)) : (writeEvents ws).countP isRead = 0 := by
  simp [writeEvents, isRead]

/-- `EVT_DONE` is the one event an advance can add (R169). -/
theorem advance_trace (s : State) (n : Nat) :
    ∃ ev, (advance n s).trace = s.trace ++ ev ∧ ev.countP isRead = 0 ∧ ev.countP isWrite = 0 := by
  unfold advance
  dsimp only
  split
  · exact ⟨[.evtDone], rfl, rfl, rfl⟩
  · exact ⟨[], (List.append_nil _).symm, rfl, rfl⟩

/-! ## The lists of accesses -/

@[simp] theorem procReads_length (s : State) (n : Nat) : (procReads s n).length = n * s.numCh.toNat := by
  simp [procReads]

@[simp] theorem procWrites_length (s : State) (nReq n : Nat) :
    (procWrites s nReq n).length = (n + nReq) * s.numCh.toNat := by
  simp [procWrites, Nat.add_mul]

@[simp] theorem silenceWrites_length (s : State) (nReq : Nat) :
    (silenceWrites s nReq).length = nReq * s.numCh.toNat := by
  simp [silenceWrites]

@[simp] theorem filtReads_length (s : State) (n : Nat) : (filtReads s n).length = n := by
  simp [filtReads]

@[simp] theorem filtWrites_length (s : State) (n : Nat) (y : List Word) : (filtWrites s n y).length = n := by
  simp [filtWrites]

/-! ## The work bound (R290) -/

/-- The outcome is a next state, on the way to which `r` words are read and `w` words written. -/
def MakesAccesses (o : Host.Outcome State Fault Refusal) (s : State) (r w : Nat) : Prop :=
  ∃ t ev, o = .next t ∧ t.trace = s.trace ++ ev ∧ ev.countP isRead = r ∧ ev.countP isWrite = w

/-- `PROC` in RUNNING reads each source word once, and writes each word of the destination frames and of the transport
block once. -/
theorem exec_proc_accesses {s : State} {nReq : Nat} (h : ProcReady s nReq) :
    MakesAccesses (exec (.proc nReq) s) s (effectiveLen s nReq * s.numCh.toNat)
      ((effectiveLen s nReq + nReq) * s.numCh.toNat) := by
  obtain ⟨ev, htrace, hread, hwrite⟩ := advance_trace (procWork s nReq) (effectiveLen s nReq)
  refine ⟨_, readEvents s.mem (procReads s (effectiveLen s nReq)) ++
    writeEvents (procWrites s nReq (effectiveLen s nReq)) ++ ev, exec_proc_advance h, ?_, ?_, ?_⟩
  · rw [htrace, procWork]
    simp only [List.append_assoc]
  · simp [hread]
  · simp [hwrite]

/-- `PROC` outside a stream writes each word of the transport block once. -/
theorem exec_proc_silent_accesses {s : State} {nReq : Nat} (h : SilenceReady s nReq) :
    MakesAccesses (exec (.proc nReq) s) s 0 (nReq * s.numCh.toNat) :=
  ⟨_, writeEvents (silenceWrites s nReq), exec_proc_silent h, rfl, by simp, by simp⟩

/-- An accepted `FILT` reads each word of its block once and writes each word of its output block once. -/
theorem exec_filt_accesses {s : State} {c n : Nat} (h : FiltReady s c n) :
    MakesAccesses (exec (.filt c n) s) s n n :=
  ⟨_, readEvents s.mem (filtReads s n) ++ writeEvents (filtWrites s n (filtOutput s c n)),
    (exec_filt_ready h).trans (filtBlock_backed h.inputs h.outputs), List.append_assoc _ _ _, by simp, by simp⟩

/-- Settles O51: each command runs its lists of accesses, one event for each access. -/
theorem workIsBounded : Obligations.WorkIsBounded :=
  ⟨fun _ _ _ h => exec_proc_accesses h, fun _ _ h => exec_proc_silent_accesses h, fun _ _ _ h => exec_filt_accesses h⟩

end Sys2Proof.Machine
end
